-- ==== Sys2Proof/Word.lean ====
section
/-! DEFINITION. The words of bus_transaction_engine: bus addresses, bytes, times, and the command and response words. -/

namespace Sys2Proof

/-- One bus datum, 8 bits (`00_scope.md` R5 DATA_W). -/
abbrev Byte := BitVec 8

/-- A bus address, 16 bits (`00_scope.md` R5 ADDR_W, `20_memory.md` R60). -/
abbrev Addr := BitVec 16

/-- A time in milliseconds, unsigned 32 bits (`43_output_queues.md` R182). -/
abbrev Time := BitVec 32

/-- A command as it stands on `cmd[63:0]` (`30_encoding.md` R80). -/
abbrev CmdWord := BitVec 64

/-- A response as it stands on `rsp[31:0]` (`30_encoding.md` R82). -/
abbrev RspWord := BitVec 32

/-- A switch identifier: 0 to 63 in the matrix, 64 the diagnostic input (`10_state.md` R27). -/
abbrev SwitchId := BitVec 7

/-- A solenoid identifier, 0 to 15 (`10_state.md` R29). -/
abbrev SolId := BitVec 4

/-- A sound command code (`10_state.md` R30). -/
abbrev SoundCode := BitVec 8

end Sys2Proof
end

