-- ==== Sys2Proof/Config.lean ====
section
/-! DEFINITION. The configuration of the block: the parameters of `00_scope.md` R5 and R6 as one record of plain data, the
bus events, and the values the spec leaves to the environment.

The record stands in State (log 1), so that a statement about every state is a statement about every configuration. It has a
field for every parameter of R5. Those that size a register, a table or an identifier have the type `Stated n`, whose one value
is the number R5 states: the definitions read the field, and no configuration can disagree with the types of State. -/

namespace Sys2Proof

/-- One event of the bus history (`20_memory.md` R71): `W(addr, data)` or `R(addr, data)`. -/
inductive BusEvent where
  | write (addr : Addr) (data : Byte)
  | read (addr : Addr) (data : Byte)
  deriving DecidableEq, Repr

/-- HW_REV: it selects PINMAP only, which the logical level does not use (`40_bus_engine.md` R110; log 19). -/
inductive HwRev where
  | revA
  | revB
  deriving DecidableEq, Repr

/-- DISPLAY_ENCODING: only BCD is modelled, the other two are refused (`44_lamp_display.md` R201, U6). -/
inductive DisplayEncoding where
  | bcd
  | seg7
  | seg14
  deriving DecidableEq, Repr

/-- ADDRMAP: the ten named addresses of `20_memory.md` R72. -/
structure AddrMap where
  aDispStrobe : Addr
  aDispDataA : Addr
  aDispDataB : Addr
  aDiagStatus : Addr
  aLampStrobe : Addr
  aLampData : Addr
  aSwStrobe : Addr
  aSwReturn : Addr
  aSolA : Addr
  aSolB : Addr
  deriving DecidableEq, Repr, Inhabited

/-- A parameter whose value the spec states as `n`. -/
structure Stated (n : Nat) where
  value : Nat
  eq : value = n
  deriving DecidableEq, Repr

/-- The parameter at its value. -/
def Stated.given (n : Nat) : Stated n := { value := n, eq := rfl }

/-- The parameters of `00_scope.md` R5, and those of R6 that a transition of the state depends on. -/
structure Config where
  /-- ADDR_W: the width of `Addr`. -/
  addrW : Stated 16
  /-- DATA_W: the width of `Byte`. -/
  dataW : Stated 8
  /-- N_COLS -/
  nCols : Stated 8
  /-- N_ROWS -/
  nRows : Stated 8
  /-- N_SWITCHES -/
  nSwitches : Stated 64
  /-- HISTORY_GENERATIONS: `sw.now`, `sw.prev` and `sw.ago`. -/
  historyGenerations : Stated 3
  /-- N_LAMPS -/
  nLamps : Stated 64
  /-- N_DISPLAYS -/
  nDisplays : Stated 4
  /-- N_AUX_FIELDS -/
  nAuxFields : Stated 2
  /-- AUX_DIGITS -/
  auxDigits : Stated 2
  /-- MUX_SLOTS -/
  muxSlots : Stated 16
  /-- CONT_W -/
  contW : Stated 16
  /-- HW_REV -/
  hwRev : HwRev
  /-- STROBE_WAIT_SEQ: the clock levels awaited inside the strobe window; `true` is level 1. -/
  strobeWaitSeq : List Bool
  /-- SOL_Q_CAP -/
  solQCap : Nat
  /-- SW_Q_CAP -/
  swQCap : Nat
  /-- SND_Q_CAP -/
  sndQCap : Nat
  /-- SOL_TIMED_CAP -/
  solTimedCap : Nat
  /-- SND_TIMED_CAP -/
  sndTimedCap : Nat
  /-- DIAG_RELEASE_TICKS -/
  diagReleaseTicks : Nat
  /-- DIAG_STATUS_MASK -/
  diagStatusMask : Byte
  /-- SOL_EN_RESET -/
  solEnReset : Bool
  /-- DISABLE_SUPPRESSES_OUTPUT -/
  disableSuppressesOutput : Bool
  /-- DIM_DIV1 -/
  dimDiv1 : Nat
  /-- DIM_DIV2 -/
  dimDiv2 : Nat
  /-- FLASH_GRAN_MS -/
  flashGranMs : Nat
  /-- FLASH_MAX_MS -/
  flashMaxMs : Nat
  /-- DISPLAY_DIGITS -/
  displayDigits : Nat
  /-- DISPLAY_ENCODING -/
  displayEncoding : DisplayEncoding
  /-- CREDIT_BOOT_CHECK -/
  creditBootCheck : Bool
  /-- SLOT_TABLE: 16 rows of 4 lanes, each a (field, position) or none (`44_lamp_display.md` R207). -/
  slotTable : List (List (Option (Nat × Nat)))
  /-- SOUND_BITS, the function from an 8-bit code to 16 bits, written as its values at the codes where it is not the default
  `zext_16(c) << 8`; every function can be so written (log 21). -/
  soundBits : List (SoundCode × BitVec 16)
  /-- ADDRMAP -/
  addrMap : AddrMap
  /-- INIT_SEQ -/
  initSeq : List (Addr × Byte)
  /-- INTERLOCK_ENTER_SEQ -/
  interlockEnterSeq : List (Addr × Byte)
  /-- INTERLOCK_EXIT_SEQ -/
  interlockExitSeq : List (Addr × Byte)
  deriving DecidableEq, Repr

/-- ADDRMAP has no default (`00_scope.md` R6, OPEN): an uninterpreted constant (log 2). -/
opaque Config.openAddrMap : AddrMap

/-- INIT_SEQ has no default (`00_scope.md` R6, OPEN): an uninterpreted constant (log 2). -/
opaque Config.openInitSeq : List (Addr × Byte)

/-- INTERLOCK_ENTER_SEQ has no default (`00_scope.md` R6, OPEN): an uninterpreted constant (log 2). -/
opaque Config.openInterlockEnterSeq : List (Addr × Byte)

/-- INTERLOCK_EXIT_SEQ has no default (`00_scope.md` R6, OPEN): an uninterpreted constant (log 2). -/
opaque Config.openInterlockExitSeq : List (Addr × Byte)

/-- What a peripheral drives on DATA when nothing else says so: the oracle of `20_memory.md` R71, a function of the history
so far and the address, under no law (`draw(8)`, R63, U1, U2). Uninterpreted: a claim holds for every oracle (log 8). -/
opaque Config.oracle : List BusEvent → Addr → Byte

/-- SLOT_TABLE_DEFAULT of `44_lamp_display.md` R207 for a given DISPLAY_DIGITS. -/
def Config.slotTableDefault (digits : Nat) : List (List (Option (Nat × Nat))) :=
  (List.range 16).map fun s =>
    if s < digits then [some (0, s), some (1, s), some (2, s), some (3, s)]
    else if s = 8 then [some (4, 0), some (5, 0), none, none]
    else if s = 9 then [some (4, 1), some (5, 1), none, none]
    else [none, none, none, none]

/-- The configuration the machine has at reset: the values of `00_scope.md` R5, the defaults of R6, and the uninterpreted
constants for the parameters that have neither (logs 2 and 3). -/
def Config.machine : Config where
  addrW := .given 16
  dataW := .given 8
  nCols := .given 8
  nRows := .given 8
  nSwitches := .given 64
  historyGenerations := .given 3
  nLamps := .given 64
  nDisplays := .given 4
  nAuxFields := .given 2
  auxDigits := .given 2
  muxSlots := .given 16
  contW := .given 16
  hwRev := .revA
  strobeWaitSeq := [true, false, true]
  solQCap := 250
  swQCap := 64
  sndQCap := 250
  solTimedCap := 32
  sndTimedCap := 20
  diagReleaseTicks := 50
  diagStatusMask := 0x80
  solEnReset := false
  disableSuppressesOutput := false
  dimDiv1 := 2
  dimDiv2 := 3
  flashGranMs := 10
  flashMaxMs := 2550
  displayDigits := 6
  displayEncoding := .bcd
  creditBootCheck := false
  slotTable := Config.slotTableDefault 6
  soundBits := []
  addrMap := Config.openAddrMap
  initSeq := Config.openInitSeq
  interlockEnterSeq := Config.openInterlockEnterSeq
  interlockExitSeq := Config.openInterlockExitSeq

/-- The display fields: the main displays, then the auxiliary fields (`00_scope.md` R5, `10_state.md` R37). -/
def Config.nFields (c : Config) : Nat := c.nDisplays.value + c.nAuxFields.value

/-- `W(f)` of `10_state.md` R37: the width of a display field in digits. -/
def Config.fieldWidth (c : Config) (f : Nat) : Nat :=
  if f < c.nDisplays.value then c.displayDigits else c.auxDigits.value

end Sys2Proof
end

