-- ==== Sys2Proof/Syntax.lean ====
section
/-! DEFINITION. The commands: one constructor per row of spec/opcode_table.json, with the operands of `30_encoding.md` R85.
Fields a row marks with a dash are ignored (R87) and are no operand. Every operand is an unsigned field of the width R81
gives it; an identifier out of its range (R93) is an operand like any other and is answered when the command runs. -/

namespace Sys2Proof

/-- A command of `30_encoding.md` R85, or one of the six reserved by name in R86. -/
inductive Instr where
  /-- 0x01 INIT (R132) -/
  | init (credit : BitVec 8)
  /-- 0x10 BUSWR (R112) -/
  | buswr (addr : Addr) (data : Byte)
  /-- 0x11 BUSRD (R113) -/
  | busrd (addr : Addr)
  /-- 0x20 SWPULL (R150) -/
  | swpull
  /-- 0x21 SWPEEK (R151) -/
  | swpeek (id : BitVec 8)
  /-- 0x22 SWISQ (R152) -/
  | swisq (id : BitVec 8)
  /-- 0x30 SOLSPACE (R167) -/
  | solspace
  /-- 0x31 SOLPUSH (R164) -/
  | solpush (id rep : BitVec 8) (allow : Bool)
  /-- 0x32 SOLPUSHF (R165) -/
  | solpushf (id rep : BitVec 8)
  /-- 0x33 SOLSCHED (R172) -/
  | solsched (id rep : BitVec 8) (ovr : Bool) (time : Time)
  /-- 0x34 SOLEN (R176) -/
  | solen
  /-- 0x35 SOLDIS (R177) -/
  | soldis
  /-- 0x36 SOLCONT (R178) -/
  | solcont (id : BitVec 8) (on : Bool)
  /-- 0x38 SNDSPACE (R168) -/
  | sndspace
  /-- 0x39 SNDPUSH (R166) -/
  | sndpush (id rep : BitVec 8)
  /-- 0x3B SNDSCHED (R173) -/
  | sndsched (id rep : BitVec 8) (ovr : Bool) (time : Time)
  /-- 0x3F UPDATE (R175) -/
  | update (time : Time)
  /-- 0x40 LAMPSET (R191) -/
  | lampset (id : BitVec 8) (dim : BitVec 2) (on : Bool) (period : BitVec 16)
  /-- 0x41 LAMPOFF (R192) -/
  | lampoff
  /-- 0x48 DISPVAL (R202) -/
  | dispval (field min : BitVec 8) (blz : Bool) (value : BitVec 32)
  /-- 0x49 DISPBLANK (R205) -/
  | dispblank (field : BitVec 8) (mask : BitVec 8)
  /-- 0x4A DISPGETB (R206) -/
  | dispgetb (field : BitVec 8)
  /-- 0x23 DIAGQ, reserved (R86) -/
  | diagq
  /-- 0x24 DIAGCLR, reserved (R86) -/
  | diagclr
  /-- 0x37 FLIPDIS, reserved (R86) -/
  | flipdis
  /-- 0x3C SNDRANGE, reserved (R86) -/
  | sndrange
  /-- 0x42 LAMPFLASHALL, reserved (R86) -/
  | lampflashall
  /-- 0x4B DISPCYCLE, reserved (R86) -/
  | dispcycle
  deriving DecidableEq, Repr

end Sys2Proof
end

