-- ==== Sys2Proof/WellFormed.lean ====
section
/-! DEFINITION. What is well formed: the operand ranges of a command (`30_encoding.md` R93) and the legal configurations
(the `refuse` rows of `93_implementation_defined.md`).

An ill-formed operand is no refusal of the model: the spec gives the command an effect then, the answer INVALID_ID. An
illegal configuration is one the spec tells the model to reject. -/

namespace Sys2Proof

/-- The identifier operands stand in the ranges of `30_encoding.md` R93. -/
def Instr.wellFormed : Instr → Bool
  | .swpeek id => id ≤ 63
  | .swisq id => id ≤ 64
  | .solpush id _ _ => id ≤ 15
  | .solpushf id _ => id ≤ 15
  | .solsched id _ _ _ => id ≤ 15
  | .solcont id _ => id ≤ 15
  | .lampset id _ _ _ => id ≤ 63
  | .dispval field _ _ _ => field ≤ 5
  | .dispblank field _ => field ≤ 5
  | .dispgetb field => field ≤ 5
  | .init _ => true
  | .buswr _ _ => true
  | .busrd _ => true
  | .swpull => true
  | .solspace => true
  | .solen => true
  | .soldis => true
  | .sndspace => true
  | .sndpush _ _ => true
  | .sndsched _ _ _ _ => true
  | .update _ => true
  | .lampoff => true
  | .diagq => true
  | .diagclr => true
  | .flipdis => true
  | .sndrange => true
  | .lampflashall => true
  | .dispcycle => true

/-- U13: a capacity is 1 to 65,535. -/
def Config.capLegal (n : Nat) : Bool :=
  decide (1 ≤ n) && decide (n ≤ 65535)

/-- U13 for the three queues and the two timed tables. -/
def Config.capsLegal (c : Config) : Bool :=
  capLegal c.solQCap && capLegal c.swQCap && capLegal c.sndQCap && capLegal c.solTimedCap && capLegal c.sndTimedCap

/-- U11: STROBE_WAIT_SEQ is `[1, 0, 1]` or `[1, 0]`. -/
def Config.strobeLegal (c : Config) : Bool :=
  c.strobeWaitSeq == [true, false, true] || c.strobeWaitSeq == [true, false]

/-- U14: a dim divisor is at least 1. -/
def Config.dimLegal (c : Config) : Bool :=
  decide (1 ≤ c.dimDiv1) && decide (1 ≤ c.dimDiv2)

/-- U14: FLASH_GRAN_MS is even and at least 2; FLASH_MAX_MS is a multiple of it and at most 255 times it. -/
def Config.flashLegal (c : Config) : Bool :=
  decide (2 ≤ c.flashGranMs) && c.flashGranMs % 2 == 0 && c.flashMaxMs % c.flashGranMs == 0
    && decide (c.flashMaxMs ≤ 255 * c.flashGranMs)

/-- U15: DISPLAY_DIGITS is 1 to 8. -/
def Config.digitsLegal (c : Config) : Bool :=
  decide (1 ≤ c.displayDigits) && decide (c.displayDigits ≤ 8)

/-- U15: a digit reference names a field and a position inside it. -/
def Config.slotRefLegal (c : Config) : Option (Nat × Nat) → Bool
  | none => true
  | some (f, p) => decide (f < c.nFields) && decide (p < c.fieldWidth f)

/-- U15: SLOT_TABLE has MUX_SLOTS = 16 rows of 4 lanes and no reference to a position outside its field. -/
def Config.slotsLegal (c : Config) : Bool :=
  c.slotTable.length == c.muxSlots.value && c.slotTable.all fun row => row.length == 4 && row.all c.slotRefLegal

/-- U6: only the BCD encoding is modelled. -/
def Config.encodingLegal (c : Config) : Bool :=
  c.displayEncoding == .bcd

/-- U7: the held-credit-button test is not modelled. -/
def Config.creditLegal (c : Config) : Bool :=
  !c.creditBootCheck

/-- A configuration the spec lets the model run; every other one is refused (U6, U7, U11, U13, U14, U15; log 4). -/
def Config.legal (c : Config) : Bool :=
  c.capsLegal && c.strobeLegal && c.dimLegal && c.flashLegal && c.digitsLegal && c.slotsLegal
    && c.encodingLegal && c.creditLegal

end Sys2Proof
end

