-- ==== Sys2Proof/Decode.lean ====
section
/-! DEFINITION. The decoder and the encoder of the 64-bit command word (`30_encoding.md` R80, R81, R85, R86, R89). -/

namespace Sys2Proof

/-- `op = cmd[63:56]`. -/
def fieldOp (w : CmdWord) : BitVec 8 := w.extractLsb' 56 8

/-- `a = cmd[55:48]`. -/
def fieldA (w : CmdWord) : BitVec 8 := w.extractLsb' 48 8

/-- `b = cmd[47:40]`. -/
def fieldB (w : CmdWord) : BitVec 8 := w.extractLsb' 40 8

/-- `f[0] = cmd[32]`, the only flag bit ever used. -/
def fieldF0 (w : CmdWord) : Bool := w.getLsbD 32

/-- `w = cmd[31:0]`. -/
def fieldW (w : CmdWord) : BitVec 32 := w.extractLsb' 0 32

/-- The dim level, `b[1:0]`. -/
def fieldDim (w : CmdWord) : BitVec 2 := (fieldB w).extractLsb' 0 2

/-- The bus address, `w[31:16]`. -/
def fieldAddr (w : CmdWord) : BitVec 16 := (fieldW w).extractLsb' 16 16

/-- The flash period, `w[15:0]`. -/
def fieldPeriod (w : CmdWord) : BitVec 16 := (fieldW w).extractLsb' 0 16

/-- The bus datum and the blanking mask, `w[7:0]`. -/
def fieldLow8 (w : CmdWord) : BitVec 8 := (fieldW w).extractLsb' 0 8

/-- Why a word is no command of the table. -/
inductive DecodeError where
  /-- The value of `op` is reserved without a name (`30_encoding.md` R86). The step answers RESERVED_OP or BAD_MODE. Safe. -/
  | reservedOpcode (op : BitVec 8)
  deriving DecidableEq, Repr

/-- The decoder: `op` alone selects the command (R85); the ignored bits of R87 are not looked at. -/
def decode (w : CmdWord) : Except DecodeError Instr :=
  match (fieldOp w).toNat with
  | 0x01 => .ok (.init (fieldA w))
  | 0x10 => .ok (.buswr (fieldAddr w) (fieldLow8 w))
  | 0x11 => .ok (.busrd (fieldAddr w))
  | 0x20 => .ok .swpull
  | 0x21 => .ok (.swpeek (fieldA w))
  | 0x22 => .ok (.swisq (fieldA w))
  | 0x23 => .ok .diagq
  | 0x24 => .ok .diagclr
  | 0x30 => .ok .solspace
  | 0x31 => .ok (.solpush (fieldA w) (fieldB w) (fieldF0 w))
  | 0x32 => .ok (.solpushf (fieldA w) (fieldB w))
  | 0x33 => .ok (.solsched (fieldA w) (fieldB w) (fieldF0 w) (fieldW w))
  | 0x34 => .ok .solen
  | 0x35 => .ok .soldis
  | 0x36 => .ok (.solcont (fieldA w) (fieldF0 w))
  | 0x37 => .ok .flipdis
  | 0x38 => .ok .sndspace
  | 0x39 => .ok (.sndpush (fieldA w) (fieldB w))
  | 0x3B => .ok (.sndsched (fieldA w) (fieldB w) (fieldF0 w) (fieldW w))
  | 0x3C => .ok .sndrange
  | 0x3F => .ok (.update (fieldW w))
  | 0x40 => .ok (.lampset (fieldA w) (fieldDim w) (fieldF0 w) (fieldPeriod w))
  | 0x41 => .ok .lampoff
  | 0x42 => .ok .lampflashall
  | 0x48 => .ok (.dispval (fieldA w) (fieldB w) (fieldF0 w) (fieldW w))
  | 0x49 => .ok (.dispblank (fieldA w) (fieldLow8 w))
  | 0x4A => .ok (.dispgetb (fieldA w))
  | 0x4B => .ok .dispcycle
  | _ => .error (.reservedOpcode (fieldOp w))

/-- The command word `{op, a, b, f, w}` of `30_encoding.md` R80 with only `f[0]` used. -/
def packCommand (op a b : BitVec 8) (f0 : Bool) (w : BitVec 32) : CmdWord :=
  op ++ a ++ b ++ (0 : BitVec 7) ++ BitVec.ofBool f0 ++ w

/-- The operation code of a command (`30_encoding.md` R85, R86). -/
def Instr.opcode : Instr → BitVec 8
  | .init _ => 0x01
  | .buswr _ _ => 0x10
  | .busrd _ => 0x11
  | .swpull => 0x20
  | .swpeek _ => 0x21
  | .swisq _ => 0x22
  | .diagq => 0x23
  | .diagclr => 0x24
  | .solspace => 0x30
  | .solpush _ _ _ => 0x31
  | .solpushf _ _ => 0x32
  | .solsched _ _ _ _ => 0x33
  | .solen => 0x34
  | .soldis => 0x35
  | .solcont _ _ => 0x36
  | .flipdis => 0x37
  | .sndspace => 0x38
  | .sndpush _ _ => 0x39
  | .sndsched _ _ _ _ => 0x3B
  | .sndrange => 0x3C
  | .update _ => 0x3F
  | .lampset _ _ _ _ => 0x40
  | .lampoff => 0x41
  | .lampflashall => 0x42
  | .dispval _ _ _ _ => 0x48
  | .dispblank _ _ => 0x49
  | .dispgetb _ => 0x4A
  | .dispcycle => 0x4B

/-- The encoder: the command word of a command, every ignored bit 0 (R85, R87). -/
def encode (i : Instr) : CmdWord :=
  match i with
  | .init credit => packCommand i.opcode credit 0 false 0
  | .buswr addr data => packCommand i.opcode 0 0 false (addr ++ (0 : BitVec 8) ++ data)
  | .busrd addr => packCommand i.opcode 0 0 false (addr ++ (0 : BitVec 16))
  | .swpull => packCommand i.opcode 0 0 false 0
  | .swpeek id => packCommand i.opcode id 0 false 0
  | .swisq id => packCommand i.opcode id 0 false 0
  | .diagq => packCommand i.opcode 0 0 false 0
  | .diagclr => packCommand i.opcode 0 0 false 0
  | .solspace => packCommand i.opcode 0 0 false 0
  | .solpush id rep allow => packCommand i.opcode id rep allow 0
  | .solpushf id rep => packCommand i.opcode id rep false 0
  | .solsched id rep ovr time => packCommand i.opcode id rep ovr time
  | .solen => packCommand i.opcode 0 0 false 0
  | .soldis => packCommand i.opcode 0 0 false 0
  | .solcont id on => packCommand i.opcode id 0 on 0
  | .flipdis => packCommand i.opcode 0 0 false 0
  | .sndspace => packCommand i.opcode 0 0 false 0
  | .sndpush id rep => packCommand i.opcode id rep false 0
  | .sndsched id rep ovr time => packCommand i.opcode id rep ovr time
  | .sndrange => packCommand i.opcode 0 0 false 0
  | .update time => packCommand i.opcode 0 0 false time
  | .lampset id dim on period => packCommand i.opcode id (dim.setWidth 8) on (period.setWidth 32)
  | .lampoff => packCommand i.opcode 0 0 false 0
  | .lampflashall => packCommand i.opcode 0 0 false 0
  | .dispval field min blz value => packCommand i.opcode field min blz value
  | .dispblank field mask => packCommand i.opcode field 0 false (mask.setWidth 32)
  | .dispgetb field => packCommand i.opcode field 0 false 0
  | .dispcycle => packCommand i.opcode 0 0 false 0

/-- The instruction the decoder reads from a table row's bits: a command is one 64-bit word, presented whole, so the bits
stand on `cmd[63:0]` as they are numbered and every bit above `nbits` is 0. -/
def decodeTableWord (nbits w : Nat) : Option Instr :=
  match decode (BitVec.ofNat 64 (w % 2 ^ nbits)) with
  | .ok i => some i
  | .error _ => none

end Sys2Proof
end

