-- ==== Sys2Proof/Machine/State.lean ====
section
/-! DEFINITION. The state of the block (`10_state.md`), its inputs as plain data, the fault and the refusals, and power-on. -/

namespace Sys2Proof.Machine

/-- `sys.mode` (`10_state.md` R21). -/
inductive Mode where
  | uninit
  | run
  | halted
  deriving DecidableEq, Repr

/-- `bus.st`, the phase of the current bus cycle (`10_state.md` R23). -/
inductive BusPhase where
  | idle
  | addr
  | data
  | we
  | sync
  | strobe
  | release
  deriving DecidableEq, Repr

/-- The line registers (`10_state.md` R24); `true` is 1. -/
structure Pins where
  /-- `pin.BUS_OE` -/
  busOE : Bool
  /-- `pin.ADDR_Q` -/
  addrQ : Addr
  /-- `pin.DATA_Q` -/
  dataQ : Byte
  /-- `pin.DATA_OE` -/
  dataOE : Bool
  /-- `pin.WE` -/
  we : Bool
  /-- `pin.STB` -/
  stb : Bool
  /-- `pin.HALT_LEGACY` -/
  haltLegacy : Bool
  deriving DecidableEq, Repr

/-- The input `CLK` (`10_state.md` R22): the levels the engine's next samples will see, then either a clock that changes
level at every sample or one that stands still (log 6). -/
structure Clock where
  /-- the levels of the next samples -/
  samples : List Bool
  /-- the level last sampled -/
  level : Bool
  /-- after the script: does the clock still toggle -/
  running : Bool
  deriving DecidableEq, Repr

/-- The bus engine: its sequencing registers (`10_state.md` R23), its line registers (R24), the two inputs it samples, and
the history of its cycles (`20_memory.md` R71). -/
structure BusEngine where
  /-- `bus.st` -/
  st : BusPhase
  /-- `bus.k` -/
  k : Nat
  /-- `bus.addr` -/
  addr : Addr
  /-- `bus.wdata` -/
  wdata : Byte
  /-- `bus.rw`, 1 = write cycle -/
  rw : Bool
  /-- `bus.rdata` -/
  rdata : Byte
  /-- the line registers -/
  pin : Pins
  /-- the input `CLK` -/
  clk : Clock
  /-- the input `DATA`: the bytes the peripherals drive in the next read cycles; the oracle answers after them (log 8) -/
  answers : List Byte
  /-- the bus history, oldest event first (log 9) -/
  hist : List BusEvent
  deriving DecidableEq, Repr

/-- The scheduler (`10_state.md` R25). -/
structure Sched where
  /-- `sch.phase`: `false` is 0, the next invocation runs the input phase -/
  phase : Bool
  /-- `sch.tick_pend` -/
  tickPend : Bool
  deriving DecidableEq, Repr

/-- The switch matrix (`10_state.md` R26, R27, R28). -/
structure Switches where
  /-- `sw.now[c]` -/
  now : Vector Byte 8
  /-- `sw.prev[c]` -/
  prev : Vector Byte 8
  /-- `sw.ago[c]` -/
  ago : Vector Byte 8
  /-- `sw.q`, oldest first -/
  q : List SwitchId
  /-- `sw.diag_hold` -/
  diagHold : Nat
  deriving DecidableEq, Repr

/-- One slot of a timed table (`10_state.md` R31); `w` is the width of the target id. -/
structure TimedEntry (w : Nat) where
  used : Bool
  id : BitVec w
  rep : BitVec 8
  fire : Time
  ovr : Bool
  deriving DecidableEq, Repr

/-- The solenoid side of the output queues (`10_state.md` R29, R31, R33, R34). -/
structure Solenoids where
  /-- `sol.q`, head first -/
  q : List SolId
  /-- `sol.t` -/
  t : List (TimedEntry 4)
  /-- `sol.en` -/
  en : Bool
  /-- `sol.firing` -/
  firing : Bool
  /-- `sol.cont` -/
  cont : BitVec 16
  deriving DecidableEq, Repr

/-- The sound side of the output queues (`10_state.md` R30, R31). -/
structure Sounds where
  /-- `snd.q`, head first -/
  q : List SoundCode
  /-- `snd.t` -/
  t : List (TimedEntry 8)
  deriving DecidableEq, Repr

/-- The lamps (`10_state.md` R35, R36). -/
structure Lamps where
  /-- `lamp.on[b]` -/
  on : Vector Byte 8
  /-- `lamp.dim1[b]` -/
  dim1 : Vector Byte 8
  /-- `lamp.dim2[b]` -/
  dim2 : Vector Byte 8
  /-- `lamp.fp[i]` -/
  fp : Vector Byte 64
  /-- `lamp.bank` -/
  bank : Fin 8
  /-- `lamp.dimc1` -/
  dimc1 : Nat
  /-- `lamp.dimc2` -/
  dimc2 : Nat
  deriving DecidableEq, Repr

/-- The display buffers (`10_state.md` R37, R38). -/
structure Displays where
  /-- `disp.digit[f]`, position 0 first -/
  digit : Vector (List Byte) 6
  /-- `disp.blank[f]` -/
  blank : Vector Byte 6
  /-- `disp.slot` -/
  slot : Fin 16
  deriving DecidableEq, Repr

/-- The host ports (`10_state.md` R22, `30_encoding.md` R88). -/
structure Port where
  /-- the commands the host still offers, in order: the head stands on `cmd[63:0]`, `cmd_valid` is 1 while there is one (log 11) -/
  cmds : List CmdWord
  /-- `rsp_valid` -/
  rspValid : Bool
  /-- `rsp[31:0]` -/
  rsp : RspWord
  deriving DecidableEq, Repr

/-- The `TICK` pulses of one step (log 10). -/
structure TickSample where
  /-- pulses that arrive before the arbiter chooses -/
  before : Nat
  /-- pulses that arrive while the chosen command or handler invocation is in progress -/
  during : Nat
  deriving DecidableEq, Repr

/-- The inputs that no other part holds (`10_state.md` R22). -/
structure Inputs where
  /-- the `TICK` pulses of the coming steps, none after the list; the list is empty in `State.reset` (log 10) -/
  ticks : List TickSample
  /-- the level of `BOOT_ORIG_REQ` (log 13) -/
  bootOrigReq : Bool
  deriving DecidableEq, Repr

/-- Why the machine is stuck. -/
inductive Fault where
  /-- A bus cycle awaits a clock level that never comes (`40_bus_engine.md` R114, U3 `stuck`): the cycle, and with it the
  command or the handler invocation that called it, never ends. Raised by every operation that runs a bus cycle. Safe (log 7). -/
  | clockStopped
  deriving DecidableEq, Repr

/-- Why the model rejects a step. -/
inductive Refusal where
  /-- An instruction without a meaning yet; raised by an arm of `exec` alone. Safe. -/
  | notModelled (mnemonic : String)
  /-- The configuration is one the spec lets the model reject (U6, U7, U11, U13, U14, U15). Raised by `step`. Safe (log 4). -/
  | illegalConfig
  deriving DecidableEq, Repr

/-- The whole state: the elements of `10_state.md`, the configuration (log 1) and the inputs. -/
structure State where
  /-- the configuration, written by no step -/
  cfg : Config
  /-- `sys.mode` -/
  mode : Mode
  /-- `bus.*`, `pin.*` and the inputs `CLK` and `DATA` -/
  bus : BusEngine
  /-- `sch.*` -/
  sch : Sched
  /-- `sw.*` -/
  sw : Switches
  /-- `sol.*` -/
  sol : Solenoids
  /-- `snd.*` -/
  snd : Sounds
  /-- `lamp.*` -/
  lamp : Lamps
  /-- `disp.*` -/
  disp : Displays
  /-- the command and response ports -/
  port : Port
  /-- `TICK` and `BOOT_ORIG_REQ` -/
  inp : Inputs
  deriving DecidableEq, Repr

/-- What an operation answers. -/
abbrev Result := Host.Outcome State Fault Refusal

/-- A free slot of a timed table as it stands at power-on (log 12). -/
def TimedEntry.blankSlot (w : Nat) : TimedEntry w :=
  { used := false, id := 0, rep := 0, fire := 0, ovr := false }

/-- Power-on (`10_state.md` R42, `70_reset_and_hazards.md` R271): the values the spec states, and for every element it leaves
unspecified the value log 12 names. What the inputs of `10_state.md` R22 do after power-on is the model's choice (DESIGN CHOICE):
`CLK` toggles at every sample (log 6), the bytes read are the oracle's (log 8), no `TICK` pulse ever comes (log 10), no command is
offered (log 11), `BOOT_ORIG_REQ` is 0 (log 13). -/
def State.reset : State where
  cfg := Config.machine
  mode := .uninit
  bus :=
    { st := .idle, k := 0, addr := 0, wdata := 0, rw := false, rdata := 0
      pin := { busOE := false, addrQ := 0, dataQ := 0, dataOE := false, we := false, stb := false, haltLegacy := false }
      clk := { samples := [], level := false, running := true }
      answers := []
      hist := [] }
  sch := { phase := false, tickPend := false }
  sw :=
    { now := Vector.replicate 8 0, prev := Vector.replicate 8 0, ago := Vector.replicate 8 0, q := [], diagHold := 0 }
  sol :=
    { q := [], t := List.replicate Config.machine.solTimedCap (TimedEntry.blankSlot 4), en := false, firing := false, cont := 0 }
  snd := { q := [], t := List.replicate Config.machine.sndTimedCap (TimedEntry.blankSlot 8) }
  lamp :=
    { on := Vector.replicate 8 0, dim1 := Vector.replicate 8 0, dim2 := Vector.replicate 8 0, fp := Vector.replicate 64 0
      bank := 0, dimc1 := 0, dimc2 := 0 }
  disp :=
    { digit := #v[List.replicate 6 0, List.replicate 6 0, List.replicate 6 0, List.replicate 6 0, List.replicate 2 0,
        List.replicate 2 0]
      blank := Vector.replicate 6 0
      slot := 0 }
  port := { cmds := [], rspValid := false, rsp := 0 }
  inp := { ticks := [], bootOrigReq := false }

/-! ## One update per component -/

def State.withMode (s : State) (x : Mode) : State := { s with mode := x }
def State.withBus (s : State) (x : BusEngine) : State := { s with bus := x }
def State.withSch (s : State) (x : Sched) : State := { s with sch := x }
def State.withSw (s : State) (x : Switches) : State := { s with sw := x }
def State.withSol (s : State) (x : Solenoids) : State := { s with sol := x }
def State.withSnd (s : State) (x : Sounds) : State := { s with snd := x }
def State.withLamp (s : State) (x : Lamps) : State := { s with lamp := x }
def State.withDisp (s : State) (x : Displays) : State := { s with disp := x }
def State.withPort (s : State) (x : Port) : State := { s with port := x }
def State.withInp (s : State) (x : Inputs) : State := { s with inp := x }

end Sys2Proof.Machine
end

