-- ==== Sys2Proof/Machine/Flags.lean ====
section
/-! DEFINITION. The status of a command and its response word (`30_encoding.md` R82, R83). The block has no condition codes
(`10_state.md` R39): what a command reports, it reports here. -/

namespace Sys2Proof.Machine

/-- The status codes that are produced (`30_encoding.md` R83). -/
inductive Status where
  | ok
  | empty
  | rejectFull
  | rejectDisabled
  | invalidId
  | reservedOp
  | badMode
  | halted
  deriving DecidableEq, Repr

/-- The 4-bit code of a status (`30_encoding.md` R83). -/
def statusCode : Status → BitVec 4
  | .ok => 0
  | .empty => 1
  | .rejectFull => 2
  | .rejectDisabled => 3
  | .invalidId => 4
  | .reservedOp => 5
  | .badMode => 6
  | .halted => 7

/-- `{S, 12 zero bits, zext_16(d)}` (`30_encoding.md` R82, R83). -/
def responseWord (st : Status) (d : BitVec 16) : RspWord :=
  statusCode st ++ (0 : BitVec 12) ++ d

end Sys2Proof.Machine
end

