-- ==== Sys2Proof/Machine/Operands.lean ====
section
/-! DEFINITION. How an identifier operand names a piece of state (`30_encoding.md` R81, R93). Each is used after its rule has
tested the range. -/

namespace Sys2Proof.Machine

/-- The column `id[5:3]` of a matrix switch (`42_switch_matrix.md` R141). -/
def switchColumn (id : BitVec 8) : Fin 8 := Fin.ofNat 8 (id.extractLsb' 3 3).toNat

/-- The row `id[2:0]` of a matrix switch (`42_switch_matrix.md` R141). -/
def switchRow (id : BitVec 8) : Nat := (id.extractLsb' 0 3).toNat

/-- `id = c*8 + r` of the matrix switch at column `c`, row `r` (`42_switch_matrix.md` R141). -/
def switchId (c : Fin 8) (r : Nat) : SwitchId := BitVec.ofNat 7 (c.val * 8 + r)

/-- DIAG_SWITCH_ID, the first value after the matrix (`42_switch_matrix.md` R141). -/
def diagSwitchId : SwitchId := 64

/-- The switch a 7-bit queue entry names, from an 8-bit operand. -/
def queuedId (id : BitVec 8) : SwitchId := id.extractLsb' 0 7

/-- The solenoid `id[3:0]` (`43_output_queues.md` R164). -/
def solenoidOf (id : BitVec 8) : SolId := id.extractLsb' 0 4

/-- The lamp an operand names (`44_lamp_display.md` R191). -/
def lampOf (id : BitVec 8) : Fin 64 := Fin.ofNat 64 id.toNat

/-- The bank of a lamp, `i / 8` (`10_state.md` R35). -/
def lampBank (i : Fin 64) : Fin 8 := ⟨i.val / 8, by omega⟩

/-- The bit of a lamp in its bank, `i mod 8` (`10_state.md` R35). -/
def lampBit (i : Fin 64) : Nat := i.val % 8

/-- The display field an operand names (`44_lamp_display.md` R202). -/
def fieldOf (id : BitVec 8) : Fin 6 := Fin.ofNat 6 id.toNat

end Sys2Proof.Machine
end

