-- ==== Sys2Proof/Machine/Ops.lean ====
section
/-! DEFINITION. The operations every family shares: sequencing, the answer of a command, the mode test, the queues and timed
tables (`43_output_queues.md` part 1 and R170, R171), one bit of a register, and taking the tick and returning from it
(`60_exceptions.md` R246 to R249). -/

namespace Sys2Proof.Machine

/-! ## Sequencing -/

/-- The next step of a rule runs on the state the previous one left; a stuck step ends the rule. -/
def chain (r : Result) (f : State → Result) : Result :=
  match r with
  | .next s => f s
  | .fault x => .fault x
  | .refused x => .refused x

/-- `for x in list, in list order`. -/
def forEach {α : Type} (f : α → State → Result) : List α → State → Result
  | [], s => .next s
  | x :: xs, s => chain (f x s) (forEach f xs)

/-! ## The answer of a command -/

/-- `respond(S, d)` (`30_encoding.md` R83): `rsp_valid` goes up with the response word. -/
def respond (st : Status) (d : BitVec 16) (s : State) : State :=
  s.withPort { s.port with rspValid := true, rsp := responseWord st d }

/-- A refusal: the status, data 0, and no other change (`60_exceptions.md` R240, R242). What takes the place of a synchronous
exception. -/
def refuse (st : Status) (s : State) : Result := .next (respond st 0 s)

/-- The data of a boolean query: the answer in bit 0 (`30_encoding.md` R83). -/
def boolData (b : Bool) : BitVec 16 := if b then 1 else 0

/-- Every command but INIT answers BAD_MODE in UNINIT, before anything else is looked at (`30_encoding.md` R84,
`60_exceptions.md` R240). -/
def served (s : State) (r : Result) : Result :=
  if s.mode = .uninit then refuse .badMode s else r

/-- The answer to a reserved operation code (`30_encoding.md` R86). -/
def answerReserved (s : State) : Result := served s (refuse .reservedOp s)

/-! ## Bits -/

/-- `x` with bit `j` set to `v`. -/
def setBit {w : Nat} (x : BitVec w) (j : Nat) (v : Bool) : BitVec w :=
  if v then x ||| (1#w <<< j) else x &&& ~~~(1#w <<< j)

/-! ## Queues -/

/-- `Space(q) = capacity - len(q)` (`43_output_queues.md` R161). -/
def space {α : Type} (cap : Nat) (q : List α) : Nat := cap - q.length

/-- `Push(q, id, n)` (`43_output_queues.md` R162): all or nothing. -/
def push {α : Type} (cap : Nat) (q : List α) (id : α) (n : BitVec 8) : Option (List α) :=
  if space cap q < n.toNat then none else some (q ++ List.replicate n.toNat id)

/-- The insertion of SOLPUSHF (`43_output_queues.md` R165): the new slots come out before everything queued. -/
def pushFront {α : Type} (cap : Nat) (q : List α) (id : α) (n : BitVec 8) : Option (List α) :=
  if space cap q < n.toNat then none else some (List.replicate n.toNat id ++ q)

/-- `Pull(q)` (`43_output_queues.md` R163): what is pulled, and the queue after. -/
def pull {α : Type} : List α → Option α × List α
  | [] => (none, [])
  | id :: q => (some id, q)

/-! ## Timed tables -/

/-- `Schedule(t, ...)` (`43_output_queues.md` R170): the entry takes the lowest free slot; none when the table is full. -/
def schedule {w : Nat} (e : TimedEntry w) : List (TimedEntry w) → Option (List (TimedEntry w))
  | [] => none
  | x :: t => if x.used then (schedule e t).map (x :: ·) else some (e :: t)

/-- An entry is due: used, and `now >= fire` as unsigned 32-bit numbers (`43_output_queues.md` R171, R182). -/
def due {w : Nat} (now : Time) (e : TimedEntry w) : Bool := e.used && decide (e.fire ≤ now)

/-- `TimedTick(t, now)` (`43_output_queues.md` R171): the slots in ascending order; a due entry that is admitted is pushed, the
result of the push is ignored, and its slot is freed either way. Answers the table and the queue. -/
def timedTick {w : Nat} (cap : Nat) (now : Time) (admits : TimedEntry w → Bool) :
    List (TimedEntry w) → List (BitVec w) → List (TimedEntry w) × List (BitVec w)
  | [], q => ([], q)
  | e :: t, q =>
    if due now e then
      let r := timedTick cap now admits t (if admits e then (push cap q e.id e.rep).getD q else q)
      ({ e with used := false } :: r.1, r.2)
    else
      let r := timedTick cap now admits t q
      (e :: r.1, r.2)

/-! ## The tick interrupt -/

/-- One pulse on `TICK` (`45_interrupt_scheduler.md` R220): latched in RUN, ignored in the other modes, lost while one is
pending. -/
def tickPulse (s : State) : State :=
  if s.mode = .run then s.withSch { s.sch with tickPend := true } else s

/-- `n` pulses on `TICK`, one after the other. -/
def tickPulses : Nat → State → State
  | 0, s => s
  | n + 1, s => tickPulses n (tickPulse s)

/-- Taking the tick (`60_exceptions.md` R246, R248): the pending bit is cleared; nothing is saved, no register is switched. -/
def takeTick (s : State) : State := s.withSch { s.sch with tickPend := false }

/-- The end of the handler (`45_interrupt_scheduler.md` R221, `60_exceptions.md` R249): the phase is inverted; there is nothing
to restore. -/
def returnFromTick (s : State) : State := s.withSch { s.sch with phase := !s.sch.phase }

end Sys2Proof.Machine
end

