-- ==== Sys2Proof/Machine/BusCycle.lean ====
section
/-! DEFINITION. The bus engine (`40_bus_engine.md`): one engine step, one bus cycle run step by step from request to IDLE, and
the operations BusWrite and BusRead over the whole state. -/

namespace Sys2Proof.Machine

/-! ## The lines -/

/-- The value of `ADDR`; none is `Z` (`10_state.md` R24). -/
def lineAddr (p : Pins) : Option Addr := if p.busOE then some p.addrQ else none

/-- The value this block drives on `DATA`; none is `Z` (`10_state.md` R24). -/
def lineData (p : Pins) : Option Byte := if p.busOE && p.dataOE then some p.dataQ else none

/-- The value of `WE`; none is `Z` (`10_state.md` R24). -/
def lineWE (p : Pins) : Option Bool := if p.busOE then some p.we else none

/-- The value of `STB`; none is `Z` (`10_state.md` R24). -/
def lineSTB (p : Pins) : Option Bool := if p.busOE then some p.stb else none

/-! ## The inputs of an engine step -/

/-- One sample of `CLK` (`40_bus_engine.md` R103): the level, and the clock after it (log 6). -/
def clockSample (c : Clock) : Bool × Clock :=
  match c.samples with
  | v :: rest => (v, { c with samples := rest, level := v })
  | [] => if c.running then (!c.level, { c with level := !c.level }) else (c.level, c)

/-- The byte the environment drives on `DATA` in the cycle in progress (`20_memory.md` R63, R71; log 8). -/
def peripheralByte (e : BusEngine) : Byte :=
  match e.answers with
  | v :: _ => v
  | [] => Config.oracle e.hist e.addr

/-! ## One step of the engine -/

/-- A request of BusWrite (`rw` = 1) or BusRead (`rw` = 0, `wdata` unused). -/
structure BusRequest where
  rw : Bool
  addr : Addr
  wdata : Byte
  deriving DecidableEq, Repr

/-- The IDLE row of `40_bus_engine.md` R104 with a request: it is latched. -/
def engineAccept (r : BusRequest) (e : BusEngine) : BusEngine :=
  { e with rw := r.rw, addr := r.addr, wdata := r.wdata, st := .addr }

/-- The SYNC rows of `40_bus_engine.md` R104. -/
def engineSync (e : BusEngine) : BusEngine :=
  let x := clockSample e.clk
  if x.1 then { e with clk := x.2 }
  else { e with clk := x.2, pin := { e.pin with stb := true }, k := 0, st := .strobe }

/-- The last STROBE row of `40_bus_engine.md` R104: a read samples `DATA` while `STB` is still 1, then `STB` falls. -/
def engineStrobeEnd (e : BusEngine) : BusEngine :=
  let e' := if e.rw then e else { e with rdata := peripheralByte e, answers := e.answers.tail }
  { e' with pin := { e'.pin with stb := false }, st := .release }

/-- The STROBE rows of `40_bus_engine.md` R104; `seq` is STROBE_WAIT_SEQ. -/
def engineStrobe (seq : List Bool) (e : BusEngine) : BusEngine :=
  let x := clockSample e.clk
  let e' := { e with clk := x.2 }
  if x.1 != seq.getD e.k false then e'
  else if e.k < seq.length - 1 then { e' with k := e.k + 1 }
  else engineStrobeEnd e'

/-- The event a completed cycle adds to the history (`40_bus_engine.md` R105, R106). -/
def cycleEvent (e : BusEngine) : BusEvent :=
  if e.rw then .write e.addr e.wdata else .read e.addr e.rdata

/-- The RELEASE row of `40_bus_engine.md` R104: the lines are idle, the cycle is complete. -/
def engineRelease (e : BusEngine) : BusEngine :=
  { e with pin := { e.pin with we := false, dataOE := false, addrQ := 0 }, st := .idle, hist := e.hist ++ [cycleEvent e] }

/-- The DATA rows of `40_bus_engine.md` R104. -/
def engineData (e : BusEngine) : BusEngine :=
  if e.rw then { e with pin := { e.pin with dataQ := e.wdata, dataOE := true }, st := .we }
  else { e with pin := { e.pin with dataOE := false }, st := .we }

/-- One engine step: the one row of `40_bus_engine.md` R104 that matches `bus.st` and, in SYNC and STROBE, the sampled `CLK`. -/
def engineStep (seq : List Bool) (req : Option BusRequest) (e : BusEngine) : BusEngine :=
  match e.st with
  | .idle =>
    match req with
    | some r => engineAccept r e
    | none => e
  | .addr => { e with pin := { e.pin with addrQ := e.addr }, st := .data }
  | .data => engineData e
  | .we => { e with pin := { e.pin with we := e.rw }, st := .sync }
  | .sync => engineSync e
  | .strobe => engineStrobe seq e
  | .release => engineRelease e

/-! ## One bus cycle -/

/-- Engine steps until `bus.st` is IDLE again; none when it is not within `n` steps. -/
def engineRun (seq : List Bool) : Nat → BusEngine → Option BusEngine
  | 0, _ => none
  | n + 1, e =>
    let e' := engineStep seq none e
    if e'.st = .idle then some e' else engineRun seq n e'

/-- Enough engine steps for one cycle: four that await no clock, the scripted samples, and two samples of a toggling clock for
each awaited level. A cycle not complete by then awaits a level that never comes (log 7). -/
def cycleFuel (seq : List Bool) (e : BusEngine) : Nat :=
  e.clk.samples.length + 2 * (seq.length + 2) + 4

/-- One complete bus cycle (`40_bus_engine.md` R100, R102): the request is latched and the engine runs until IDLE. None is the
hang of R114. -/
def busCycle (seq : List Bool) (r : BusRequest) (e : BusEngine) : Option BusEngine :=
  engineRun seq (cycleFuel seq e) (engineAccept r e)

/-- A bus cycle of the machine; a hang is the fault `clockStopped` (`40_bus_engine.md` R114). -/
def runCycle (r : BusRequest) (s : State) : Result :=
  match busCycle s.cfg.strobeWaitSeq r s.bus with
  | some e => .next (s.withBus e)
  | none => .fault .clockStopped

/-- `BusWrite(addr, v)` (`40_bus_engine.md` R105). -/
def busWrite (a : Addr) (v : Byte) (s : State) : Result :=
  runCycle { rw := true, addr := a, wdata := v } s

/-- `BusRead(addr)` (`40_bus_engine.md` R106): the result is `bus.rdata` of the state it leaves. `wdata` is unused and keeps its
stale value. -/
def busRead (a : Addr) (s : State) : Result :=
  runCycle { rw := false, addr := a, wdata := s.bus.wdata } s

/-- One write cycle per pair, in list order (`41_peripheral_config.md` R130). -/
def writeAll (l : List (Addr × Byte)) (s : State) : Result :=
  forEach (fun x => busWrite x.1 x.2) l s

/-! ## The host commands -/

/-- BUSWR addr data (`40_bus_engine.md` R112). -/
def execBuswr (addr : Addr) (data : Byte) (s : State) : Result :=
  served s (chain (busWrite addr data s) fun s => .next (respond .ok 0 s))

/-- BUSRD addr (`40_bus_engine.md` R113). -/
def execBusrd (addr : Addr) (s : State) : Result :=
  served s (chain (busRead addr s) fun s => .next (respond .ok (s.bus.rdata.setWidth 16) s))

end Sys2Proof.Machine
end

