-- ==== Sys2Proof/Machine/Display.lean ====
section
/-! DEFINITION. The displays (`44_lamp_display.md` parts 3 and 4): Digit, BlankMask, Nib, DisplayStep and the commands DISPVAL,
DISPBLANK, DISPGETB. -/

namespace Sys2Proof.Machine

/-- `Digit(value, W, p)` (`44_lamp_display.md` R203): position 0 is the leftmost. -/
def digitCode (value W p : Nat) : Byte := BitVec.ofNat 8 (value / 10 ^ (W - 1 - p) % 10)

/-- The digits of a field of width `W`, position 0 first (`44_lamp_display.md` R202, R203). -/
def digitCodes (value W : Nat) : List Byte := (List.range W).map (digitCode value W)

/-- `sig` (`44_lamp_display.md` R204): the number of decimal digits of `value`, 0 for 0, limited to `W`. -/
def sigDigits (value W : Nat) : Nat := (List.range W).countP fun k => decide (10 ^ k ≤ value)

/-- The number of active positions (`44_lamp_display.md` R204). -/
def activeDigits (value W : Nat) (blz : Bool) (min' : Nat) : Nat :=
  if blz then max (sigDigits value W) (min min' W) else W

/-- The mask of the rightmost `active` of `W` positions (`44_lamp_display.md` R204). -/
def rightMask (W active : Nat) : Byte := BitVec.ofNat 8 ((2 ^ active - 1) * 2 ^ (W - active))

/-- `BlankMask(value, W, blz, min)` (`44_lamp_display.md` R204). -/
def blankMask (value W : Nat) (blz : Bool) (min' : Nat) : Byte := rightMask W (activeDigits value W blz min')

/-! ## The multiplex step -/

/-- `Nib(s, L)` (`44_lamp_display.md` R209): the digit of the lane, or 0xF for blank. -/
def nibble (c : Config) (d : Displays) (slot lane : Nat) : BitVec 4 :=
  match (c.slotTable.getD slot []).getD lane none with
  | none => 0xF
  | some (f, p) =>
    if (d.blank.getD f 0).getLsbD p then (((d.digit.getD f []).getD p 0).extractLsb' 0 4) else 0xF

/-- The slot after a slot: one more, modulo MUX_SLOTS (`44_lamp_display.md` R208 step 1). -/
def nextSlot (c : Config) (slot : Fin 16) : Fin 16 := Fin.ofNat 16 ((slot.val + 1) % c.muxSlots.value)

/-- `DisplayStep()` (`44_lamp_display.md` R208): the slot advances, then the slot number and two bytes of two codes. -/
def displayStep (s : State) : Result :=
  let s := s.withDisp { s.disp with slot := nextSlot s.cfg s.disp.slot }
  let n := s.disp.slot.val
  chain (busWrite s.cfg.addrMap.aDispStrobe (BitVec.ofNat 8 n) s) fun s =>
    chain (busWrite s.cfg.addrMap.aDispDataA (nibble s.cfg s.disp n 1 ++ nibble s.cfg s.disp n 0) s) fun s =>
      busWrite s.cfg.addrMap.aDispDataB (nibble s.cfg s.disp n 3 ++ nibble s.cfg s.disp n 2) s

/-! ## The host commands -/

/-- DISPVAL field min blz value (`44_lamp_display.md` R202). -/
def execDispval (field min' : BitVec 8) (blz : Bool) (value : BitVec 32) (s : State) : Result :=
  served s <|
    if s.cfg.nFields ≤ field.toNat then refuse .invalidId s
    else
      let f := fieldOf field
      let W := s.cfg.fieldWidth f.val
      .next <| respond .ok 0 <| s.withDisp
        { s.disp with
          digit := s.disp.digit.set f (digitCodes value.toNat W)
          blank := s.disp.blank.set f (blankMask value.toNat W blz min'.toNat) }

/-- DISPBLANK field mask (`44_lamp_display.md` R205): mask bits at and above `W(field)` are dropped. -/
def execDispblank (field mask : BitVec 8) (s : State) : Result :=
  served s <|
    if s.cfg.nFields ≤ field.toNat then refuse .invalidId s
    else
      let f := fieldOf field
      .next <| respond .ok 0 <| s.withDisp
        { s.disp with blank := s.disp.blank.set f (mask &&& BitVec.ofNat 8 (2 ^ s.cfg.fieldWidth f.val - 1)) }

/-- DISPGETB field (`44_lamp_display.md` R206). -/
def execDispgetb (field : BitVec 8) (s : State) : Result :=
  served s <|
    if s.cfg.nFields ≤ field.toNat then refuse .invalidId s
    else .next (respond .ok ((s.disp.blank[fieldOf field]).setWidth 16) s)

end Sys2Proof.Machine
end

