-- ==== Sys2Proof/Machine/Lamp.lean ====
section
/-! DEFINITION. The lamps (`44_lamp_display.md` parts 1 and 2): LAMPSET, LAMPOFF, FlashQuant, FlashRecompute, LampByte,
LampStep. -/

namespace Sys2Proof.Machine

/-- A lamp's bit in a bank array (`10_state.md` R35). -/
def lampGet (v : Vector Byte 8) (i : Fin 64) : Bool := v[lampBank i].getLsbD (lampBit i)

/-- A bank array with one lamp's bit written (`10_state.md` R35). -/
def lampPut (v : Vector Byte 8) (i : Fin 64) (b : Bool) : Vector Byte 8 :=
  v.set (lampBank i) (setBit v[lampBank i] (lampBit i) b)

/-! ## The flash period -/

/-- `FlashQuant(period)` (`44_lamp_display.md` R193). -/
def flashQuant (c : Config) (period : BitVec 16) : Byte :=
  if period = 0 then 0
  else
    let q := min period.toNat c.flashMaxMs / c.flashGranMs
    if q = 0 then 1 else BitVec.ofNat 8 q

/-- A flashing lamp is lit at time `t` (`44_lamp_display.md` R194): in the first half of each period of absolute time. -/
def flashLit (c : Config) (fp : Byte) (t : Time) : Bool :=
  let p := fp.toNat * c.flashGranMs
  decide (t.toNat % p < p / 2)

/-- One lamp of `FlashRecompute(t)` (`44_lamp_display.md` R194): a steady lamp is not touched. -/
def flashOne (c : Config) (t : Time) (l : Lamps) (i : Fin 64) : Lamps :=
  if l.fp[i] = 0 then l else { l with on := lampPut l.on i (flashLit c l.fp[i] t) }

/-- The lamps in order. -/
def lampIds : List (Fin 64) := List.finRange 64

/-- `FlashRecompute(t)` (`44_lamp_display.md` R194). -/
def flashRecompute (t : Time) (s : State) : State :=
  s.withLamp (lampIds.foldl (flashOne s.cfg t) s.lamp)

/-! ## The multiplex step -/

/-- `LampByte(b)` (`44_lamp_display.md` R195). -/
def lampByte (l : Lamps) (b : Fin 8) : Byte :=
  let full := l.on[b] &&& ~~~l.dim1[b] &&& ~~~l.dim2[b]
  let aux1 := if l.dimc1 = 0 then l.on[b] &&& l.dim1[b] else 0
  let aux2 := if l.dimc2 = 0 then l.on[b] &&& l.dim2[b] else 0
  full ||| aux1 ||| aux2

/-- Steps 1 and 2 of `LampStep()` (`44_lamp_display.md` R200, R199): the bank advances; when it wraps to 0, both dim counters
advance, each modulo its divisor. -/
def lampAdvance (c : Config) (l : Lamps) : Lamps :=
  let b := l.bank + 1
  if b = 0 then
    { l with bank := b, dimc1 := (l.dimc1 + 1) % c.dimDiv1, dimc2 := (l.dimc2 + 1) % c.dimDiv2 }
  else { l with bank := b }

/-- `LampStep()` (`44_lamp_display.md` R200): advance, then the one-hot bank strobe (R198), then the lamp byte. -/
def lampStep (s : State) : Result :=
  let s := s.withLamp (lampAdvance s.cfg s.lamp)
  chain (busWrite s.cfg.addrMap.aLampStrobe (1#8 <<< s.lamp.bank.val) s) fun s =>
    busWrite s.cfg.addrMap.aLampData (lampByte s.lamp s.lamp.bank) s

/-! ## The host commands -/

/-- One lamp turned off (`44_lamp_display.md` R191, `on = 0`): on, dim and flash cleared. -/
def lampClear (i : Fin 64) (l : Lamps) : Lamps :=
  { l with on := lampPut l.on i false, dim1 := lampPut l.dim1 i false, dim2 := lampPut l.dim2 i false, fp := l.fp.set i 0 }

/-- One lamp turned on (`44_lamp_display.md` R191, `on = 1`): dim bits and flash period written; the on bit only of a steady
lamp. -/
def lampLight (c : Config) (i : Fin 64) (dim : BitVec 2) (period : BitVec 16) (l : Lamps) : Lamps :=
  { l with
    dim1 := lampPut l.dim1 i (dim.getLsbD 0)
    dim2 := lampPut l.dim2 i (dim.getLsbD 1)
    fp := l.fp.set i (flashQuant c period)
    on := if period = 0 then lampPut l.on i true else l.on }

/-- LAMPSET id dim on period (`44_lamp_display.md` R191). -/
def execLampset (id : BitVec 8) (dim : BitVec 2) (on : Bool) (period : BitVec 16) (s : State) : Result :=
  served s <|
    if s.cfg.nLamps.value ≤ id.toNat then refuse .invalidId s
    else if on then .next (respond .ok 0 (s.withLamp (lampLight s.cfg (lampOf id) dim period s.lamp)))
    else .next (respond .ok 0 (s.withLamp (lampClear (lampOf id) s.lamp)))

/-- LAMPOFF (`44_lamp_display.md` R192): the bank and the dim counters are not touched. -/
def execLampoff (s : State) : Result :=
  served s <|
    .next <| respond .ok 0 <| s.withLamp
      { s.lamp with
        on := Vector.replicate 8 0, dim1 := Vector.replicate 8 0, dim2 := Vector.replicate 8 0, fp := Vector.replicate 64 0 }

end Sys2Proof.Machine
end

