-- ==== Sys2Proof/Machine/Maintenance.lean ====
section
/-! DEFINITION. Periodic maintenance (`43_output_queues.md` R171, R175): the command UPDATE. -/

namespace Sys2Proof.Machine

/-- `TimedTick(sol.t, now)` (`43_output_queues.md` R171): a due entry is pushed if the queue is enabled or the entry overrides. -/
def timedTickSol (now : Time) (s : State) : State :=
  let r := timedTick s.cfg.solQCap now (fun e => s.sol.en || e.ovr) s.sol.t s.sol.q
  s.withSol { s.sol with t := r.1, q := r.2 }

/-- `TimedTick(snd.t, now)` (`43_output_queues.md` R171). -/
def timedTickSnd (now : Time) (s : State) : State :=
  let r := timedTick s.cfg.sndQCap now (fun _ => true) s.snd.t s.snd.q
  s.withSnd { s.snd with t := r.1, q := r.2 }

/-- UPDATE time (`43_output_queues.md` R175): flash, solenoid table, sound table, in that order; no bus cycle. -/
def execUpdate (time : Time) (s : State) : Result :=
  served s (.next (respond .ok 0 (timedTickSnd time (timedTickSol time (flashRecompute time s)))))

end Sys2Proof.Machine
end

