-- ==== Sys2Proof/Machine/Reserved.lean ====
section
/-! DEFINITION. The six operation codes reserved by name (`30_encoding.md` R86): each answers RESERVED_OP, or BAD_MODE in UNINIT
(R84), and does nothing else. -/

namespace Sys2Proof.Machine

/-- DIAGQ (`30_encoding.md` R86). -/
def execDiagq (s : State) : Result := answerReserved s

/-- DIAGCLR (`30_encoding.md` R86). -/
def execDiagclr (s : State) : Result := answerReserved s

/-- FLIPDIS (`30_encoding.md` R86). -/
def execFlipdis (s : State) : Result := answerReserved s

/-- SNDRANGE (`30_encoding.md` R86). -/
def execSndrange (s : State) : Result := answerReserved s

/-- LAMPFLASHALL (`30_encoding.md` R86). -/
def execLampflashall (s : State) : Result := answerReserved s

/-- DISPCYCLE (`30_encoding.md` R86). -/
def execDispcycle (s : State) : Result := answerReserved s

end Sys2Proof.Machine
end

