-- ==== Sys2Proof/Machine/Solenoid.lean ====
section
/-! DEFINITION. The solenoid commands (`43_output_queues.md`): SOLSPACE, SOLPUSH, SOLPUSHF, SOLSCHED, SOLEN, SOLDIS, SOLCONT. -/

namespace Sys2Proof.Machine

/-- SOLSPACE (`43_output_queues.md` R167). -/
def execSolspace (s : State) : Result :=
  served s (.next (respond .ok (BitVec.ofNat 16 (space s.cfg.solQCap s.sol.q)) s))

/-- SOLPUSH id rep allow (`43_output_queues.md` R164), the tests in the rule's order. -/
def execSolpush (id rep : BitVec 8) (allow : Bool) (s : State) : Result :=
  served s <|
    if s.cfg.contW.value ≤ id.toNat then refuse .invalidId s
    else if !s.sol.en && !allow then refuse .rejectDisabled s
    else
      match push s.cfg.solQCap s.sol.q (solenoidOf id) rep with
      | none => refuse .rejectFull s
      | some q => .next (respond .ok 0 (s.withSol { s.sol with q := q }))

/-- SOLPUSHF id rep (`43_output_queues.md` R165), the tests in the rule's order. -/
def execSolpushf (id rep : BitVec 8) (s : State) : Result :=
  served s <|
    if s.cfg.contW.value ≤ id.toNat then refuse .invalidId s
    else if !s.sol.en then refuse .rejectDisabled s
    else
      match pushFront s.cfg.solQCap s.sol.q (solenoidOf id) rep with
      | none => refuse .rejectFull s
      | some q => .next (respond .ok 0 (s.withSol { s.sol with q := q }))

/-- SOLSCHED id rep ovr time (`43_output_queues.md` R172); `sol.en` is not tested here. -/
def execSolsched (id rep : BitVec 8) (ovr : Bool) (time : Time) (s : State) : Result :=
  served s <|
    if s.cfg.contW.value ≤ id.toNat then refuse .invalidId s
    else
      match schedule { used := true, id := solenoidOf id, rep := rep, fire := time, ovr := ovr } s.sol.t with
      | none => refuse .rejectFull s
      | some t => .next (respond .ok 0 (s.withSol { s.sol with t := t }))

/-- SOLEN (`43_output_queues.md` R176). -/
def execSolen (s : State) : Result :=
  served s (.next (respond .ok 0 (s.withSol { s.sol with en := true })))

/-- SOLDIS (`43_output_queues.md` R177). -/
def execSoldis (s : State) : Result :=
  served s (.next (respond .ok 0 (s.withSol { s.sol with en := false })))

/-- SOLCONT id on (`43_output_queues.md` R178). -/
def execSolcont (id : BitVec 8) (on : Bool) (s : State) : Result :=
  served s <|
    if s.cfg.contW.value ≤ id.toNat then refuse .invalidId s
    else .next (respond .ok 0 (s.withSol { s.sol with cont := setBit s.sol.cont (solenoidOf id).toNat on }))

end Sys2Proof.Machine
end

