-- ==== Sys2Proof/Machine/Sound.lean ====
section
/-! DEFINITION. The sound commands (`43_output_queues.md`): SNDSPACE, SNDPUSH, SNDSCHED. -/

namespace Sys2Proof.Machine

/-- SNDSPACE (`43_output_queues.md` R168). -/
def execSndspace (s : State) : Result :=
  served s (.next (respond .ok (BitVec.ofNat 16 (space s.cfg.sndQCap s.snd.q)) s))

/-- SNDPUSH id rep (`43_output_queues.md` R166): every code is legal, there is no enable flag. -/
def execSndpush (id rep : BitVec 8) (s : State) : Result :=
  served s <|
    match push s.cfg.sndQCap s.snd.q id rep with
    | none => refuse .rejectFull s
    | some q => .next (respond .ok 0 (s.withSnd { s.snd with q := q }))

/-- SNDSCHED id rep ovr time (`43_output_queues.md` R173): the override bit is stored and never used. -/
def execSndsched (id rep : BitVec 8) (ovr : Bool) (time : Time) (s : State) : Result :=
  served s <|
    match schedule { used := true, id := id, rep := rep, fire := time, ovr := ovr } s.snd.t with
    | none => refuse .rejectFull s
    | some t => .next (respond .ok 0 (s.withSnd { s.snd with t := t }))

end Sys2Proof.Machine
end

