-- ==== Sys2Proof/Machine/Startup.lean ====
section
/-! DEFINITION. Peripheral configuration and start-up (`41_peripheral_config.md`): PeriphInit, ClearAllState, passthrough and
the command INIT. -/

namespace Sys2Proof.Machine

/-- `PeriphInit()` (`41_peripheral_config.md` R130): the writes of INIT_SEQ in list order. -/
def periphInit (s : State) : Result := writeAll s.cfg.initSeq s

/-- A timed table of `cap` slots, every slot free; the other fields of a slot keep their stale values (`10_state.md` R31, R42;
log 18). -/
def clearTable {w : Nat} (cap : Nat) (t : List (TimedEntry w)) : List (TimedEntry w) :=
  (List.range cap).map fun i => { t.getD i (TimedEntry.blankSlot w) with used := false }

/-- The display buffers after INIT (`10_state.md` R42): W(f) digit codes 0 in each field, everything blanked, slot 0. -/
def clearedDisplays (c : Config) : Displays where
  digit :=
    #v[List.replicate (c.fieldWidth 0) 0, List.replicate (c.fieldWidth 1) 0, List.replicate (c.fieldWidth 2) 0,
      List.replicate (c.fieldWidth 3) 0, List.replicate (c.fieldWidth 4) 0, List.replicate (c.fieldWidth 5) 0]
  blank := Vector.replicate 6 0
  slot := 0

/-- The lamps after INIT (`10_state.md` R42). -/
def clearedLamps : Lamps where
  on := Vector.replicate 8 0
  dim1 := Vector.replicate 8 0
  dim2 := Vector.replicate 8 0
  fp := Vector.replicate 64 0
  bank := 0
  dimc1 := 0
  dimc2 := 0

/-- The switch matrix after INIT (`10_state.md` R42): all open, no event, the diagnostic line released. -/
def clearedSwitches : Switches where
  now := Vector.replicate 8 0
  prev := Vector.replicate 8 0
  ago := Vector.replicate 8 0
  q := []
  diagHold := 0

/-- The bus engine's part of `ClearAllState()`: IDLE, the line registers idle (`10_state.md` R42, `41_peripheral_config.md`
R136). `bus.k`, `bus.addr`, `bus.wdata`, `bus.rw`, `bus.rdata` and `pin.DATA_Q` keep stale values no rule reads. -/
def clearedBus (e : BusEngine) : BusEngine :=
  { e with st := .idle, pin := { e.pin with addrQ := 0, dataOE := false, we := false, stb := false } }

/-- `ClearAllState()` (`41_peripheral_config.md` R136): every element as the "after INIT" column of `10_state.md` R42 has it, but
`sys.mode`, `pin.BUS_OE` and `pin.HALT_LEGACY`. -/
def clearAllState (s : State) : State :=
  { s with
    bus := clearedBus s.bus
    sch := { phase := false, tickPend := false }
    sw := clearedSwitches
    sol :=
      { q := [], t := clearTable s.cfg.solTimedCap s.sol.t, en := s.cfg.solEnReset, firing := false, cont := 0 }
    snd := { q := [], t := clearTable s.cfg.sndTimedCap s.snd.t }
    lamp := clearedLamps
    disp := clearedDisplays s.cfg }

/-- Hold or release the legacy processor (`10_state.md` R24). -/
def setHaltLegacy (v : Bool) (s : State) : State :=
  s.withBus { s.bus with pin := { s.bus.pin with haltLegacy := v } }

/-- Take the bus (`41_peripheral_config.md` R132 step 5). -/
def ownBus (s : State) : State :=
  s.withBus { s.bus with pin := { s.bus.pin with busOE := true } }

/-- Every bus line floats (`41_peripheral_config.md` R133 step 1). -/
def floatBus (s : State) : State :=
  s.withBus { s.bus with pin := { s.bus.pin with busOE := false, dataOE := false } }

/-- Passthrough (`41_peripheral_config.md` R133): the bus floats, then the legacy processor is released, then HALTED. -/
def passthrough (s : State) : Result :=
  .next (respond .halted 0 ((setHaltLegacy false (floatBus s)).withMode .halted))

/-- INIT credit (`41_peripheral_config.md` R132), steps in order; the credit operand is ignored (R135). -/
def execInit (_credit : BitVec 8) (s : State) : Result :=
  if s.mode ≠ .uninit then refuse .badMode s
  else
    let s := setHaltLegacy true s
    if s.inp.bootOrigReq then passthrough s
    else chain (periphInit (ownBus (clearAllState s))) fun s => .next (respond .ok 0 (s.withMode .run))

end Sys2Proof.Machine
end

