-- ==== Sys2Proof/Machine/Switch.lean ====
section
/-! DEFINITION. The switch matrix and the diagnostic line (`42_switch_matrix.md`): SwitchScan, Enqueue, DiagStep and the
commands SWPULL, SWPEEK, SWISQ. -/

namespace Sys2Proof.Machine

/-- The columns in scan order (`42_switch_matrix.md` R142). -/
def columns (c : Config) : List (Fin 8) := (List.range c.nCols.value).map (Fin.ofNat 8)

/-- The rows in enqueue order (`42_switch_matrix.md` R142). -/
def rows (c : Config) : List Nat := List.range c.nRows.value

/-- `Enqueue(id)` on a queue of the given capacity (`42_switch_matrix.md` R145): dropped without a trace when full. -/
def enqueueInto (cap : Nat) (q : List SwitchId) (id : SwitchId) : List SwitchId :=
  if q.length < cap then q ++ [id] else q

/-- `Enqueue(id)` (`42_switch_matrix.md` R145). -/
def enqueue (id : SwitchId) (s : State) : State :=
  s.withSw { s.sw with q := enqueueInto s.cfg.swQCap s.sw.q id }

/-! ## The scan pass -/

/-- The history shift of one column (`42_switch_matrix.md` R142 step 1d, R143). -/
def shiftColumn (c : Fin 8) (v : Byte) (w : Switches) : Switches :=
  { w with ago := w.ago.set c w.prev[c], prev := w.prev.set c w.now[c], now := w.now.set c v }

/-- One column of a scan pass (`42_switch_matrix.md` R142 step 1): strobe, settle (no state, log 20), read, shift. -/
def scanColumn (c : Fin 8) (s : State) : Result :=
  chain (busWrite s.cfg.addrMap.aSwStrobe (1#8 <<< c.val) s) fun s =>
    chain (busRead s.cfg.addrMap.aSwReturn s) fun s =>
      .next (s.withSw (shiftColumn c s.bus.rdata s.sw))

/-- `now AND previous AND NOT two_ago` of a column (`42_switch_matrix.md` R142 step 2, R144). -/
def closureByte (w : Switches) (c : Fin 8) : Byte := w.now[c] &&& w.prev[c] &&& ~~~w.ago[c]

/-- The closures of a pass in ascending column, then ascending row (`42_switch_matrix.md` R146). -/
def closures (cfg : Config) (w : Switches) : List SwitchId :=
  (columns cfg).flatMap fun c => ((rows cfg).filter fun r => (closureByte w c).getLsbD r).map (switchId c)

/-- Step 2 of `SwitchScan()` (`42_switch_matrix.md` R142). -/
def enqueueClosures (s : State) : State :=
  s.withSw { s.sw with q := (closures s.cfg s.sw).foldl (enqueueInto s.cfg.swQCap) s.sw.q }

/-- `SwitchScan()` (`42_switch_matrix.md` R142). -/
def switchScan (s : State) : Result :=
  chain (forEach scanColumn (columns s.cfg) s) fun s => .next (enqueueClosures s)

/-! ## The diagnostic line -/

/-- The diagnostic line is active in a status byte (`42_switch_matrix.md` R147 step 2). -/
def diagActive (c : Config) (v : Byte) : Bool := v &&& c.diagStatusMask != 0

/-- Step 3 of `DiagStep()` on the byte read (`42_switch_matrix.md` R147, R148). -/
def diagSample (v : Byte) (s : State) : State :=
  if diagActive s.cfg v then
    let s := if s.sw.diagHold = 0 ∧ diagSwitchId ∉ s.sw.q then enqueue diagSwitchId s else s
    s.withSw { s.sw with diagHold := s.cfg.diagReleaseTicks }
  else if 0 < s.sw.diagHold then s.withSw { s.sw with diagHold := s.sw.diagHold - 1 }
  else s

/-- `DiagStep()` (`42_switch_matrix.md` R147). -/
def diagStep (s : State) : Result :=
  chain (busRead s.cfg.addrMap.aDiagStatus s) fun s => .next (diagSample s.bus.rdata s)

/-! ## The host commands -/

/-- SWPULL (`42_switch_matrix.md` R150). -/
def execSwpull (s : State) : Result :=
  served s <|
    match pull s.sw.q with
    | (none, _) => refuse .empty s
    | (some id, q) => .next (respond .ok (id.setWidth 16) (s.withSw { s.sw with q := q }))

/-- SWPEEK id (`42_switch_matrix.md` R151): the newest stored sample, no bus cycle. -/
def execSwpeek (id : BitVec 8) (s : State) : Result :=
  served s <|
    if s.cfg.nSwitches.value ≤ id.toNat then refuse .invalidId s
    else .next (respond .ok (boolData (s.sw.now[switchColumn id].getLsbD (switchRow id))) s)

/-- SWISQ id (`42_switch_matrix.md` R152). -/
def execSwisq (id : BitVec 8) (s : State) : Result :=
  served s <|
    if s.cfg.nSwitches.value < id.toNat then refuse .invalidId s
    else .next (respond .ok (boolData (decide (queuedId id ∈ s.sw.q))) s)

end Sys2Proof.Machine
end

