-- ==== Sys2Proof/Machine/Dispatch.lean ====
section
/-! DEFINITION. exec: one arm per command, each one call of its meaning. -/

namespace Sys2Proof.Machine

/-- The meaning of an accepted command. -/
def exec (i : Instr) (s : State) : Host.Outcome State Fault Refusal :=
  match i with
  | .init credit => Sys2Proof.Machine.execInit credit s
  | .buswr addr data => Sys2Proof.Machine.execBuswr addr data s
  | .busrd addr => Sys2Proof.Machine.execBusrd addr s
  | .swpull => Sys2Proof.Machine.execSwpull s
  | .swpeek id => Sys2Proof.Machine.execSwpeek id s
  | .swisq id => Sys2Proof.Machine.execSwisq id s
  | .solspace => Sys2Proof.Machine.execSolspace s
  | .solpush id rep allow => Sys2Proof.Machine.execSolpush id rep allow s
  | .solpushf id rep => Sys2Proof.Machine.execSolpushf id rep s
  | .solsched id rep ovr time => Sys2Proof.Machine.execSolsched id rep ovr time s
  | .solen => Sys2Proof.Machine.execSolen s
  | .soldis => Sys2Proof.Machine.execSoldis s
  | .solcont id on => Sys2Proof.Machine.execSolcont id on s
  | .sndspace => Sys2Proof.Machine.execSndspace s
  | .sndpush id rep => Sys2Proof.Machine.execSndpush id rep s
  | .sndsched id rep ovr time => Sys2Proof.Machine.execSndsched id rep ovr time s
  | .update time => Sys2Proof.Machine.execUpdate time s
  | .lampset id dim on period => Sys2Proof.Machine.execLampset id dim on period s
  | .lampoff => Sys2Proof.Machine.execLampoff s
  | .dispval field min blz value => Sys2Proof.Machine.execDispval field min blz value s
  | .dispblank field mask => Sys2Proof.Machine.execDispblank field mask s
  | .dispgetb field => Sys2Proof.Machine.execDispgetb field s
  | .diagq => Sys2Proof.Machine.execDiagq s
  | .diagclr => Sys2Proof.Machine.execDiagclr s
  | .flipdis => Sys2Proof.Machine.execFlipdis s
  | .sndrange => Sys2Proof.Machine.execSndrange s
  | .lampflashall => Sys2Proof.Machine.execLampflashall s
  | .dispcycle => Sys2Proof.Machine.execDispcycle s

end Sys2Proof.Machine
end

