-- ==== Sys2Proof/Machine/Scheduler.lean ====
section
/-! DEFINITION. The interrupt scheduler (`45_interrupt_scheduler.md`): the two phases, the tick handler, and the arbiter between
the tick and a waiting command (R220; `00_scope.md` R11; `30_encoding.md` R88). -/

namespace Sys2Proof.Machine

/-- `InputPhase()` (`45_interrupt_scheduler.md` R222). -/
def inputPhase (s : State) : Result :=
  chain (diagStep s) fun s => chain (displayStep s) fun s => chain (lampStep s) fun s => switchScan s

/-! ## The output phase -/

/-- `SOUND_BITS(c)` (`45_interrupt_scheduler.md` R226): the configured value, or the default `zext_16(c) << 8`. -/
def soundWord (c : Config) (code : SoundCode) : BitVec 16 :=
  match c.soundBits.find? fun x => x.1 == code with
  | some x => x.2
  | none => code.setWidth 16 <<< 8

/-- The bit of the pulled slot in the output word, if it is driven (`45_interrupt_scheduler.md` R223 step 5). -/
def solenoidWord (c : Config) (en : Bool) : Option SolId → BitVec 16
  | none => 0
  | some e => if en || !c.disableSuppressesOutput then 1#16 <<< e.toNat else 0

/-- The bits of the pulled sound code, if one was pulled (`45_interrupt_scheduler.md` R223 step 7). -/
def soundPart (c : Config) : Option SoundCode → BitVec 16
  | none => 0
  | some code => soundWord c code

/-- The output word (`45_interrupt_scheduler.md` R223 steps 1, 5, 7, R224) of the slots pulled. -/
def outputWord (s : State) (e : Option SolId) (c : Option SoundCode) : BitVec 16 :=
  s.sol.cont ||| solenoidWord s.cfg s.sol.en e ||| soundPart s.cfg c

/-- The two writes of step 8 (`45_interrupt_scheduler.md` R223, `20_memory.md` R65): low byte first, then the byte from bit DATA_W
on. -/
def writeSolenoidPair (out : BitVec 16) (s : State) : Result :=
  chain (busWrite s.cfg.addrMap.aSolA (out.extractLsb' 0 8) s) fun s =>
    busWrite s.cfg.addrMap.aSolB (out.extractLsb' s.cfg.dataW.value 8) s

/-- `OutputPhase()` (`45_interrupt_scheduler.md` R223), steps in order: pull a solenoid slot; the enter sequence when firing
begins; pull a sound; the output word; the exit sequence when firing ends; `sol.firing`. -/
def outputPhase (s : State) : Result :=
  let e := pull s.sol.q
  let was := s.sol.firing
  let firing := e.1.isSome
  chain (writeAll (if firing && !was then s.cfg.interlockEnterSeq else []) (s.withSol { s.sol with q := e.2 })) fun s =>
    let c := pull s.snd.q
    chain (writeSolenoidPair (outputWord s e.1 c.1) (s.withSnd { s.snd with q := c.2 })) fun s =>
      chain (writeAll (if !firing && was then s.cfg.interlockExitSeq else []) s) fun s =>
        .next (s.withSol { s.sol with firing := firing })

/-! ## The handler -/

/-- The tick handler (`45_interrupt_scheduler.md` R221): the phase `sch.phase` names, then the phase is inverted. -/
def tickHandler (s : State) : Result :=
  chain (if s.sch.phase then outputPhase s else inputPhase s) fun s => .next (returnFromTick s)

/-! ## The arbiter -/

/-- What the block does next. -/
inductive Choice where
  | tick
  | command (w : CmdWord)
  | idle
  deriving DecidableEq, Repr

/-- `cmd_ready` between two operations (`30_encoding.md` R88): no tick pending, and not HALTED. -/
def cmdReady (s : State) : Bool := !s.sch.tickPend && decide (s.mode ≠ .halted)

/-- A handler invocation starts (`45_interrupt_scheduler.md` R220): a tick is pending, and the tick is enabled, that is the mode is
RUN (`60_exceptions.md` R246; log 15). -/
def tickReady (s : State) : Bool := s.sch.tickPend && decide (s.mode = .run)

/-- The arbiter (`60_exceptions.md` R247): a pending tick goes before a waiting command. -/
def arbitrate (s : State) : Choice :=
  if tickReady s then .tick
  else if cmdReady s then
    match s.port.cmds with
    | [] => .idle
    | w :: _ => .command w
  else .idle

/-- The TICK pulses of the step in hand (log 10). -/
def tickSample (s : State) : TickSample := s.inp.ticks.headD { before := 0, during := 0 }

/-- What happens before the arbiter chooses: `rsp_valid` was up for its one cycle (`30_encoding.md` R88), and the pulses that
have come in are latched (`45_interrupt_scheduler.md` R220). -/
def beginStep (s : State) : State :=
  tickPulses (tickSample s).before (s.withPort { s.port with rspValid := false })

/-- The pulses that arrive while an operation is in progress meet the mode the operation began in: during INIT they are ignored
(`41_peripheral_config.md` R132, `45_interrupt_scheduler.md` R220). Then the step's sample is past. -/
def endStep (began : Mode) (n : Nat) (s : State) : State :=
  let s := if began = .run then tickPulses n s else s
  s.withInp { s.inp with ticks := s.inp.ticks.tail }

/-- A command is accepted (`30_encoding.md` R88): it leaves the port. -/
def acceptCommand (s : State) : State := s.withPort { s.port with cmds := s.port.cmds.tail }

end Sys2Proof.Machine
end

