-- ==== Sys2Proof/Machine/Step.lean ====
section
/-! DEFINITION. One step of the block: one command, one handler invocation, or one idle arbitration (`00_scope.md` R11; log 5). -/

namespace Sys2Proof.Machine

/-- The word on the command port runs: the command it decodes to, or the answer to a reserved operation code
(`30_encoding.md` R86; log 16). -/
def runCommand (w : CmdWord) (s : State) : Result :=
  match decode w with
  | .ok i => exec i s
  | .error _ => answerReserved s

/-- What the arbiter chose runs to its end. -/
def perform (c : Choice) (s : State) : Result :=
  match c with
  | .tick => tickHandler (takeTick s)
  | .command w => runCommand w (acceptCommand s)
  | .idle => .next s

/-- One step. An illegal configuration is refused (log 4). -/
def step (s : State) : Host.Outcome State Fault Refusal :=
  if s.cfg.legal then
    chain (perform (arbitrate (beginStep s)) (beginStep s)) fun t => .next (endStep s.mode (tickSample s).during t)
  else .refused .illegalConfig

/-- `s` with the host offering the given command word next: it stands at the head of the port, and nothing holds `cmd_ready`
down (no tick pending, none arriving first). In HALTED no command is ever accepted, and this changes nothing about that. -/
def State.withFetchWord (s : State) (nbits w : Nat) : State :=
  { s with
    port := { s.port with cmds := BitVec.ofNat 64 (w % 2 ^ nbits) :: s.port.cmds }
    sch := { s.sch with tickPend := false }
    inp := { s.inp with ticks := s.inp.ticks.modifyHead fun t => { t with before := 0 } } }

end Sys2Proof.Machine
end

