-- ==== Sys2Proof/Safety.lean ====
section
/-! DEFINITION. The terms the claims use: the quiet bus, what a run of bus cycles has done, the state after INIT, the
invariants of a safe run, and a run of pushes and pulls. -/

namespace Sys2Proof.Machine

/-! ## Answers -/

/-- `s` with the response word `r` given and nothing else changed (`30_encoding.md` R82). -/
def answered (s : State) (r : RspWord) : State :=
  { s with port := { s.port with rspValid := true, rsp := r } }

/-- The status field of the response word, `rsp[31:28]`. -/
def rspStatus (s : State) : BitVec 4 := s.port.rsp.extractLsb' 28 4

/-- The data field of the response word, `rsp[15:0]`. -/
def rspData (s : State) : BitVec 16 := s.port.rsp.extractLsb' 0 16

/-- The bits of a command word that its operation code uses (`30_encoding.md` R85, R87); the six reserved by name and every
other reserved code use `op` alone. -/
def usedBits (op : BitVec 8) : CmdWord :=
  match op.toNat with
  | 0x01 => 0xFFFF000000000000
  | 0x10 => 0xFF000000FFFF00FF
  | 0x11 => 0xFF000000FFFF0000
  | 0x21 => 0xFFFF000000000000
  | 0x22 => 0xFFFF000000000000
  | 0x31 => 0xFFFFFF0100000000
  | 0x32 => 0xFFFFFF0000000000
  | 0x33 => 0xFFFFFF01FFFFFFFF
  | 0x36 => 0xFFFF000100000000
  | 0x39 => 0xFFFFFF0000000000
  | 0x3B => 0xFFFFFF01FFFFFFFF
  | 0x3F => 0xFF000000FFFFFFFF
  | 0x40 => 0xFFFF03010000FFFF
  | 0x48 => 0xFFFFFF01FFFFFFFF
  | 0x49 => 0xFFFF0000000000FF
  | 0x4A => 0xFFFF000000000000
  | _ => 0xFF00000000000000

/-! ## The bus -/

/-- The idle state of the lines (`10_state.md` R24, `40_bus_engine.md` R109). -/
structure PinsIdle (p : Pins) : Prop where
  addrQ : p.addrQ = 0
  dataOE : p.dataOE = false
  we : p.we = false
  stb : p.stb = false

/-- Outside a bus cycle: `bus.st` is IDLE and the lines are idle (`10_state.md` R23, R24). -/
structure BusQuiet (e : BusEngine) : Prop where
  st : e.st = .idle
  pin : PinsIdle e.pin

/-- `e'` is the engine `e` after the bus cycles `evs`, in order: the history has gained exactly those events, the ownership
pins and the kind of clock are as they were, and a quiet engine is quiet again. -/
structure Performed (evs : List BusEvent) (e e' : BusEngine) : Prop where
  hist : e'.hist = e.hist ++ evs
  busOE : e'.pin.busOE = e.pin.busOE
  haltLegacy : e'.pin.haltLegacy = e.pin.haltLegacy
  running : e'.clk.running = e.clk.running
  quiet : BusQuiet e → BusQuiet e'

/-- The write events of a list of (address, byte) pairs. -/
def writesOf (l : List (Addr × Byte)) : List BusEvent := l.map fun x => .write x.1 x.2

/-- `STB` is 1 only in the STROBE phase (`40_bus_engine.md` R104, R107). -/
def StrobePhaseOnly (e : BusEngine) : Prop := e.pin.stb = true → e.st = .strobe

/-- `n` engine steps with no request (`40_bus_engine.md` R103). -/
def engineSteps (seq : List Bool) : Nat → BusEngine → BusEngine
  | 0, e => e
  | n + 1, e => engineSteps seq n (engineStep seq none e)

/-- The next `n` levels the engine samples, and the clock after them. -/
def clockLevels : Nat → Clock → List Bool × Clock
  | 0, c => ([], c)
  | n + 1, c =>
    let r := clockLevels n (clockSample c).2
    ((clockSample c).1 :: r.1, r.2)

/-! ## After INIT -/

/-- The "after INIT" column of `10_state.md` R42 for mode RUN, but the history and the stale registers; and what INIT does not
write. -/
structure AfterInit (s t : State) : Prop where
  cfg : t.cfg = s.cfg
  mode : t.mode = .run
  busOE : t.bus.pin.busOE = true
  haltLegacy : t.bus.pin.haltLegacy = true
  quiet : BusQuiet t.bus
  sch : t.sch = { phase := false, tickPend := false }
  sw : t.sw = { now := Vector.replicate 8 0, prev := Vector.replicate 8 0, ago := Vector.replicate 8 0, q := [], diagHold := 0 }
  solQ : t.sol.q = []
  solT : t.sol.t.length = s.cfg.solTimedCap ∧ ∀ e ∈ t.sol.t, e.used = false
  solEn : t.sol.en = s.cfg.solEnReset
  solFiring : t.sol.firing = false
  solCont : t.sol.cont = 0
  sndQ : t.snd.q = []
  sndT : t.snd.t.length = s.cfg.sndTimedCap ∧ ∀ e ∈ t.snd.t, e.used = false
  lamp : t.lamp = { on := Vector.replicate 8 0, dim1 := Vector.replicate 8 0, dim2 := Vector.replicate 8 0,
                    fp := Vector.replicate 64 0, bank := 0, dimc1 := 0, dimc2 := 0 }
  digit : ∀ f : Fin 6, t.disp.digit[f] = List.replicate (s.cfg.fieldWidth f.val) 0
  blank : ∀ f : Fin 6, t.disp.blank[f] = 0
  slot : t.disp.slot = 0
  inp : t.inp = s.inp
  cmds : t.port.cmds = s.port.cmds

/-! ## The invariants of a safe run -/

/-- No queue is longer than its capacity, and every timed table has its slots (`10_state.md` R27, R29, R30, R31). -/
structure QueuesBounded (s : State) : Prop where
  swQ : s.sw.q.length ≤ s.cfg.swQCap
  solQ : s.sol.q.length ≤ s.cfg.solQCap
  sndQ : s.snd.q.length ≤ s.cfg.sndQCap
  solT : s.sol.t.length = s.cfg.solTimedCap
  sndT : s.snd.t.length = s.cfg.sndTimedCap

/-- The counters stay in the ranges `10_state.md` R28 and R36 give them. -/
structure CountersInRange (s : State) : Prop where
  diagHold : s.sw.diagHold ≤ s.cfg.diagReleaseTicks
  dimc1 : s.lamp.dimc1 < s.cfg.dimDiv1
  dimc2 : s.lamp.dimc2 < s.cfg.dimDiv2

/-- Each field has `W(f)` digit codes, each a value 0 to 9, and no mask bit at or above `W(f)` (`10_state.md` R37,
`44_lamp_display.md` R201). -/
structure DisplaysFit (s : State) : Prop where
  width : ∀ f : Fin 6, s.disp.digit[f].length = s.cfg.fieldWidth f.val
  digit : ∀ f : Fin 6, ∀ d ∈ s.disp.digit[f], d.toNat ≤ 9
  blank : ∀ f : Fin 6, ∀ p, s.cfg.fieldWidth f.val ≤ p → s.disp.blank[f].getLsbD p = false

/-- Between two steps the bus is quiet; the block drives it, and holds the legacy processor, exactly in RUN; a tick is pending
only in RUN (`20_memory.md` R74, `60_exceptions.md` R246, R255, `40_bus_engine.md` R109). -/
structure BusOwned (s : State) : Prop where
  quiet : BusQuiet s.bus
  busOE : s.bus.pin.busOE = decide (s.mode = .run)
  haltLegacy : s.bus.pin.haltLegacy = decide (s.mode = .run)
  tickPend : s.sch.tickPend = true → s.mode = .run

/-- The diagnostic identifier is in `sw.q` at most once, and every entry is an identifier 0 to 64 (`10_state.md` R27,
`42_switch_matrix.md` R148). -/
structure DiagOnce (s : State) : Prop where
  once : s.sw.q.count diagSwitchId ≤ 1
  range : ∀ id ∈ s.sw.q, id.toNat ≤ 64

/-! ## Pushes and pulls -/

/-- One operation on a bounded queue (`43_output_queues.md` R162, R163). -/
inductive QueueOp (α : Type) where
  | push (id : α) (n : BitVec 8)
  | pull
  deriving DecidableEq, Repr

/-- A sequence of operations on a queue of the given capacity: what the pulls returned, in order; what the accepted pushes put
in, in order; and the queue at the end. -/
def runQueue {α : Type} (cap : Nat) : List (QueueOp α) → List α → List α × List α × List α
  | [], q => ([], [], q)
  | .push id n :: ops, q =>
    match push cap q id n with
    | some q' =>
      let r := runQueue cap ops q'
      (r.1, List.replicate n.toNat id ++ r.2.1, r.2.2)
    | none => runQueue cap ops q
  | .pull :: ops, q =>
    match pull q with
    | (some id, q') =>
      let r := runQueue cap ops q'
      (id :: r.1, r.2.1, r.2.2)
    | (none, q') => runQueue cap ops q'

/-! ## The two revisions -/

/-- `s` on the other hardware revision (`40_bus_engine.md` R110). -/
def onRevision (r : HwRev) (s : State) : State := { s with cfg := { s.cfg with hwRev := r } }

/-- An outcome on the other hardware revision. -/
def outcomeOnRevision (r : HwRev) : Result → Result
  | .next s => .next (onRevision r s)
  | .fault x => .fault x
  | .refused x => .refused x

end Sys2Proof.Machine
end

