-- ==== Sys2Proof/Certificates/Slice0/Obligations.lean ====
section
/-! DEFINITION. The statements for the provers. Each formalises rules of spec/ named in its docstring. A statement quantifies over
every configuration the state may hold (log 1) unless it asks for a legal one. `answered s r` is `s` with the response word
`r` given and nothing else changed: it carries the frame of a command. -/

open Sys2Proof Sys2Proof.Machine

/-! ## Encoding -/

/-- Decode and encode agree for every command and every operand value (`30_encoding.md` R80, R81, R85). -/
def Obligations.DecodeOfEncodeIsIdentity : Prop := ∀ i : Instr, decode (encode i) = .ok i

/-- A decoded command's operation code is the top byte of the word, and a word with the same top byte decodes to a command with
the same operation code (`30_encoding.md` R85). -/
def Obligations.OpcodeByteAloneSelects : Prop :=
  ∀ w i, decode w = .ok i →
    w &&& 0xFF00000000000000 = i.opcode.setWidth 64 <<< 56 ∧
      ∀ w', w' &&& 0xFF00000000000000 = w &&& 0xFF00000000000000 → ∃ i', decode w' = .ok i' ∧ i'.opcode = i.opcode

/-- Two words that agree on the bits their operation code uses decode alike: the ignored bits have no effect
(`30_encoding.md` R87). -/
def Obligations.IgnoredBitsHaveNoEffect : Prop :=
  ∀ w w', w &&& usedBits (fieldOp w) = w' &&& usedBits (fieldOp w) → decode w = decode w'

/-- A few of the words the spec writes out decode to the commands it says (`43_output_queues.md` R164, `40_bus_engine.md` R112,
`44_lamp_display.md` R202, `95_test_vectors.md` V8). The last clause is the model's choice (log 16): a word whose operation code is
reserved without a name, as in V5, is no command, and the decoder rejects it. -/
def Obligations.SpecWordsDecodeAsWritten : Prop :=
  decode 0x3105030000000000 = .ok (.solpush 5 3 false) ∧
    decode 0x10000000200100FF = .ok (.buswr 0x2001 0xFF) ∧
    decode 0x48000201000004D2 = .ok (.dispval 0 2 true 1234) ∧
    decode 0x400AFDFFABCD0000 = .ok (.lampset 10 1 true 0) ∧
    decode 0xFFFFFFFFFFFFFFFF = .error (.reservedOpcode 0xFF)

/-! ## The step -/

/-- A step with no tick in the way runs the command the offered word decodes to, and the command leaves the port
(`30_encoding.md` R88, `00_scope.md` R11). Pulses before the choice stand in the way in RUN only: in UNINIT they are ignored and
the command, INIT too, runs (`45_interrupt_scheduler.md` R220). Two clauses are the model's choice: `rsp_valid` of the command before stands for one
step and is down again (log 11); and the TICK pulses that come in during the command meet the mode in which it began, so they
are latched if that is RUN and ignored otherwise, those during INIT too (log 10, after `45_interrupt_scheduler.md` R220 and
`41_peripheral_config.md` R132). -/
def Obligations.StepRunsTheDecodedCommand : Prop :=
  ∀ s w rest i, s.cfg.legal = true → s.mode ≠ .halted → s.sch.tickPend = false →
    (s.mode = .run → (tickSample s).before = 0) →
    s.port.cmds = w :: rest → decode w = .ok i →
    step s = chain (exec i { s with port := { s.port with cmds := rest, rspValid := false } })
      fun t => .next (endStep s.mode (tickSample s).during t)

/-- A step whose offered word has an operation code reserved without a name answers RESERVED_OP, or BAD_MODE in UNINIT, and
changes nothing else (`30_encoding.md` R84, R86); pulses before the choice stand in the way in RUN only
(`45_interrupt_scheduler.md` R220). The model's choices: such a word is no instruction (log 16); `rsp_valid` stands for one step
(log 11); pulses during the step meet the mode in which it began (log 10). -/
def Obligations.ReservedOpcodeIsAnswered : Prop :=
  ∀ s w rest x, s.cfg.legal = true → s.mode ≠ .halted → s.sch.tickPend = false →
    (s.mode = .run → (tickSample s).before = 0) →
    s.port.cmds = w :: rest → decode w = .error x →
    step s = .next (endStep s.mode (tickSample s).during
      (answered { s with port := { s.port with cmds := rest, rspValid := false } }
        (if s.mode = .uninit then 0x60000000 else 0x50000000)))

/-- In RUN a tick that is pending, or arrives before the arbiter chooses, is served before a waiting command: the handler runs
with the pending bit cleared, and the commands on the port wait (`45_interrupt_scheduler.md` R220, `60_exceptions.md` R247). When
the pulses of a step arrive is log 10, that `rsp_valid` stands for one step is log 11: the model's choices. -/
def Obligations.PendingTickRunsBeforeWaitingCommand : Prop :=
  ∀ s, s.cfg.legal = true → s.mode = .run → (s.sch.tickPend = true ∨ 0 < (tickSample s).before) →
    step s = chain (tickHandler
        { s with sch := { s.sch with tickPend := false }, port := { s.port with rspValid := false } })
      (fun t => .next (endStep .run (tickSample s).during t)) ∧
      ∀ t, step s = .next t → t.port.cmds = s.port.cmds

/-- Any number of TICK pulses in RUN sets the one pending bit and does nothing else; in UNINIT and HALTED pulses do nothing
(`45_interrupt_scheduler.md` R220). -/
def Obligations.TickLatchIsOneDeep : Prop :=
  ∀ n s, tickPulses n s =
    if s.mode = .run ∧ 0 < n then { s with sch := { s.sch with tickPend := true } } else s

/-- In HALTED, for every number of steps, whatever commands are offered and whatever ticks come, nothing changes but that
`rsp_valid` is down and the tick samples pass (`41_peripheral_config.md` R133, U9). In UNINIT and in RUN a step with no tick
pending or arriving first and no command offered holds all state: `rsp_valid` is down, the tick sample passes, and in RUN a pulse
that arrives in the step is pending after it (`60_exceptions.md` R257, `45_interrupt_scheduler.md` R220). The model's choices: the
self-loop (log 14), the tick samples (log 10), the one step of `rsp_valid` (log 11). -/
def Obligations.HaltedOrIdleBlockHoldsItsState : Prop :=
  (∀ n s, s.cfg.legal = true → s.mode = .halted →
    Host.Core.run core (n + 1) s =
      .next { s with port := { s.port with rspValid := false }, inp := { s.inp with ticks := s.inp.ticks.drop (n + 1) } }) ∧
    ∀ s, s.cfg.legal = true → s.mode ≠ .halted → s.sch.tickPend = false → s.port.cmds = [] →
      (s.mode = .run → (tickSample s).before = 0) →
      step s = .next
        { s with
          sch := { s.sch with tickPend := decide (s.mode = .run ∧ 0 < (tickSample s).during) }
          port := { s.port with rspValid := false }
          inp := { s.inp with ticks := s.inp.ticks.tail } }

/-- A step is refused, by the name `illegalConfig`, exactly when the configuration breaks one of the conditions of the `refuse`
rows of `93_implementation_defined.md`: a capacity is 1 to 65,535 (U13); STROBE_WAIT_SEQ is `[1, 0, 1]` or `[1, 0]` (U11); the
dim divisors are at least 1, FLASH_GRAN_MS is even and at least 2, FLASH_MAX_MS is a multiple of it and at most 255 times it
(U14); DISPLAY_DIGITS is 1 to 8, SLOT_TABLE has 16 rows of 4 lanes and every reference is to a position inside its field (U15);
the encoding is BCD (U6); the held-credit-button test is off (U7). That the step is what refuses, and that the shape of
SLOT_TABLE is part of the condition, is log 4. -/
def Obligations.IllegalConfigurationIsRefused : Prop :=
  ∀ s, step s = .refused .illegalConfig ↔
    ¬ ((∀ n ∈ [s.cfg.solQCap, s.cfg.swQCap, s.cfg.sndQCap, s.cfg.solTimedCap, s.cfg.sndTimedCap], 1 ≤ n ∧ n ≤ 65535) ∧
      (s.cfg.strobeWaitSeq = [true, false, true] ∨ s.cfg.strobeWaitSeq = [true, false]) ∧
      1 ≤ s.cfg.dimDiv1 ∧ 1 ≤ s.cfg.dimDiv2 ∧
      2 ≤ s.cfg.flashGranMs ∧ 2 ∣ s.cfg.flashGranMs ∧ s.cfg.flashGranMs ∣ s.cfg.flashMaxMs ∧
      s.cfg.flashMaxMs ≤ 255 * s.cfg.flashGranMs ∧
      1 ≤ s.cfg.displayDigits ∧ s.cfg.displayDigits ≤ 8 ∧
      s.cfg.slotTable.length = 16 ∧
      (∀ row ∈ s.cfg.slotTable, row.length = 4 ∧ ∀ f p, some (f, p) ∈ row →
        (f ≤ 3 ∧ p < s.cfg.displayDigits) ∨ ((f = 4 ∨ f = 5) ∧ p < 2)) ∧
      s.cfg.displayEncoding = .bcd ∧ s.cfg.creditBootCheck = false)

/-! ## Rules over all commands -/

/-- Every command that ends has given exactly one response word of the format of `30_encoding.md` R82: a status 0 to 7, twelve
zero bits, and data 0 unless the status is OK (R83); and it has left the commands still on the port alone. -/
def Obligations.EveryCommandAnswersOnce : Prop :=
  ∀ i s t, exec i s = .next t →
    t.port.rspValid = true ∧ (rspStatus t).toNat ≤ 7 ∧ t.port.rsp.extractLsb' 16 12 = 0 ∧
      (rspStatus t ≠ 0 → rspData t = 0) ∧ t.port.cmds = s.port.cmds

/-- A command that ends with a status other than OK or HALTED has changed no state element and caused no bus cycle
(`60_exceptions.md` R242, `30_encoding.md` R83). -/
def Obligations.RefusalsChangeNothing : Prop :=
  ∀ i s t, exec i s = .next t → rspStatus t ≠ 0 → rspStatus t ≠ 7 → t = answered s t.port.rsp

/-- In UNINIT every command but INIT, the reserved ones too, answers BAD_MODE and changes nothing
(`30_encoding.md` R84, `60_exceptions.md` R240). -/
def Obligations.BeforeInitOtherCommandsAreBadMode : Prop :=
  ∀ i s, s.mode = .uninit → (∀ c, i ≠ .init c) → exec i s = .next (answered s 0x60000000)

/-- Outside UNINIT an identifier operand out of its range makes the command a no-op that answers INVALID_ID, before any other
test (`30_encoding.md` R84, R93). -/
def Obligations.OutOfRangeIdentifiersAreNoOps : Prop :=
  ∀ i s, i.wellFormed = false → s.mode ≠ .uninit → exec i s = .next (answered s 0x40000000)

/-- No command but INIT, BUSWR and BUSRD issues a bus cycle or touches a line (`20_memory.md` R73), and none of them changes the
mode, which INIT alone writes (`10_state.md` R21, R41). -/
def Obligations.OnlyThreeCommandsTouchTheBus : Prop :=
  ∀ i s t, (∀ c, i ≠ .init c) → (∀ a d, i ≠ .buswr a d) → (∀ a, i ≠ .busrd a) → exec i s = .next t →
    t.bus = s.bus ∧ t.mode = s.mode

/-- No command but INIT writes what the tick handler owns: the scheduler, the switch history and `sw.diag_hold`, `sol.firing`, the
lamp bank and dim counters, the display slot (`10_state.md` R43, `60_exceptions.md` R251). -/
def Obligations.CommandsLeaveHandlerOwnedState : Prop :=
  ∀ i s t, (∀ c, i ≠ .init c) → exec i s = .next t →
    t.sch = s.sch ∧ t.sw = { s.sw with q := t.sw.q } ∧ t.sol.firing = s.sol.firing ∧
      t.lamp = { s.lamp with on := t.lamp.on, dim1 := t.lamp.dim1, dim2 := t.lamp.dim2, fp := t.lamp.fp } ∧
      t.disp.slot = s.disp.slot ∧ t.cfg = s.cfg ∧ t.inp = s.inp

/-- The tick handler writes nothing the host owns: lamp targets, display content, timed tables, `sol.en`, `sol.cont`, the mode and
the ports; and it inverts the phase (`10_state.md` R43, `45_interrupt_scheduler.md` R221). -/
def Obligations.HandlerLeavesHostOwnedState : Prop :=
  ∀ s t, tickHandler s = .next t →
    t.lamp = { s.lamp with bank := t.lamp.bank, dimc1 := t.lamp.dimc1, dimc2 := t.lamp.dimc2 } ∧
      t.disp = { s.disp with slot := t.disp.slot } ∧
      t.sol = { s.sol with q := t.sol.q, firing := t.sol.firing } ∧ t.snd = { s.snd with q := t.snd.q } ∧
      t.mode = s.mode ∧ t.port = s.port ∧ t.inp = s.inp ∧ t.cfg = s.cfg ∧
      t.sch = { s.sch with phase := !s.sch.phase }

/-- `sys.mode` changes only from UNINIT, to RUN or HALTED: RUN is never left, HALTED is never left, UNINIT never comes back
(`10_state.md` R21, R41, `70_reset_and_hazards.md` R273). -/
def Obligations.ModeOnlyLeavesUninit : Prop :=
  ∀ s t, step s = .next t →
    t.mode = s.mode ∨ (s.mode = .uninit ∧ (t.mode = .run ∨ t.mode = .halted))

/-- No step changes the configuration, and the bus history only grows at its end (`20_memory.md` R64, R68, R70). -/
def Obligations.ConfigurationAndHistoryPersist : Prop :=
  ∀ s t, step s = .next t → t.cfg = s.cfg ∧ s.bus.hist <+: t.bus.hist

/-- While the external clock keeps toggling, a block with a legal configuration never stops: for every number of steps, whatever the
host offers and whatever ticks come, the run goes on (`60_exceptions.md` R249, R258; a stopped clock is the one hang). That the run
goes on in HALTED too, R258's one fatal condition, as steps that hold the state, is the model's choice (log 14). -/
def Obligations.RunNeverStopsWhileClockRuns : Prop :=
  ∀ n s, s.cfg.legal = true → s.bus.clk.running = true → ∃ t, Host.Core.run core n s = .next t

/-- At the logical level the two hardware revisions are indistinguishable: a step on the other revision is the same step
(`40_bus_engine.md` R110). -/
def Obligations.RevisionsAreIndistinguishable : Prop :=
  ∀ r s, step (onRevision r s) = outcomeOnRevision r (step s)

/-! ## Invariants -/

/-- Every step keeps every queue within its capacity and every timed table at its size (`10_state.md` R27, R29, R30, R31). -/
def Obligations.StepKeepsQueuesBounded : Prop :=
  ∀ s t, QueuesBounded s → step s = .next t → QueuesBounded t

/-- Every step keeps the display buffers at their widths, the digit codes 0 to 9, and the mask bits beyond a field zero
(`10_state.md` R37). -/
def Obligations.StepKeepsDisplaysFit : Prop :=
  ∀ s t, DisplaysFit s → step s = .next t → DisplaysFit t

/-- Every step leaves the bus quiet, driven exactly in RUN and with the legacy processor held exactly then, so that the two never
both drive; and a tick is pending only in RUN (`20_memory.md` R74, `40_bus_engine.md` R109, `60_exceptions.md` R246). -/
def Obligations.StepKeepsBusOwned : Prop :=
  ∀ s t, BusOwned s → step s = .next t → BusOwned t

/-- Every step keeps the diagnostic identifier in `sw.q` at most once (`42_switch_matrix.md` R148). -/
def Obligations.StepKeepsDiagnosticQueuedOnce : Prop :=
  ∀ s t, DiagOnce s → step s = .next t → DiagOnce t

/-- Every step keeps the hold and dim counters in their ranges (`10_state.md` R28, R36). -/
def Obligations.StepKeepsCountersInRange : Prop :=
  ∀ s t, CountersInRange s → step s = .next t → CountersInRange t

/-- Power-on meets all five invariants. The elements the spec leaves unspecified at power-on have the values of log 12, so this
is the model's choice for them. -/
def Obligations.PowerOnMeetsTheInvariants : Prop :=
  QueuesBounded State.reset ∧ DisplaysFit State.reset ∧ BusOwned State.reset ∧ DiagOnce State.reset ∧
    CountersInRange State.reset

/-! ## Start-up and the bus commands -/

/-- INIT in UNINIT without passthrough, while the clock runs, answers OK, leaves the state R42 lists, and issues exactly the writes
of INIT_SEQ in order (`41_peripheral_config.md` R130, R132, R136; `10_state.md` R42). -/
def Obligations.InitClearsConfiguresAndRuns : Prop :=
  ∀ credit s, s.mode = .uninit → s.inp.bootOrigReq = false → s.bus.clk.running = true →
    ∃ t, exec (.init credit) s = .next t ∧ AfterInit s t ∧ t.bus.hist = s.bus.hist ++ writesOf s.cfg.initSeq ∧
      t.port.rspValid = true ∧ t.port.rsp = 0

/-- INIT in UNINIT with BOOT_ORIG_REQ answers HALTED: the bus floats, the legacy processor is released, the mode is HALTED, no bus
cycle, no other change (`41_peripheral_config.md` R133). A second INIT answers BAD_MODE and does nothing (R134). -/
def Obligations.InitPassthroughHaltsAndSecondInitIsRefused : Prop :=
  ∀ credit s,
    (s.mode = .uninit → s.inp.bootOrigReq = true →
      exec (.init credit) s = .next (answered
        { s with
          mode := .halted
          bus := { s.bus with pin := { s.bus.pin with busOE := false, dataOE := false, haltLegacy := false } } }
        0x70000000)) ∧
      (s.mode ≠ .uninit → exec (.init credit) s = .next (answered s 0x60000000))

/-- BUSWR performs exactly one write cycle of its address and byte, whatever the address, and answers OK with data 0; it samples
nothing: `bus.rdata` and the bytes the environment has for later reads are as they were
(`40_bus_engine.md` R104, R105, R112, `20_memory.md` R63; the script of those bytes is log 8). -/
def Obligations.BuswrPerformsOneWriteCycle : Prop :=
  ∀ addr data s, s.mode ≠ .uninit → s.bus.clk.running = true →
    ∃ e, exec (.buswr addr data) s = .next (answered { s with bus := e } 0) ∧
      Performed [.write addr data] s.bus e ∧ BusQuiet e ∧ e.answers = s.bus.answers ∧ e.rdata = s.bus.rdata

/-- BUSRD performs exactly one read cycle and answers OK with the byte the environment drove, zero-extended: the next scripted
byte, or the oracle's for the history so far and the address (`40_bus_engine.md` R106, R113, `20_memory.md` R71; the script is
log 8). -/
def Obligations.BusrdReturnsTheSampledByte : Prop :=
  ∀ addr s, s.mode ≠ .uninit → s.bus.clk.running = true →
    ∃ e v, exec (.busrd addr) s = .next (answered { s with bus := e } (v.setWidth 32)) ∧
      Performed [.read addr v] s.bus e ∧ BusQuiet e ∧
      v = s.bus.answers.headD (Config.oracle s.bus.hist addr) ∧ e.answers = s.bus.answers.tail

/-! ## Switch commands -/

/-- SWPULL answers EMPTY on an empty queue, else removes and returns the oldest event (`42_switch_matrix.md` R150). -/
def Obligations.SwpullTakesTheOldestEvent : Prop :=
  ∀ s, s.mode ≠ .uninit →
    (s.sw.q = [] → exec .swpull s = .next (answered s 0x10000000)) ∧
      ∀ id q, s.sw.q = id :: q →
        exec .swpull s = .next (answered { s with sw := { s.sw with q := q } } (id.setWidth 32))

/-- SWPEEK of switch `c*8 + r` returns bit `r` of the newest sample of column `c`; SWISQ says whether the identifier is in the
queue; neither changes anything (`42_switch_matrix.md` R141, R151, R152). -/
def Obligations.SwitchQueriesAnswerFromState : Prop :=
  ∀ s, s.mode ≠ .uninit →
    (∀ (c : Fin 8) (r : Nat), r < 8 →
      exec (.swpeek (BitVec.ofNat 8 (c.val * 8 + r))) s =
        .next (answered s (if s.sw.now[c].getLsbD r then 1 else 0))) ∧
      ∀ n : Nat, n ≤ 64 →
        exec (.swisq (BitVec.ofNat 8 n)) s = .next (answered s (if BitVec.ofNat 7 n ∈ s.sw.q then 1 else 0))

/-! ## Output queue commands -/

/-- SOLSPACE and SNDSPACE answer OK with the number of free slots, and change nothing
(`43_output_queues.md` R161, R167, R168). -/
def Obligations.SpaceQueriesCountFreeSlots : Prop :=
  ∀ s, s.mode ≠ .uninit → s.cfg.legal = true →
    (∃ w, exec .solspace s = .next (answered s w) ∧ w.toNat = s.cfg.solQCap - s.sol.q.length) ∧
      ∃ w, exec .sndspace s = .next (answered s w) ∧ w.toNat = s.cfg.sndQCap - s.snd.q.length

/-- SOLPUSH: REJECT_DISABLED while disabled without override; else REJECT_FULL when fewer slots are free than asked for; else the
repeat count of slots is appended and nothing else changes (`43_output_queues.md` R162, R164). -/
def Obligations.SolpushAppendsOrRejects : Prop :=
  ∀ id rep allow s, s.mode ≠ .uninit → id.toNat ≤ 15 →
    (s.sol.en = false → allow = false → exec (.solpush id rep allow) s = .next (answered s 0x30000000)) ∧
      ((s.sol.en = true ∨ allow = true) → s.cfg.solQCap - s.sol.q.length < rep.toNat →
        exec (.solpush id rep allow) s = .next (answered s 0x20000000)) ∧
      ((s.sol.en = true ∨ allow = true) → rep.toNat ≤ s.cfg.solQCap - s.sol.q.length →
        exec (.solpush id rep allow) s = .next (answered
          { s with sol := { s.sol with q := s.sol.q ++ List.replicate rep.toNat (BitVec.ofNat 4 id.toNat) } } 0))

/-- SOLPUSHF: REJECT_DISABLED while disabled; else REJECT_FULL when fewer slots are free than asked for; else the slots go in front
of everything queued (`43_output_queues.md` R165). -/
def Obligations.SolpushfInsertsAtTheHeadOrRejects : Prop :=
  ∀ id rep s, s.mode ≠ .uninit → id.toNat ≤ 15 →
    (s.sol.en = false → exec (.solpushf id rep) s = .next (answered s 0x30000000)) ∧
      (s.sol.en = true → s.cfg.solQCap - s.sol.q.length < rep.toNat →
        exec (.solpushf id rep) s = .next (answered s 0x20000000)) ∧
      (s.sol.en = true → rep.toNat ≤ s.cfg.solQCap - s.sol.q.length →
        exec (.solpushf id rep) s = .next (answered
          { s with sol := { s.sol with q := List.replicate rep.toNat (BitVec.ofNat 4 id.toNat) ++ s.sol.q } } 0))

/-- SNDPUSH: REJECT_FULL when fewer slots are free than asked for, else the slots are appended; no code is illegal and no enable
flag is looked at (`43_output_queues.md` R162, R166). -/
def Obligations.SndpushAppendsOrRejects : Prop :=
  ∀ id rep s, s.mode ≠ .uninit →
    (s.cfg.sndQCap - s.snd.q.length < rep.toNat → exec (.sndpush id rep) s = .next (answered s 0x20000000)) ∧
      (rep.toNat ≤ s.cfg.sndQCap - s.snd.q.length →
        exec (.sndpush id rep) s = .next (answered
          { s with snd := { s.snd with q := s.snd.q ++ List.replicate rep.toNat id } } 0))

/-- SOLSCHED fills the lowest free slot with the entry, whatever `sol.en` is, and answers REJECT_FULL when every slot is used
(`43_output_queues.md` R170, R172). -/
def Obligations.SolschedTakesTheLowestFreeSlot : Prop :=
  ∀ id rep ovr time s, s.mode ≠ .uninit → id.toNat ≤ 15 →
    (∀ pre e post, s.sol.t = pre ++ e :: post → (∀ x ∈ pre, x.used = true) → e.used = false →
      exec (.solsched id rep ovr time) s = .next (answered
        { s with
          sol := { s.sol with
            t := pre ++ { used := true, id := BitVec.ofNat 4 id.toNat, rep := rep, fire := time, ovr := ovr } :: post } }
        0)) ∧
      ((∀ x ∈ s.sol.t, x.used = true) → exec (.solsched id rep ovr time) s = .next (answered s 0x20000000))

/-- SNDSCHED fills the lowest free slot with the entry, override bit included, and answers REJECT_FULL when every slot is used
(`43_output_queues.md` R170, R173). -/
def Obligations.SndschedTakesTheLowestFreeSlot : Prop :=
  ∀ id rep ovr time s, s.mode ≠ .uninit →
    (∀ pre e post, s.snd.t = pre ++ e :: post → (∀ x ∈ pre, x.used = true) → e.used = false →
      exec (.sndsched id rep ovr time) s = .next (answered
        { s with
          snd := { s.snd with t := pre ++ { used := true, id := id, rep := rep, fire := time, ovr := ovr } :: post } }
        0)) ∧
      ((∀ x ∈ s.snd.t, x.used = true) → exec (.sndsched id rep ovr time) s = .next (answered s 0x20000000))

/-- SOLEN sets and SOLDIS clears `sol.en`, and neither touches the queue or the timed table
(`43_output_queues.md` R176, R177). -/
def Obligations.SolenSetsAndSoldisClearsTheEnable : Prop :=
  ∀ s, s.mode ≠ .uninit →
    exec .solen s = .next (answered { s with sol := { s.sol with en := true } } 0) ∧
      exec .soldis s = .next (answered { s with sol := { s.sol with en := false } } 0)

/-- SOLCONT writes bit `id` of `sol.cont` and no other bit (`43_output_queues.md` R178). -/
def Obligations.SolcontWritesOneBit : Prop :=
  ∀ id on s, s.mode ≠ .uninit → id.toNat ≤ 15 →
    ∃ m, exec (.solcont id on) s = .next (answered { s with sol := { s.sol with cont := m } } 0) ∧
      ∀ j < 16, m.getLsbD j = if j = id.toNat then on else s.sol.cont.getLsbD j

/-- UPDATE answers OK and issues no bus cycle; it frees exactly the used slots whose fire time has come and touches no other slot;
both queues only grow at their tails; beyond them it writes only on bits of lamps
(`43_output_queues.md` R171, R175). -/
def Obligations.UpdateFreesExactlyTheDueSlots : Prop :=
  ∀ now s, s.mode ≠ .uninit →
    ∃ t, exec (.update now) s = .next t ∧
      t.sol.t = s.sol.t.map (fun e => if e.used ∧ e.fire.toNat ≤ now.toNat then { e with used := false } else e) ∧
      t.snd.t = s.snd.t.map (fun e => if e.used ∧ e.fire.toNat ≤ now.toNat then { e with used := false } else e) ∧
      s.sol.q <+: t.sol.q ∧ s.snd.q <+: t.snd.q ∧
      t = answered
        { s with
          sol := { s.sol with t := t.sol.t, q := t.sol.q }
          snd := { s.snd with t := t.snd.t, q := t.snd.q }
          lamp := { s.lamp with on := t.lamp.on } }
        0

/-- UPDATE takes the slots of each table in ascending order: what stands in the output queue after it is what stood there, then for
each due entry in turn its repeat count of slots, if there is room for them all at that moment (and, for a solenoid, if the enable
or the entry's override is set). So for one pending entry among slots that are not due: UPDATE at or after its fire time puts
exactly its repeat count of slots on the output queue, subject to capacity (and, for a solenoid, to the enable or the override), and frees its slot; UPDATE before its
fire time leaves the table and the queue unchanged (`43_output_queues.md` R171, R174). -/
def Obligations.DueEntryReachesItsQueueExactly : Prop :=
  ∀ now s t, s.mode ≠ .uninit → exec (.update now) s = .next t →
    t.sol.q = s.sol.t.foldl (fun q e =>
      if (e.used = true ∧ e.fire.toNat ≤ now.toNat) ∧ (s.sol.en = true ∨ e.ovr = true) ∧
          e.rep.toNat ≤ s.cfg.solQCap - q.length then q ++ List.replicate e.rep.toNat e.id else q) s.sol.q ∧
    t.snd.q = s.snd.t.foldl (fun q e =>
      if (e.used = true ∧ e.fire.toNat ≤ now.toNat) ∧ e.rep.toNat ≤ s.cfg.sndQCap - q.length then
        q ++ List.replicate e.rep.toNat e.id else q) s.snd.q ∧
    (∀ pre e post, s.sol.t = pre ++ e :: post → e.used = true →
      (∀ x ∈ pre ++ post, ¬ (x.used = true ∧ x.fire.toNat ≤ now.toNat)) →
      (e.fire.toNat ≤ now.toNat → (s.sol.en = true ∨ e.ovr = true) → e.rep.toNat ≤ s.cfg.solQCap - s.sol.q.length →
        t.sol.q = s.sol.q ++ List.replicate e.rep.toNat e.id ∧ t.sol.t = pre ++ { e with used := false } :: post) ∧
      (e.fire.toNat ≤ now.toNat →
        ((s.sol.en = false ∧ e.ovr = false) ∨ s.cfg.solQCap - s.sol.q.length < e.rep.toNat) →
        t.sol.q = s.sol.q ∧ t.sol.t = pre ++ { e with used := false } :: post) ∧
      (now.toNat < e.fire.toNat → t.sol.q = s.sol.q ∧ t.sol.t = s.sol.t)) ∧
    (∀ pre e post, s.snd.t = pre ++ e :: post → e.used = true →
      (∀ x ∈ pre ++ post, ¬ (x.used = true ∧ x.fire.toNat ≤ now.toNat)) →
      (e.fire.toNat ≤ now.toNat → e.rep.toNat ≤ s.cfg.sndQCap - s.snd.q.length →
        t.snd.q = s.snd.q ++ List.replicate e.rep.toNat e.id ∧ t.snd.t = pre ++ { e with used := false } :: post) ∧
      (e.fire.toNat ≤ now.toNat → s.cfg.sndQCap - s.snd.q.length < e.rep.toNat →
        t.snd.q = s.snd.q ∧ t.snd.t = pre ++ { e with used := false } :: post) ∧
      (now.toNat < e.fire.toNat → t.snd.q = s.snd.q ∧ t.snd.t = s.snd.t))

/-- UPDATE recomputes the on bit of every flashing lamp from the absolute time, lit in the first half of its period, and touches no
steady lamp (`44_lamp_display.md` R194, `43_output_queues.md` R175). -/
def Obligations.UpdateRecomputesFlashingLamps : Prop :=
  ∀ now s, s.mode ≠ .uninit →
    ∃ t, exec (.update now) s = .next t ∧
      ∀ i : Fin 64, lampGet t.lamp.on i =
        if s.lamp.fp[i] = 0 then lampGet s.lamp.on i
        else decide (now.toNat % (s.lamp.fp[i].toNat * s.cfg.flashGranMs) < s.lamp.fp[i].toNat * s.cfg.flashGranMs / 2)

/-- A sequence of pushes and pulls on a queue returns entries in the order they went in: what the pulls returned, then what is
left, is what was there, then what the accepted pushes put in; and a queue within its capacity stays within it; for every type
of entry, so for solenoids, sounds and switches alike (`43_output_queues.md` R162, R163, R169). -/
def Obligations.QueuesAreFirstInFirstOut : Prop :=
  ∀ (α : Type) (cap : Nat) (ops : List (QueueOp α)) (q : List α),
    (runQueue cap ops q).1 ++ (runQueue cap ops q).2.2 = q ++ (runQueue cap ops q).2.1 ∧
      (q.length ≤ cap → (runQueue cap ops q).2.2.length ≤ cap)

/-! ## Lamp and display commands -/

/-- LAMPSET writes one lamp and no other: off clears its on, dim and flash; on writes its dim bits and its quantised flash period,
and sets its on bit only if the period is 0 (`44_lamp_display.md` R191, R193, R197). -/
def Obligations.LampsetWritesOneLamp : Prop :=
  ∀ id dim on period s, s.mode ≠ .uninit → id.toNat ≤ 63 → s.cfg.legal = true →
    ∃ l, exec (.lampset id dim on period) s = .next (answered { s with lamp := l } 0) ∧
      l = { s.lamp with on := l.on, dim1 := l.dim1, dim2 := l.dim2, fp := l.fp } ∧
      ∀ j : Fin 64,
        (j.val ≠ id.toNat → lampGet l.on j = lampGet s.lamp.on j ∧ lampGet l.dim1 j = lampGet s.lamp.dim1 j ∧
          lampGet l.dim2 j = lampGet s.lamp.dim2 j ∧ l.fp[j] = s.lamp.fp[j]) ∧
        (j.val = id.toNat → on = false →
          lampGet l.on j = false ∧ lampGet l.dim1 j = false ∧ lampGet l.dim2 j = false ∧ l.fp[j] = 0) ∧
        (j.val = id.toNat → on = true →
          lampGet l.on j = (decide (period = 0) || lampGet s.lamp.on j) ∧ lampGet l.dim1 j = dim.getLsbD 0 ∧
            lampGet l.dim2 j = dim.getLsbD 1 ∧
            l.fp[j].toNat =
              if period = 0 then 0 else max 1 (min period.toNat s.cfg.flashMaxMs / s.cfg.flashGranMs))

/-- LAMPOFF makes every lamp dark, steady and undimmed and changes nothing else; one steady LAMPSET after it leaves exactly that
lamp on; and LAMPSET off a second time changes nothing (`44_lamp_display.md` R192, R197). -/
def Obligations.LampoffThenOneLampset : Prop :=
  ∀ s, s.mode ≠ .uninit →
    (∃ l, exec .lampoff s = .next (answered { s with lamp := l } 0) ∧
      l = { s.lamp with on := l.on, dim1 := l.dim1, dim2 := l.dim2, fp := l.fp } ∧
      (∀ j : Fin 64, lampGet l.on j = false ∧ lampGet l.dim1 j = false ∧ lampGet l.dim2 j = false ∧ l.fp[j] = 0) ∧
      ∀ id dim, id.toNat ≤ 63 →
        ∃ b, exec (.lampset id dim true 0) (answered { s with lamp := l } 0) = .next b ∧
          ∀ j : Fin 64, lampGet b.lamp.on j = decide (j.val = id.toNat)) ∧
      ∀ id dim period dim' period' a b, id.toNat ≤ 63 → exec (.lampset id dim false period) s = .next a →
        exec (.lampset id dim' false period') a = .next b → b = a

/-- DISPVAL writes the decimal digits of the value to the field, right-justified, so that they read the value modulo `10^W`, and
makes the rightmost positions active: all of them without leading-zero blanking, else as many as the value has digits but at
least `min` (limited to `W`); no other field changes (`44_lamp_display.md` R202, R203, R204, R210). -/
def Obligations.DispvalShowsTheDecimalDigits : Prop :=
  ∀ (f : Fin 6) min blz value s, s.mode ≠ .uninit → s.cfg.legal = true →
    let W := s.cfg.fieldWidth f.val
    let active := if blz then max (Nat.min (Nat.digits 10 value.toNat).length W) (Nat.min min.toNat W) else W
    ∃ ds m,
      exec (.dispval (BitVec.ofNat 8 f.val) min blz value) s = .next (answered
        { s with disp := { s.disp with digit := s.disp.digit.set f ds, blank := s.disp.blank.set f m } } 0) ∧
      ds.length = W ∧ (∀ d ∈ ds, d.toNat ≤ 9) ∧
      ds.foldl (fun n d => 10 * n + d.toNat) 0 = value.toNat % 10 ^ W ∧
      ∀ p, m.getLsbD p = decide (W - active ≤ p ∧ p < W)

/-- DISPBLANK writes the mask bits below the field's width and drops the others, the digits untouched; DISPGETB returns the mask
and changes nothing (`44_lamp_display.md` R205, R206). -/
def Obligations.DispblankWritesAndDispgetbReadsTheMask : Prop :=
  ∀ (f : Fin 6) mask s, s.mode ≠ .uninit → s.cfg.legal = true →
    (∃ m, exec (.dispblank (BitVec.ofNat 8 f.val) mask) s =
        .next (answered { s with disp := { s.disp with blank := s.disp.blank.set f m } } 0) ∧
      ∀ p, m.getLsbD p = (mask.getLsbD p && decide (p < s.cfg.fieldWidth f.val))) ∧
      exec (.dispgetb (BitVec.ofNat 8 f.val)) s = .next (answered s ((s.disp.blank[f]).setWidth 32))

/-- Outside UNINIT each of the six operation codes reserved by name answers RESERVED_OP and changes nothing
(`30_encoding.md` R86). -/
def Obligations.NamedReservedCodesAreRefused : Prop :=
  ∀ s, s.mode ≠ .uninit →
    exec .diagq s = .next (answered s 0x50000000) ∧ exec .diagclr s = .next (answered s 0x50000000) ∧
      exec .flipdis s = .next (answered s 0x50000000) ∧ exec .sndrange s = .next (answered s 0x50000000) ∧
      exec .lampflashall s = .next (answered s 0x50000000) ∧ exec .dispcycle s = .next (answered s 0x50000000)

/-! ## The tick handler -/

/-- While the clock runs the input phase ends, having issued exactly its 22 cycles in order: the diagnostic read; slot, and two
digit bytes, of the advanced display slot; bank and lamp byte of the advanced lamp bank; then eight times the one-hot column
strobe and the row read. The bytes read are what the environment drove: the next bytes of its script in order, and after the
script the oracle's for the history up to the read (the script is the model's choice, log 8). The samples are the new `sw.now`.
The queue is the old one, then identifier 64 if the diagnostic byte was active, the line released, 64 not queued and a slot free,
then the closures of the pass in ascending order as far as there is room; `sw.diag_hold` is reloaded or counted down. Both dim
counters advance, each modulo its divisor, exactly when the bank wraps from 7 to 0. Nothing else changes, the output queues and
`sol.firing` among it. The code of a lane is 0xF where SLOT_TABLE has none there, or a position whose mask bit is 0, and else the
low four bits of that position's digit code (`45_interrupt_scheduler.md` R222, `44_lamp_display.md` R199, R200, R208, R209,
`42_switch_matrix.md` R142, R143, R144, R145, R146, R147, `20_memory.md` R71). -/
def Obligations.InputPhaseIssuesItsTwentyTwoCycles : Prop :=
  (∀ s, s.bus.clk.running = true →
    ∃ (t : State) (d : Byte) (v : Fin 8 → Byte) (evs : List BusEvent) (q : List SwitchId), inputPhase s = .next t ∧
      t = { s with bus := t.bus, sw := t.sw, lamp := t.lamp, disp := t.disp } ∧
      t.disp = { s.disp with slot := s.disp.slot + 1 } ∧ t.lamp = lampAdvance s.cfg s.lamp ∧
      t.lamp =
        { s.lamp with
          bank := s.lamp.bank + 1
          dimc1 := if s.lamp.bank = 7 then (s.lamp.dimc1 + 1) % s.cfg.dimDiv1 else s.lamp.dimc1
          dimc2 := if s.lamp.bank = 7 then (s.lamp.dimc2 + 1) % s.cfg.dimDiv2 else s.lamp.dimc2 } ∧
      (∀ c : Fin 8, t.sw.now[c] = v c ∧ t.sw.prev[c] = s.sw.now[c] ∧ t.sw.ago[c] = s.sw.prev[c]) ∧
      t.sw.diagHold = (if d &&& s.cfg.diagStatusMask ≠ 0 then s.cfg.diagReleaseTicks else s.sw.diagHold - 1) ∧
      q = (if d &&& s.cfg.diagStatusMask ≠ 0 ∧ s.sw.diagHold = 0 ∧ 64 ∉ s.sw.q ∧ s.sw.q.length < s.cfg.swQCap then
        s.sw.q ++ [64] else s.sw.q) ∧
      t.sw.q = q ++
        ((List.finRange 8).flatMap fun c =>
          ((List.range 8).filter fun r => (v c).getLsbD r && s.sw.now[c].getLsbD r && !s.sw.prev[c].getLsbD r).map
            fun r => BitVec.ofNat 7 (c.val * 8 + r)).take (s.cfg.swQCap - q.length) ∧
      evs =
        [.read s.cfg.addrMap.aDiagStatus d,
          .write s.cfg.addrMap.aDispStrobe (BitVec.ofNat 8 t.disp.slot.val),
          .write s.cfg.addrMap.aDispDataA
            (nibble s.cfg s.disp t.disp.slot.val 1 ++ nibble s.cfg s.disp t.disp.slot.val 0),
          .write s.cfg.addrMap.aDispDataB
            (nibble s.cfg s.disp t.disp.slot.val 3 ++ nibble s.cfg s.disp t.disp.slot.val 2),
          .write s.cfg.addrMap.aLampStrobe (1#8 <<< t.lamp.bank.val),
          .write s.cfg.addrMap.aLampData (lampByte t.lamp t.lamp.bank)] ++
          (List.finRange 8).flatMap (fun c =>
            [.write s.cfg.addrMap.aSwStrobe (1#8 <<< c.val), .read s.cfg.addrMap.aSwReturn (v c)]) ∧
      Performed evs s.bus t.bus ∧
      d = s.bus.answers.headD (Config.oracle s.bus.hist s.cfg.addrMap.aDiagStatus) ∧
      (∀ c : Fin 8, v c = (s.bus.answers.drop (c.val + 1)).headD
        (Config.oracle (s.bus.hist ++ evs.take (2 * c.val + 7)) s.cfg.addrMap.aSwReturn)) ∧
      t.bus.answers = s.bus.answers.drop 9) ∧
    ∀ (c : Config) (d : Displays) (slot lane : Nat) (row : List (Option (Nat × Nat))), c.slotTable[slot]? = some row →
      (row[lane]? = some none → nibble c d slot lane = 0xF) ∧
        ∀ (f : Fin 6) (p : Nat) (v : Byte), row[lane]? = some (some (f.val, p)) → d.digit[f][p]? = some v →
          nibble c d slot lane = if d.blank[f].getLsbD p then v.extractLsb' 0 4 else 0xF

/-- While the clock runs the output phase ends. It pulls at most one solenoid slot and one sound; it writes the enter sequence when
firing begins, then the low and the high byte of `sol.cont | bit(e) | SOUND_BITS(c)`, then the exit sequence when firing ends;
it leaves `sol.firing` telling whether a slot was pulled, samples nothing from the bus, and changes nothing else. SOUND_BITS of a
code is the value the configuration lists for it, and `zext_16(c) << 8` of a code it does not list
(`45_interrupt_scheduler.md` R223, R224, R225, R226). That SOUND_BITS is held as a list of which the first entry of a code counts
(log 21), and the script of bytes for later reads (log 8), are the model's choices. -/
def Obligations.OutputPhaseWritesTheOutputWord : Prop :=
  (∀ s, s.bus.clk.running = true →
    let firing := !s.sol.q.isEmpty
    let bit : BitVec 16 :=
      match s.sol.q with
      | [] => 0
      | e :: _ => if s.sol.en = true ∨ s.cfg.disableSuppressesOutput = false then BitVec.ofNat 16 (2 ^ e.toNat) else 0
    let sound : BitVec 16 :=
      match s.snd.q with
      | [] => 0
      | c :: _ => soundWord s.cfg c
    let out := s.sol.cont ||| bit ||| sound
    ∃ e, outputPhase s = .next
        { s with
          bus := e
          sol := { s.sol with q := s.sol.q.tail, firing := firing }
          snd := { s.snd with q := s.snd.q.tail } } ∧
      Performed
        (writesOf (if firing && !s.sol.firing then s.cfg.interlockEnterSeq else []) ++
          [.write s.cfg.addrMap.aSolA (out.extractLsb' 0 8), .write s.cfg.addrMap.aSolB (out.extractLsb' 8 8)] ++
          writesOf (if !firing && s.sol.firing then s.cfg.interlockExitSeq else []))
        s.bus e ∧ e.answers = s.bus.answers ∧ e.rdata = s.bus.rdata) ∧
    ∀ (c : Config) (code : SoundCode),
      ((∀ x ∈ c.soundBits, x.1 ≠ code) → soundWord c code = code.setWidth 16 <<< 8) ∧
        ∀ pre w post, c.soundBits = pre ++ (code, w) :: post → (∀ x ∈ pre, x.1 ≠ code) → soundWord c code = w

/-- The handler is the input phase where `sch.phase` is 0 and the output phase where it is 1, and then the phase is inverted. While
the clock runs the handler ends with the phase inverted, after 22 bus cycles in an input phase, and in an output phase
after 2, plus the enter sequence when firing begins or the exit sequence when it ends
(`45_interrupt_scheduler.md` R221, R227). -/
def Obligations.HandlerAlternatesPhasesInBoundedWork : Prop :=
  (∀ s,
    (s.sch.phase = false →
      tickHandler s = chain (inputPhase s) fun t => .next { t with sch := { t.sch with phase := !t.sch.phase } }) ∧
    (s.sch.phase = true →
      tickHandler s = chain (outputPhase s) fun t => .next { t with sch := { t.sch with phase := !t.sch.phase } })) ∧
  ∀ s, s.bus.clk.running = true →
    ∃ t, tickHandler s = .next t ∧ t.sch.phase = !s.sch.phase ∧ t.bus.clk.running = true ∧
      (s.sch.phase = false → t.bus.hist.length = s.bus.hist.length + 22) ∧
      (s.sch.phase = true → s.sol.q ≠ [] → s.sol.firing = false →
        t.bus.hist.length = s.bus.hist.length + 2 + s.cfg.interlockEnterSeq.length) ∧
      (s.sch.phase = true → s.sol.q = [] → s.sol.firing = true →
        t.bus.hist.length = s.bus.hist.length + 2 + s.cfg.interlockExitSeq.length) ∧
      (s.sch.phase = true → (s.sol.q = [] ↔ s.sol.firing = false) → t.bus.hist.length = s.bus.hist.length + 2)

/-- One scan pass shifts the three generations by one and finds a closure of switch `c*8 + r` exactly when its three samples are
open, closed, closed; the closures are queued in ascending order of identifier, as many as the queue has room for, and the rest
are lost (`42_switch_matrix.md` R142, R143, R144, R145, R146). -/
def Obligations.ClosureIffOpenClosedClosed : Prop :=
  ∀ s, s.bus.clk.running = true →
    ∃ (t : State) (v : Fin 8 → Byte) (l : List SwitchId), switchScan s = .next t ∧
      (∀ c : Fin 8, t.sw.now[c] = v c ∧ t.sw.prev[c] = s.sw.now[c] ∧ t.sw.ago[c] = s.sw.prev[c]) ∧
      t.sw.q = s.sw.q ++ l.take (s.cfg.swQCap - s.sw.q.length) ∧
      l.Pairwise (fun a b => a.toNat < b.toNat) ∧
      (∀ x ∈ l, x.toNat < 64) ∧
      ∀ (c : Fin 8) (r : Nat), r < 8 →
        (BitVec.ofNat 7 (c.val * 8 + r) ∈ l ↔
          (s.sw.prev[c].getLsbD r = false ∧ s.sw.now[c].getLsbD r = true ∧ (v c).getLsbD r = true))

/-- The diagnostic step reads the status register once. An active sample reloads `sw.diag_hold`, and queues identifier 64 exactly
when the line was released, 64 is nowhere in the queue, and there is room; an inactive sample counts the hold down to 0
(`42_switch_matrix.md` R147, R148). Where the byte read comes from, the next scripted byte and after the script the oracle, is the
model's choice (log 8). -/
def Obligations.DiagnosticPressFromReleasedIsQueued : Prop :=
  ∀ s, s.bus.clk.running = true →
    ∃ (t : State) (v : Byte), diagStep s = .next t ∧ Performed [.read s.cfg.addrMap.aDiagStatus v] s.bus t.bus ∧
      v = s.bus.answers.headD (Config.oracle s.bus.hist s.cfg.addrMap.aDiagStatus) ∧
      t = { s with bus := t.bus, sw := { s.sw with q := t.sw.q, diagHold := t.sw.diagHold } } ∧
      (v &&& s.cfg.diagStatusMask ≠ 0 → t.sw.diagHold = s.cfg.diagReleaseTicks) ∧
      (v &&& s.cfg.diagStatusMask ≠ 0 → s.sw.diagHold = 0 → 64 ∉ s.sw.q → s.sw.q.length < s.cfg.swQCap →
        t.sw.q = s.sw.q ++ [64]) ∧
      (v &&& s.cfg.diagStatusMask ≠ 0 → (s.sw.diagHold ≠ 0 ∨ 64 ∈ s.sw.q ∨ s.cfg.swQCap ≤ s.sw.q.length) →
        t.sw.q = s.sw.q) ∧
      (v &&& s.cfg.diagStatusMask = 0 → t.sw.q = s.sw.q ∧ t.sw.diagHold = s.sw.diagHold - 1)

/-- Bit `j` of the byte of bank `b`: the lamp is on, and it has no dim bit, or dim bit 1 while counter 1 is 0, or dim bit 2 while
counter 2 is 0. A lamp with one dim bit alone is driven in exactly one of every DIM_DIV consecutive passes of its bank
(`44_lamp_display.md` R195, R196, R199). -/
def Obligations.DimLampIsDrivenOncePerDivisor : Prop :=
  ∀ (c : Config) (l : Lamps) (b : Fin 8) (j : Nat), j < 8 →
    ((lampByte l b).getLsbD j = (l.on[b].getLsbD j &&
      ((!l.dim1[b].getLsbD j && !l.dim2[b].getLsbD j) || (l.dim1[b].getLsbD j && decide (l.dimc1 = 0)) ||
        (l.dim2[b].getLsbD j && decide (l.dimc2 = 0))))) ∧
    (l.on[b].getLsbD j = true → l.dim1[b].getLsbD j = true → l.dim2[b].getLsbD j = false → 0 < c.dimDiv1 →
      (List.range c.dimDiv1).countP (fun n => (lampByte ((lampAdvance c)^[8 * n] { l with dimc1 := l.dimc1 % c.dimDiv1 }) b).getLsbD j) = 1) ∧
    (l.on[b].getLsbD j = true → l.dim1[b].getLsbD j = false → l.dim2[b].getLsbD j = true → 0 < c.dimDiv2 →
      (List.range c.dimDiv2).countP (fun n => (lampByte ((lampAdvance c)^[8 * n] { l with dimc2 := l.dimc2 % c.dimDiv2 }) b).getLsbD j) = 1)

/-- Setting a clear bit of the continuous mask and clearing it again restores the mask; with both queues empty the output phase
writes exactly the mask; and no queue entry ever clears a bit of it
(`45_interrupt_scheduler.md` R229, `43_output_queues.md` R178). -/
def Obligations.ContinuousMaskIsAlwaysDriven : Prop :=
  (∀ id s a b, s.mode ≠ .uninit → id.toNat ≤ 15 → s.sol.cont.getLsbD id.toNat = false →
    exec (.solcont id true) s = .next a → exec (.solcont id false) a = .next b → b.sol.cont = s.sol.cont) ∧
    ∀ s, s.bus.clk.running = true →
      ∃ (t : State) (pre post : List BusEvent) (lo hi : Byte), outputPhase s = .next t ∧
        t.bus.hist = s.bus.hist ++ pre ++ [.write s.cfg.addrMap.aSolA lo, .write s.cfg.addrMap.aSolB hi] ++ post ∧
        (hi ++ lo : BitVec 16) &&& s.sol.cont = s.sol.cont ∧
        (s.sol.q = [] → s.snd.q = [] → (hi ++ lo : BitVec 16) = s.sol.cont)

/-! ## The bus cycle, line level -/

/-- The value of `ADDR`, `WE` and `STB` is that of its register while the block owns the bus and `Z` while it does not; `DATA` is driven
with its register's value exactly while the block owns the bus and `pin.DATA_OE` is 1. In every engine step: `STB` stays 1 in the
STROBE phase only; while `STB` is 1 the address, write-enable and data registers do
not change; and the data lines change direction only where `STB` is 0 before and after. And in every cycle, while `STB` is 1, the
registers hold the request and, if the block owns the bus, the lines carry it: the address, the direction, and on a write the byte,
driven; on a read the block never drives `DATA`, in no phase (`10_state.md` R24, `40_bus_engine.md` R104, R105, R107, R108,
`70_reset_and_hazards.md` R278, `20_memory.md` R75). -/
def Obligations.LinesAreStableWhileStrobeIsHigh : Prop :=
  (∀ p : Pins,
    lineAddr p = (if p.busOE = true then some p.addrQ else none) ∧ lineWE p = (if p.busOE = true then some p.we else none) ∧
      lineSTB p = (if p.busOE = true then some p.stb else none) ∧
      lineData p = if p.busOE = true ∧ p.dataOE = true then some p.dataQ else none) ∧
  (∀ seq req e, StrobePhaseOnly e →
    StrobePhaseOnly (engineStep seq req e) ∧
      (e.pin.stb = true →
        (engineStep seq req e).pin.addrQ = e.pin.addrQ ∧ (engineStep seq req e).pin.we = e.pin.we ∧
          (engineStep seq req e).pin.dataQ = e.pin.dataQ ∧ (engineStep seq req e).pin.dataOE = e.pin.dataOE) ∧
      ((engineStep seq req e).pin.dataOE ≠ e.pin.dataOE →
        e.pin.stb = false ∧ (engineStep seq req e).pin.stb = false)) ∧
    ∀ seq r e n, e.pin.stb = false →
      ((engineSteps seq n (engineAccept r e)).pin.stb = true →
        (engineSteps seq n (engineAccept r e)).pin.addrQ = r.addr ∧ (engineSteps seq n (engineAccept r e)).pin.we = r.rw ∧
          (engineSteps seq n (engineAccept r e)).pin.dataOE = r.rw ∧
          (r.rw = true → (engineSteps seq n (engineAccept r e)).pin.dataQ = r.wdata) ∧
          (e.pin.busOE = true →
            lineAddr (engineSteps seq n (engineAccept r e)).pin = some r.addr ∧
              lineWE (engineSteps seq n (engineAccept r e)).pin = some r.rw ∧
              lineSTB (engineSteps seq n (engineAccept r e)).pin = some true ∧
              lineData (engineSteps seq n (engineAccept r e)).pin = if r.rw = true then some r.wdata else none)) ∧
        (r.rw = false → e.pin.dataOE = false → (engineSteps seq n (engineAccept r e)).pin.dataOE = false)

/-- With the default STROBE_WAIT_SEQ every cycle that completes has sampled the clock as: high any number of times, low; low any
number, high; high any number, low; low any number, high. `STB` is 1 after the step that saw the first low until before the
step that saw the second rise, and at no other time: one unbroken window from rising edge to rising edge with a whole high and
a whole low phase. With the alternative `[1, 0]` the window closes instead at the step that saw the second low: it contains one
whole high phase preceded by part of a low phase (`40_bus_engine.md` R104, R107). -/
def Obligations.StrobeWindowSpansOneClockPeriod : Prop :=
  (∀ r e e', e.pin.stb = false → busCycle [true, false, true] r e = some e' →
    ∃ a b c d : Nat,
      clockLevels (a + b + c + d + 4) e.clk =
        (List.replicate a true ++ [false] ++ List.replicate b false ++ [true] ++ List.replicate c true ++ [false] ++
          List.replicate d false ++ [true], e'.clk) ∧
      ∀ n, (engineSteps [true, false, true] n (engineAccept r e)).pin.stb = true ↔ (a + 4 ≤ n ∧ n < a + b + c + d + 7)) ∧
    ∀ r e e', e.pin.stb = false → busCycle [true, false] r e = some e' →
      ∃ a b c : Nat,
        clockLevels (a + b + c + 3) e.clk =
          (List.replicate a true ++ [false] ++ List.replicate b false ++ [true] ++ List.replicate c true ++ [false], e'.clk) ∧
        ∀ n, (engineSteps [true, false] n (engineAccept r e)).pin.stb = true ↔ (a + 4 ≤ n ∧ n < a + b + c + 6)

/-- A bus cycle is the fault `clockStopped` exactly when the engine never reaches IDLE, for any number of engine steps: the wait is
never skipped and no cycle that would end is cut off. A clock that stands still with a legal STROBE_WAIT_SEQ is such a hang
(`40_bus_engine.md` R114, U3; that a hang is a fault is log 7). -/
def Obligations.FaultExactlyWhenTheCycleHangs : Prop :=
  (∀ r s, runCycle r s = .fault .clockStopped ↔
    ∀ n, (engineSteps s.cfg.strobeWaitSeq n (engineAccept r s.bus)).st ≠ .idle) ∧
    ∀ r s, s.cfg.strobeLegal = true → s.bus.clk.samples = [] → s.bus.clk.running = false →
      runCycle r s = .fault .clockStopped
end

