-- ==== Sys2Proof/Laws/State.lean ====
section
/-! SUPPORT. One lemma per field per update of State, and the fields of the two updates every command and every tick make. -/

namespace Sys2Proof.Machine

/-! ### withMode -/

@[simp] theorem State.withMode_cfg (s : State) (x : Mode) : (s.withMode x).cfg = s.cfg := rfl
@[simp] theorem State.withMode_mode (s : State) (x : Mode) : (s.withMode x).mode = x := rfl
@[simp] theorem State.withMode_bus (s : State) (x : Mode) : (s.withMode x).bus = s.bus := rfl
@[simp] theorem State.withMode_sch (s : State) (x : Mode) : (s.withMode x).sch = s.sch := rfl
@[simp] theorem State.withMode_sw (s : State) (x : Mode) : (s.withMode x).sw = s.sw := rfl
@[simp] theorem State.withMode_sol (s : State) (x : Mode) : (s.withMode x).sol = s.sol := rfl
@[simp] theorem State.withMode_snd (s : State) (x : Mode) : (s.withMode x).snd = s.snd := rfl
@[simp] theorem State.withMode_lamp (s : State) (x : Mode) : (s.withMode x).lamp = s.lamp := rfl
@[simp] theorem State.withMode_disp (s : State) (x : Mode) : (s.withMode x).disp = s.disp := rfl
@[simp] theorem State.withMode_port (s : State) (x : Mode) : (s.withMode x).port = s.port := rfl
@[simp] theorem State.withMode_inp (s : State) (x : Mode) : (s.withMode x).inp = s.inp := rfl
@[simp] theorem State.withMode_withMode (s : State) (x y : Mode) : (s.withMode x).withMode y = s.withMode y := rfl
@[simp] theorem State.withMode_self (s : State) : s.withMode s.mode = s := rfl

/-! ### withBus -/

@[simp] theorem State.withBus_cfg (s : State) (x : BusEngine) : (s.withBus x).cfg = s.cfg := rfl
@[simp] theorem State.withBus_mode (s : State) (x : BusEngine) : (s.withBus x).mode = s.mode := rfl
@[simp] theorem State.withBus_bus (s : State) (x : BusEngine) : (s.withBus x).bus = x := rfl
@[simp] theorem State.withBus_sch (s : State) (x : BusEngine) : (s.withBus x).sch = s.sch := rfl
@[simp] theorem State.withBus_sw (s : State) (x : BusEngine) : (s.withBus x).sw = s.sw := rfl
@[simp] theorem State.withBus_sol (s : State) (x : BusEngine) : (s.withBus x).sol = s.sol := rfl
@[simp] theorem State.withBus_snd (s : State) (x : BusEngine) : (s.withBus x).snd = s.snd := rfl
@[simp] theorem State.withBus_lamp (s : State) (x : BusEngine) : (s.withBus x).lamp = s.lamp := rfl
@[simp] theorem State.withBus_disp (s : State) (x : BusEngine) : (s.withBus x).disp = s.disp := rfl
@[simp] theorem State.withBus_port (s : State) (x : BusEngine) : (s.withBus x).port = s.port := rfl
@[simp] theorem State.withBus_inp (s : State) (x : BusEngine) : (s.withBus x).inp = s.inp := rfl
@[simp] theorem State.withBus_withBus (s : State) (x y : BusEngine) : (s.withBus x).withBus y = s.withBus y := rfl
@[simp] theorem State.withBus_self (s : State) : s.withBus s.bus = s := rfl

/-! ### withSch -/

@[simp] theorem State.withSch_cfg (s : State) (x : Sched) : (s.withSch x).cfg = s.cfg := rfl
@[simp] theorem State.withSch_mode (s : State) (x : Sched) : (s.withSch x).mode = s.mode := rfl
@[simp] theorem State.withSch_bus (s : State) (x : Sched) : (s.withSch x).bus = s.bus := rfl
@[simp] theorem State.withSch_sch (s : State) (x : Sched) : (s.withSch x).sch = x := rfl
@[simp] theorem State.withSch_sw (s : State) (x : Sched) : (s.withSch x).sw = s.sw := rfl
@[simp] theorem State.withSch_sol (s : State) (x : Sched) : (s.withSch x).sol = s.sol := rfl
@[simp] theorem State.withSch_snd (s : State) (x : Sched) : (s.withSch x).snd = s.snd := rfl
@[simp] theorem State.withSch_lamp (s : State) (x : Sched) : (s.withSch x).lamp = s.lamp := rfl
@[simp] theorem State.withSch_disp (s : State) (x : Sched) : (s.withSch x).disp = s.disp := rfl
@[simp] theorem State.withSch_port (s : State) (x : Sched) : (s.withSch x).port = s.port := rfl
@[simp] theorem State.withSch_inp (s : State) (x : Sched) : (s.withSch x).inp = s.inp := rfl
@[simp] theorem State.withSch_withSch (s : State) (x y : Sched) : (s.withSch x).withSch y = s.withSch y := rfl
@[simp] theorem State.withSch_self (s : State) : s.withSch s.sch = s := rfl

/-! ### withSw -/

@[simp] theorem State.withSw_cfg (s : State) (x : Switches) : (s.withSw x).cfg = s.cfg := rfl
@[simp] theorem State.withSw_mode (s : State) (x : Switches) : (s.withSw x).mode = s.mode := rfl
@[simp] theorem State.withSw_bus (s : State) (x : Switches) : (s.withSw x).bus = s.bus := rfl
@[simp] theorem State.withSw_sch (s : State) (x : Switches) : (s.withSw x).sch = s.sch := rfl
@[simp] theorem State.withSw_sw (s : State) (x : Switches) : (s.withSw x).sw = x := rfl
@[simp] theorem State.withSw_sol (s : State) (x : Switches) : (s.withSw x).sol = s.sol := rfl
@[simp] theorem State.withSw_snd (s : State) (x : Switches) : (s.withSw x).snd = s.snd := rfl
@[simp] theorem State.withSw_lamp (s : State) (x : Switches) : (s.withSw x).lamp = s.lamp := rfl
@[simp] theorem State.withSw_disp (s : State) (x : Switches) : (s.withSw x).disp = s.disp := rfl
@[simp] theorem State.withSw_port (s : State) (x : Switches) : (s.withSw x).port = s.port := rfl
@[simp] theorem State.withSw_inp (s : State) (x : Switches) : (s.withSw x).inp = s.inp := rfl
@[simp] theorem State.withSw_withSw (s : State) (x y : Switches) : (s.withSw x).withSw y = s.withSw y := rfl
@[simp] theorem State.withSw_self (s : State) : s.withSw s.sw = s := rfl

/-! ### withSol -/

@[simp] theorem State.withSol_cfg (s : State) (x : Solenoids) : (s.withSol x).cfg = s.cfg := rfl
@[simp] theorem State.withSol_mode (s : State) (x : Solenoids) : (s.withSol x).mode = s.mode := rfl
@[simp] theorem State.withSol_bus (s : State) (x : Solenoids) : (s.withSol x).bus = s.bus := rfl
@[simp] theorem State.withSol_sch (s : State) (x : Solenoids) : (s.withSol x).sch = s.sch := rfl
@[simp] theorem State.withSol_sw (s : State) (x : Solenoids) : (s.withSol x).sw = s.sw := rfl
@[simp] theorem State.withSol_sol (s : State) (x : Solenoids) : (s.withSol x).sol = x := rfl
@[simp] theorem State.withSol_snd (s : State) (x : Solenoids) : (s.withSol x).snd = s.snd := rfl
@[simp] theorem State.withSol_lamp (s : State) (x : Solenoids) : (s.withSol x).lamp = s.lamp := rfl
@[simp] theorem State.withSol_disp (s : State) (x : Solenoids) : (s.withSol x).disp = s.disp := rfl
@[simp] theorem State.withSol_port (s : State) (x : Solenoids) : (s.withSol x).port = s.port := rfl
@[simp] theorem State.withSol_inp (s : State) (x : Solenoids) : (s.withSol x).inp = s.inp := rfl
@[simp] theorem State.withSol_withSol (s : State) (x y : Solenoids) : (s.withSol x).withSol y = s.withSol y := rfl
@[simp] theorem State.withSol_self (s : State) : s.withSol s.sol = s := rfl

/-! ### withSnd -/

@[simp] theorem State.withSnd_cfg (s : State) (x : Sounds) : (s.withSnd x).cfg = s.cfg := rfl
@[simp] theorem State.withSnd_mode (s : State) (x : Sounds) : (s.withSnd x).mode = s.mode := rfl
@[simp] theorem State.withSnd_bus (s : State) (x : Sounds) : (s.withSnd x).bus = s.bus := rfl
@[simp] theorem State.withSnd_sch (s : State) (x : Sounds) : (s.withSnd x).sch = s.sch := rfl
@[simp] theorem State.withSnd_sw (s : State) (x : Sounds) : (s.withSnd x).sw = s.sw := rfl
@[simp] theorem State.withSnd_sol (s : State) (x : Sounds) : (s.withSnd x).sol = s.sol := rfl
@[simp] theorem State.withSnd_snd (s : State) (x : Sounds) : (s.withSnd x).snd = x := rfl
@[simp] theorem State.withSnd_lamp (s : State) (x : Sounds) : (s.withSnd x).lamp = s.lamp := rfl
@[simp] theorem State.withSnd_disp (s : State) (x : Sounds) : (s.withSnd x).disp = s.disp := rfl
@[simp] theorem State.withSnd_port (s : State) (x : Sounds) : (s.withSnd x).port = s.port := rfl
@[simp] theorem State.withSnd_inp (s : State) (x : Sounds) : (s.withSnd x).inp = s.inp := rfl
@[simp] theorem State.withSnd_withSnd (s : State) (x y : Sounds) : (s.withSnd x).withSnd y = s.withSnd y := rfl
@[simp] theorem State.withSnd_self (s : State) : s.withSnd s.snd = s := rfl

/-! ### withLamp -/

@[simp] theorem State.withLamp_cfg (s : State) (x : Lamps) : (s.withLamp x).cfg = s.cfg := rfl
@[simp] theorem State.withLamp_mode (s : State) (x : Lamps) : (s.withLamp x).mode = s.mode := rfl
@[simp] theorem State.withLamp_bus (s : State) (x : Lamps) : (s.withLamp x).bus = s.bus := rfl
@[simp] theorem State.withLamp_sch (s : State) (x : Lamps) : (s.withLamp x).sch = s.sch := rfl
@[simp] theorem State.withLamp_sw (s : State) (x : Lamps) : (s.withLamp x).sw = s.sw := rfl
@[simp] theorem State.withLamp_sol (s : State) (x : Lamps) : (s.withLamp x).sol = s.sol := rfl
@[simp] theorem State.withLamp_snd (s : State) (x : Lamps) : (s.withLamp x).snd = s.snd := rfl
@[simp] theorem State.withLamp_lamp (s : State) (x : Lamps) : (s.withLamp x).lamp = x := rfl
@[simp] theorem State.withLamp_disp (s : State) (x : Lamps) : (s.withLamp x).disp = s.disp := rfl
@[simp] theorem State.withLamp_port (s : State) (x : Lamps) : (s.withLamp x).port = s.port := rfl
@[simp] theorem State.withLamp_inp (s : State) (x : Lamps) : (s.withLamp x).inp = s.inp := rfl
@[simp] theorem State.withLamp_withLamp (s : State) (x y : Lamps) : (s.withLamp x).withLamp y = s.withLamp y := rfl
@[simp] theorem State.withLamp_self (s : State) : s.withLamp s.lamp = s := rfl

/-! ### withDisp -/

@[simp] theorem State.withDisp_cfg (s : State) (x : Displays) : (s.withDisp x).cfg = s.cfg := rfl
@[simp] theorem State.withDisp_mode (s : State) (x : Displays) : (s.withDisp x).mode = s.mode := rfl
@[simp] theorem State.withDisp_bus (s : State) (x : Displays) : (s.withDisp x).bus = s.bus := rfl
@[simp] theorem State.withDisp_sch (s : State) (x : Displays) : (s.withDisp x).sch = s.sch := rfl
@[simp] theorem State.withDisp_sw (s : State) (x : Displays) : (s.withDisp x).sw = s.sw := rfl
@[simp] theorem State.withDisp_sol (s : State) (x : Displays) : (s.withDisp x).sol = s.sol := rfl
@[simp] theorem State.withDisp_snd (s : State) (x : Displays) : (s.withDisp x).snd = s.snd := rfl
@[simp] theorem State.withDisp_lamp (s : State) (x : Displays) : (s.withDisp x).lamp = s.lamp := rfl
@[simp] theorem State.withDisp_disp (s : State) (x : Displays) : (s.withDisp x).disp = x := rfl
@[simp] theorem State.withDisp_port (s : State) (x : Displays) : (s.withDisp x).port = s.port := rfl
@[simp] theorem State.withDisp_inp (s : State) (x : Displays) : (s.withDisp x).inp = s.inp := rfl
@[simp] theorem State.withDisp_withDisp (s : State) (x y : Displays) : (s.withDisp x).withDisp y = s.withDisp y := rfl
@[simp] theorem State.withDisp_self (s : State) : s.withDisp s.disp = s := rfl

/-! ### withPort -/

@[simp] theorem State.withPort_cfg (s : State) (x : Port) : (s.withPort x).cfg = s.cfg := rfl
@[simp] theorem State.withPort_mode (s : State) (x : Port) : (s.withPort x).mode = s.mode := rfl
@[simp] theorem State.withPort_bus (s : State) (x : Port) : (s.withPort x).bus = s.bus := rfl
@[simp] theorem State.withPort_sch (s : State) (x : Port) : (s.withPort x).sch = s.sch := rfl
@[simp] theorem State.withPort_sw (s : State) (x : Port) : (s.withPort x).sw = s.sw := rfl
@[simp] theorem State.withPort_sol (s : State) (x : Port) : (s.withPort x).sol = s.sol := rfl
@[simp] theorem State.withPort_snd (s : State) (x : Port) : (s.withPort x).snd = s.snd := rfl
@[simp] theorem State.withPort_lamp (s : State) (x : Port) : (s.withPort x).lamp = s.lamp := rfl
@[simp] theorem State.withPort_disp (s : State) (x : Port) : (s.withPort x).disp = s.disp := rfl
@[simp] theorem State.withPort_port (s : State) (x : Port) : (s.withPort x).port = x := rfl
@[simp] theorem State.withPort_inp (s : State) (x : Port) : (s.withPort x).inp = s.inp := rfl
@[simp] theorem State.withPort_withPort (s : State) (x y : Port) : (s.withPort x).withPort y = s.withPort y := rfl
@[simp] theorem State.withPort_self (s : State) : s.withPort s.port = s := rfl

/-! ### withInp -/

@[simp] theorem State.withInp_cfg (s : State) (x : Inputs) : (s.withInp x).cfg = s.cfg := rfl
@[simp] theorem State.withInp_mode (s : State) (x : Inputs) : (s.withInp x).mode = s.mode := rfl
@[simp] theorem State.withInp_bus (s : State) (x : Inputs) : (s.withInp x).bus = s.bus := rfl
@[simp] theorem State.withInp_sch (s : State) (x : Inputs) : (s.withInp x).sch = s.sch := rfl
@[simp] theorem State.withInp_sw (s : State) (x : Inputs) : (s.withInp x).sw = s.sw := rfl
@[simp] theorem State.withInp_sol (s : State) (x : Inputs) : (s.withInp x).sol = s.sol := rfl
@[simp] theorem State.withInp_snd (s : State) (x : Inputs) : (s.withInp x).snd = s.snd := rfl
@[simp] theorem State.withInp_lamp (s : State) (x : Inputs) : (s.withInp x).lamp = s.lamp := rfl
@[simp] theorem State.withInp_disp (s : State) (x : Inputs) : (s.withInp x).disp = s.disp := rfl
@[simp] theorem State.withInp_port (s : State) (x : Inputs) : (s.withInp x).port = s.port := rfl
@[simp] theorem State.withInp_inp (s : State) (x : Inputs) : (s.withInp x).inp = x := rfl
@[simp] theorem State.withInp_withInp (s : State) (x y : Inputs) : (s.withInp x).withInp y = s.withInp y := rfl
@[simp] theorem State.withInp_self (s : State) : s.withInp s.inp = s := rfl

/-! ### respond -/

@[simp] theorem respond_cfg (st : Status) (d : BitVec 16) (s : State) : (respond st d s).cfg = s.cfg := rfl
@[simp] theorem respond_mode (st : Status) (d : BitVec 16) (s : State) : (respond st d s).mode = s.mode := rfl
@[simp] theorem respond_bus (st : Status) (d : BitVec 16) (s : State) : (respond st d s).bus = s.bus := rfl
@[simp] theorem respond_sch (st : Status) (d : BitVec 16) (s : State) : (respond st d s).sch = s.sch := rfl
@[simp] theorem respond_sw (st : Status) (d : BitVec 16) (s : State) : (respond st d s).sw = s.sw := rfl
@[simp] theorem respond_sol (st : Status) (d : BitVec 16) (s : State) : (respond st d s).sol = s.sol := rfl
@[simp] theorem respond_snd (st : Status) (d : BitVec 16) (s : State) : (respond st d s).snd = s.snd := rfl
@[simp] theorem respond_lamp (st : Status) (d : BitVec 16) (s : State) : (respond st d s).lamp = s.lamp := rfl
@[simp] theorem respond_disp (st : Status) (d : BitVec 16) (s : State) : (respond st d s).disp = s.disp := rfl
@[simp] theorem respond_inp (st : Status) (d : BitVec 16) (s : State) : (respond st d s).inp = s.inp := rfl
@[simp] theorem respond_rspValid (st : Status) (d : BitVec 16) (s : State) : (respond st d s).port.rspValid = true := rfl
@[simp] theorem respond_rsp (st : Status) (d : BitVec 16) (s : State) : (respond st d s).port.rsp = responseWord st d := rfl
@[simp] theorem respond_cmds (st : Status) (d : BitVec 16) (s : State) : (respond st d s).port.cmds = s.port.cmds := rfl

/-! ### takeTick and returnFromTick -/

@[simp] theorem takeTick_cfg (s : State) : (takeTick s).cfg = s.cfg := rfl
@[simp] theorem takeTick_mode (s : State) : (takeTick s).mode = s.mode := rfl
@[simp] theorem takeTick_bus (s : State) : (takeTick s).bus = s.bus := rfl
@[simp] theorem takeTick_sw (s : State) : (takeTick s).sw = s.sw := rfl
@[simp] theorem takeTick_sol (s : State) : (takeTick s).sol = s.sol := rfl
@[simp] theorem takeTick_snd (s : State) : (takeTick s).snd = s.snd := rfl
@[simp] theorem takeTick_lamp (s : State) : (takeTick s).lamp = s.lamp := rfl
@[simp] theorem takeTick_disp (s : State) : (takeTick s).disp = s.disp := rfl
@[simp] theorem takeTick_port (s : State) : (takeTick s).port = s.port := rfl
@[simp] theorem takeTick_inp (s : State) : (takeTick s).inp = s.inp := rfl
@[simp] theorem returnFromTick_cfg (s : State) : (returnFromTick s).cfg = s.cfg := rfl
@[simp] theorem returnFromTick_mode (s : State) : (returnFromTick s).mode = s.mode := rfl
@[simp] theorem returnFromTick_bus (s : State) : (returnFromTick s).bus = s.bus := rfl
@[simp] theorem returnFromTick_sw (s : State) : (returnFromTick s).sw = s.sw := rfl
@[simp] theorem returnFromTick_sol (s : State) : (returnFromTick s).sol = s.sol := rfl
@[simp] theorem returnFromTick_snd (s : State) : (returnFromTick s).snd = s.snd := rfl
@[simp] theorem returnFromTick_lamp (s : State) : (returnFromTick s).lamp = s.lamp := rfl
@[simp] theorem returnFromTick_disp (s : State) : (returnFromTick s).disp = s.disp := rfl
@[simp] theorem returnFromTick_port (s : State) : (returnFromTick s).port = s.port := rfl
@[simp] theorem returnFromTick_inp (s : State) : (returnFromTick s).inp = s.inp := rfl
@[simp] theorem takeTick_phase (s : State) : (takeTick s).sch.phase = s.sch.phase := rfl
@[simp] theorem takeTick_tickPend (s : State) : (takeTick s).sch.tickPend = false := rfl
@[simp] theorem returnFromTick_phase (s : State) : (returnFromTick s).sch.phase = !s.sch.phase := rfl
@[simp] theorem returnFromTick_tickPend (s : State) : (returnFromTick s).sch.tickPend = s.sch.tickPend := rfl

end Sys2Proof.Machine
end

