-- ==== Sys2Proof/Laws/Bus.lean ====
section
/-! SUPPORT. What a bus cycle does: one lemma for a completed cycle, one for when a cycle completes. -/

namespace Sys2Proof.Machine

/-! ## chain and forEach -/

@[simp] theorem chain_next (s : State) (f : State → Result) : chain (.next s) f = f s := rfl
@[simp] theorem chain_fault (x : Fault) (f : State → Result) : chain (.fault x) f = .fault x := rfl
@[simp] theorem chain_refused (x : Refusal) (f : State → Result) : chain (.refused x) f = .refused x := rfl

theorem chain_eq_next {r : Result} {f : State → Result} {t : State} :
    chain r f = .next t ↔ ∃ s, r = .next s ∧ f s = .next t := by
  cases r <;> simp

theorem chain_assoc (r : Result) (f g : State → Result) :
    chain (chain r f) g = chain r fun s => chain (f s) g := by
  cases r <;> rfl

@[simp] theorem forEach_nil {α : Type} (f : α → State → Result) (s : State) : forEach f [] s = .next s := rfl

@[simp] theorem forEach_cons {α : Type} (f : α → State → Result) (x : α) (xs : List α) (s : State) :
    forEach f (x :: xs) s = chain (f x s) (forEach f xs) := rfl

@[simp] theorem writeAll_nil (s : State) : writeAll [] s = .next s := rfl

@[simp] theorem writeAll_cons (x : Addr × Byte) (l : List (Addr × Byte)) (s : State) :
    writeAll (x :: l) s = chain (busWrite x.1 x.2 s) (writeAll l) := rfl

/-! ## The clock -/

/-- How many engine samples a wait for a level still can take: scripted samples, then at most two of a toggling clock. -/
theorem clockSample_script (v : Bool) (rest : List Bool) (l r : Bool) :
    clockSample { samples := v :: rest, level := l, running := r } = (v, { samples := rest, level := v, running := r }) := rfl

theorem clockSample_running (l : Bool) :
    clockSample { samples := [], level := l, running := true } = (!l, { samples := [], level := !l, running := true }) := rfl

theorem clockSample_stopped (l : Bool) :
    clockSample { samples := [], level := l, running := false } = (l, { samples := [], level := l, running := false }) := rfl

@[simp] theorem clockSample_keeps_running (c : Clock) : (clockSample c).2.running = c.running := by
  unfold clockSample
  split
  · rfl
  · split <;> rfl

/-! ## The rows of the transition table (`40_bus_engine.md` R104) -/

theorem engineSync_wait {e : BusEngine} (h : (clockSample e.clk).1 = true) :
    engineSync e = { e with clk := (clockSample e.clk).2 } := by
  simp [engineSync, h]

theorem engineSync_raise {e : BusEngine} (h : (clockSample e.clk).1 = false) :
    engineSync e =
      { e with clk := (clockSample e.clk).2, pin := { e.pin with stb := true }, k := 0, st := .strobe } := by
  simp [engineSync, h]

theorem engineStrobe_wait {seq : List Bool} {e : BusEngine} (h : (clockSample e.clk).1 ≠ seq.getD e.k false) :
    engineStrobe seq e = { e with clk := (clockSample e.clk).2 } := by
  simp only [engineStrobe, bne_iff_ne, ne_eq, h, not_false_eq_true, if_true]

theorem engineStrobe_advance {seq : List Bool} {e : BusEngine} (h : (clockSample e.clk).1 = seq.getD e.k false)
    (hk : e.k < seq.length - 1) :
    engineStrobe seq e = { e with clk := (clockSample e.clk).2, k := e.k + 1 } := by
  simp only [engineStrobe, bne_iff_ne, ne_eq, h, not_true_eq_false, if_false, hk, if_true]

theorem engineStrobe_last {seq : List Bool} {e : BusEngine} (h : (clockSample e.clk).1 = seq.getD e.k false)
    (hk : ¬ e.k < seq.length - 1) :
    engineStrobe seq e = engineStrobeEnd { e with clk := (clockSample e.clk).2 } := by
  simp only [engineStrobe, bne_iff_ne, ne_eq, h, not_true_eq_false, if_false, hk]

/-! ## What a cycle has done -/

/-- The relation between the engine when a request has been latched and the engine in a later phase of the same cycle: the
latched request, the history, the ownership pins, the answers and the data read so far. -/
structure InCycle (r : BusRequest) (e0 e : BusEngine) : Prop where
  rw : e.rw = r.rw
  addr : e.addr = r.addr
  wdata : e.wdata = r.wdata
  hist : e.hist = e0.hist
  busOE : e.pin.busOE = e0.pin.busOE
  haltLegacy : e.pin.haltLegacy = e0.pin.haltLegacy
  running : e.clk.running = e0.clk.running
  dataQ : e.st ≠ .addr → e.st ≠ .data → e.pin.dataQ = if r.rw then r.wdata else e0.pin.dataQ
  dataQEarly : e.st = .addr ∨ e.st = .data → e.pin.dataQ = e0.pin.dataQ
  stb : e.st = .release → e.pin.stb = false
  notIdle : e.st ≠ .idle
  before : e.st ≠ .release → e.answers = e0.answers ∧ e.rdata = e0.rdata
  after : e.st = .release → e.answers = (if r.rw then e0.answers else e0.answers.tail) ∧
    e.rdata = if r.rw then e0.rdata else peripheralByte { e0 with addr := r.addr }

/-- The engine after a completed cycle of request `r` begun in `e0`. -/
structure CycleDone (r : BusRequest) (e0 e : BusEngine) : Prop where
  st : e.st = .idle
  rw : e.rw = r.rw
  addr : e.addr = r.addr
  wdata : e.wdata = r.wdata
  rdata : e.rdata = if r.rw then e0.rdata else peripheralByte { e0 with addr := r.addr }
  answers : e.answers = if r.rw then e0.answers else e0.answers.tail
  hist : e.hist = e0.hist ++ [if r.rw then .write r.addr r.wdata else .read r.addr e.rdata]
  pin : e.pin = { busOE := e0.pin.busOE, addrQ := 0, dataQ := if r.rw then r.wdata else e0.pin.dataQ, dataOE := false,
                  we := false, stb := false, haltLegacy := e0.pin.haltLegacy }
  running : e.clk.running = e0.clk.running

theorem InCycle.accept (r : BusRequest) (e : BusEngine) : InCycle r e (engineAccept r e) := by
  constructor <;> simp [engineAccept]

theorem InCycle.step {seq : List Bool} {r : BusRequest} {e0 e : BusEngine} (h : InCycle r e0 e) :
    InCycle r e0 (engineStep seq none e) ∨ CycleDone r e0 (engineStep seq none e) := by
  obtain ⟨hrw, ha, hw, hh, hoe, hhl, hrun, hdq, hdqe, hstb, hni, hb, haf⟩ := h
  have hper : ∀ c : Clock, peripheralByte { e with clk := c } = peripheralByte { e with addr := e.addr } := by
    intro c; rfl
  cases hst : e.st with
  | idle => exact absurd hst hni
  | addr =>
    left
    constructor <;> simp_all [engineStep]
  | data =>
    left
    cases hr : r.rw <;> constructor <;> simp_all [engineStep, engineData]
  | we =>
    left
    constructor <;> simp_all [engineStep]
  | sync =>
    left
    cases hs : (clockSample e.clk).1 <;> constructor <;> simp_all [engineStep, engineSync]
  | strobe =>
    left
    have hs : engineStep seq none e = engineStrobe seq e := by simp [engineStep, hst]
    rw [hs]
    by_cases h1 : (clockSample e.clk).1 = seq.getD e.k false
    · by_cases h2 : e.k < seq.length - 1
      · rw [engineStrobe_advance h1 h2]
        constructor <;> simp_all
      · rw [engineStrobe_last h1 h2]
        cases hr : r.rw <;> constructor <;> simp_all [engineStrobeEnd, peripheralByte]
    · rw [engineStrobe_wait h1]
      constructor <;> simp_all
  | release =>
    right
    have hp := haf hst
    constructor <;> simp_all [engineStep, engineRelease, cycleEvent]

theorem engineRun_done {seq : List Bool} {r : BusRequest} {e0 e' : BusEngine} :
    ∀ (n : Nat) (e : BusEngine), InCycle r e0 e → engineRun seq n e = some e' → CycleDone r e0 e'
  | 0, _, _, h => by simp [engineRun] at h
  | n + 1, e, hi, h => by
    simp only [engineRun] at h
    split at h
    · rename_i hid
      cases h
      rcases hi.step (seq := seq) with h1 | h1
      · exact absurd hid h1.notIdle
      · exact h1
    · rename_i hid
      rcases hi.step (seq := seq) with h1 | h1
      · exact engineRun_done n _ h1 h
      · exact absurd h1.st hid

/-- Everything a completed bus cycle does. -/
theorem busCycle_done {seq : List Bool} {r : BusRequest} {e e' : BusEngine} (h : busCycle seq r e = some e') :
    CycleDone r e e' :=
  engineRun_done _ _ (InCycle.accept r e) h

/-! ## When a cycle completes -/

/-- Samples that awaiting level `b` costs at most, when `n` scripted samples are left: one if the toggling clock shows `b` next. -/
def waitCost (c : Clock) (b : Bool) : Nat := if c.samples = [] ∧ (!c.level) = b then 1 else 2

/-- A bound on the engine steps left in a cycle while the clock runs. -/
def stepsLeft (seq : List Bool) (e : BusEngine) : Nat :=
  let n := e.clk.samples.length
  let levels := max seq.length 1
  match e.st with
  | .idle => 0
  | .addr => n + 2 * levels + waitCost e.clk false + 4
  | .data => n + 2 * levels + waitCost e.clk false + 3
  | .we => n + 2 * levels + waitCost e.clk false + 2
  | .sync => n + 2 * levels + waitCost e.clk false + 1
  | .strobe => n + 2 * (levels - 1 - e.k) + waitCost e.clk (seq.getD e.k false) + 1
  | .release => 1

/-- `bus.k` stays an index of STROBE_WAIT_SEQ (`10_state.md` R23). -/
def kInRange (seq : List Bool) (e : BusEngine) : Prop := e.st = .strobe → e.k ≤ max seq.length 1 - 1

/-- The engine awaits a level that never comes: the script is over, the clock stands still, at the other level. -/
def Stuck (seq : List Bool) (e : BusEngine) : Prop :=
  e.clk.samples = [] ∧ e.clk.running = false ∧
    ((e.st = .sync ∧ e.clk.level = true) ∨ (e.st = .strobe ∧ e.clk.level ≠ seq.getD e.k false))

theorem waitCost_le (c : Clock) (b : Bool) : waitCost c b ≤ 2 := by
  unfold waitCost; split <;> omega

theorem waitCost_pos (c : Clock) (b : Bool) : 1 ≤ waitCost c b := by
  unfold waitCost; split <;> omega

/-- One sample that does not show the awaited level brings the wait nearer its end, or the clock stands still at the other
level. -/
theorem clockSample_miss {c : Clock} {b : Bool} (h : (clockSample c).1 ≠ b) :
    (clockSample c).2.samples.length + waitCost (clockSample c).2 b < c.samples.length + waitCost c b ∨
      (c.samples = [] ∧ c.running = false ∧ c.level ≠ b) := by
  obtain ⟨samples, level, running⟩ := c
  cases samples with
  | cons v rest =>
    left
    have := waitCost_le { samples := rest, level := v, running := running } b
    simp [clockSample, waitCost] at *
    split <;> omega
  | nil =>
    cases running <;> cases level <;> cases b <;> simp_all [clockSample, waitCost]

/-- One sample that shows the awaited level leaves room for the next wait. -/
theorem clockSample_hit {c : Clock} {b : Bool} (h : (clockSample c).1 = b) :
    (clockSample c).2.samples.length + 2 < c.samples.length + 2 + waitCost c b ∧
      (clockSample c).2.samples.length < c.samples.length + waitCost c b := by
  have := waitCost_pos c b
  obtain ⟨samples, level, running⟩ := c
  cases samples with
  | cons v rest => simp [clockSample] at *; omega
  | nil => cases running <;> simp [clockSample] at * <;> omega

theorem stepsLeft_step {seq : List Bool} {e : BusEngine} (hk : kInRange seq e) (hi : e.st ≠ .idle) :
    (stepsLeft seq (engineStep seq none e) < stepsLeft seq e ∧ kInRange seq (engineStep seq none e)) ∨ Stuck seq e := by
  cases hst : e.st with
  | idle => exact absurd hst hi
  | addr => left; simp [engineStep, hst, stepsLeft, kInRange]
  | data => left; cases hr : e.rw <;> simp [engineStep, engineData, hst, hr, stepsLeft, kInRange]
  | we => left; simp [engineStep, hst, stepsLeft, kInRange]
  | release => left; simp [engineStep, engineRelease, hst, stepsLeft, kInRange]
  | sync =>
    have hs : engineStep seq none e = engineSync e := by simp [engineStep, hst]
    rw [hs]
    cases hx : (clockSample e.clk).1 with
    | true =>
      rw [engineSync_wait hx]
      rcases clockSample_miss (c := e.clk) (b := false) (by simp [hx]) with h | ⟨h1, h2, h3⟩
      · left; simp [stepsLeft, kInRange, hst]; omega
      · right; exact ⟨h1, h2, .inl ⟨hst, by simpa using h3⟩⟩
    | false =>
      rw [engineSync_raise hx]
      have h := (clockSample_hit hx).1
      have := waitCost_le (clockSample e.clk).2 (seq.getD 0 false)
      left; simp only [stepsLeft, kInRange, hst]; constructor <;> omega
  | strobe =>
    have hs : engineStep seq none e = engineStrobe seq e := by simp [engineStep, hst]
    have hk' := hk hst
    rw [hs]
    by_cases h1 : (clockSample e.clk).1 = seq.getD e.k false
    · have h := clockSample_hit h1
      by_cases h2 : e.k < seq.length - 1
      · rw [engineStrobe_advance h1 h2]
        have := waitCost_le (clockSample e.clk).2 (seq.getD (e.k + 1) false)
        left; simp only [stepsLeft, kInRange, hst]; constructor <;> omega
      · rw [engineStrobe_last h1 h2]
        have := waitCost_pos e.clk (seq.getD e.k false)
        left; cases e.rw <;> simp [stepsLeft, kInRange, hst, engineStrobeEnd] <;> simp at this <;> omega
    · rw [engineStrobe_wait h1]
      rcases clockSample_miss h1 with h | ⟨h3, h4, h5⟩
      · left; simp only [stepsLeft, kInRange, hst]; constructor <;> omega
      · right; exact ⟨h3, h4, .inr ⟨hst, h5⟩⟩

theorem engineStep_running {seq : List Bool} {e : BusEngine} : (engineStep seq none e).clk.running = e.clk.running := by
  have h := clockSample_keeps_running e.clk
  unfold engineStep engineData engineSync engineStrobe engineStrobeEnd engineRelease
  split <;> (try rfl) <;> dsimp only <;> split <;> (try split) <;> (try split) <;> simp_all

theorem engineRun_completes {seq : List Bool} :
    ∀ (n : Nat) (e : BusEngine), kInRange seq e → e.st ≠ .idle → e.clk.running = true → stepsLeft seq e ≤ n →
      ∃ e', engineRun seq n e = some e'
  | 0, e, _, hi, _, hn => by
    have := waitCost_pos e.clk false
    cases hst : e.st <;> simp [stepsLeft, hst] at hn hi
  | n + 1, e, hk, hi, hr, hn => by
    simp only [engineRun]
    split
    · exact ⟨_, rfl⟩
    · rename_i hni
      rcases stepsLeft_step hk hi with ⟨h1, h2⟩ | h
      · exact engineRun_completes n _ h2 hni (by rw [engineStep_running]; exact hr) (by omega)
      · exact absurd hr (by simp [h.2.1])

/-- While the clock runs every bus cycle completes, for every STROBE_WAIT_SEQ. -/
theorem busCycle_completes {seq : List Bool} {r : BusRequest} {e : BusEngine} (hr : e.clk.running = true) :
    ∃ e', busCycle seq r e = some e' := by
  refine engineRun_completes _ _ ?_ ?_ ?_ ?_
  · intro h; simp [engineAccept] at h
  · simp [engineAccept]
  · simpa [engineAccept] using hr
  · have := waitCost_le e.clk false
    simp [stepsLeft, engineAccept, cycleFuel]; omega

/-! ## The operations over the state -/

/-- Everything BusWrite and BusRead can do when they end. -/
theorem runCycle_next {r : BusRequest} {s t : State} (h : runCycle r s = .next t) :
    ∃ e, t = s.withBus e ∧ CycleDone r s.bus e := by
  unfold runCycle at h
  split at h
  · rename_i e he
    cases h
    exact ⟨e, rfl, busCycle_done he⟩
  · cases h

theorem runCycle_completes {r : BusRequest} {s : State} (hr : s.bus.clk.running = true) :
    ∃ e, runCycle r s = .next (s.withBus e) ∧ CycleDone r s.bus e := by
  obtain ⟨e, he⟩ := busCycle_completes (seq := s.cfg.strobeWaitSeq) (r := r) hr
  exact ⟨e, by simp [runCycle, he], busCycle_done he⟩

theorem busWrite_next {a : Addr} {v : Byte} {s t : State} (h : busWrite a v s = .next t) :
    ∃ e, t = s.withBus e ∧ CycleDone { rw := true, addr := a, wdata := v } s.bus e := runCycle_next h

theorem busRead_next {a : Addr} {s t : State} (h : busRead a s = .next t) :
    ∃ e, t = s.withBus e ∧ CycleDone { rw := false, addr := a, wdata := s.bus.wdata } s.bus e := runCycle_next h

theorem busWrite_completes (a : Addr) (v : Byte) {s : State} (hr : s.bus.clk.running = true) :
    ∃ e, busWrite a v s = .next (s.withBus e) ∧ CycleDone { rw := true, addr := a, wdata := v } s.bus e :=
  runCycle_completes hr

theorem busRead_completes (a : Addr) {s : State} (hr : s.bus.clk.running = true) :
    ∃ e, busRead a s = .next (s.withBus e) ∧ CycleDone { rw := false, addr := a, wdata := s.bus.wdata } s.bus e :=
  runCycle_completes hr

theorem CycleDone.quiet {r : BusRequest} {e e' : BusEngine} (h : CycleDone r e e') : BusQuiet e' := by
  have hp := h.pin
  exact ⟨h.st, by rw [hp], by rw [hp], by rw [hp], by rw [hp]⟩

theorem CycleDone.performed {r : BusRequest} {e e' : BusEngine} (h : CycleDone r e e') :
    Performed [if r.rw then .write r.addr r.wdata else .read r.addr e'.rdata] e e' where
  hist := h.hist
  busOE := by rw [h.pin]
  haltLegacy := by rw [h.pin]
  running := h.running
  quiet := fun _ => h.quiet

theorem Performed.refl (e : BusEngine) : Performed [] e e where
  hist := by simp
  busOE := rfl
  haltLegacy := rfl
  running := rfl
  quiet := id

theorem Performed.trans {a b : List BusEvent} {e1 e2 e3 : BusEngine} (h : Performed a e1 e2) (k : Performed b e2 e3) :
    Performed (a ++ b) e1 e3 where
  hist := by rw [k.hist, h.hist, List.append_assoc]
  busOE := k.busOE.trans h.busOE
  haltLegacy := k.haltLegacy.trans h.haltLegacy
  running := k.running.trans h.running
  quiet := k.quiet ∘ h.quiet

theorem writeAll_next : ∀ {l : List (Addr × Byte)} {s t : State}, writeAll l s = .next t →
    ∃ e, t = s.withBus e ∧ Performed (writesOf l) s.bus e
  | [], s, t, h => by
    cases h
    exact ⟨s.bus, rfl, Performed.refl _⟩
  | x :: l, s, t, h => by
    rw [writeAll_cons, chain_eq_next] at h
    obtain ⟨s1, h1, h2⟩ := h
    obtain ⟨e1, rfl, d1⟩ := busWrite_next h1
    obtain ⟨e2, rfl, d2⟩ := writeAll_next h2
    exact ⟨e2, rfl, d1.performed.trans d2⟩

/-- Writes sample nothing. -/
theorem writeAll_keeps_reads : ∀ {l : List (Addr × Byte)} {s t : State}, writeAll l s = .next t →
    t.bus.answers = s.bus.answers ∧ t.bus.rdata = s.bus.rdata
  | [], s, t, h => by
    cases h
    exact ⟨rfl, rfl⟩
  | x :: l, s, t, h => by
    rw [writeAll_cons, chain_eq_next] at h
    obtain ⟨s1, h1, h2⟩ := h
    obtain ⟨e1, rfl, d1⟩ := busWrite_next h1
    obtain ⟨ha, hr⟩ := writeAll_keeps_reads h2
    exact ⟨ha.trans d1.answers, hr.trans d1.rdata⟩

theorem writeAll_completes : ∀ (l : List (Addr × Byte)) {s : State}, s.bus.clk.running = true →
    ∃ e, writeAll l s = .next (s.withBus e) ∧ Performed (writesOf l) s.bus e
  | [], s, _ => ⟨s.bus, rfl, Performed.refl _⟩
  | x :: l, s, hr => by
    obtain ⟨e1, h1, d1⟩ := busWrite_completes x.1 x.2 hr
    obtain ⟨e2, h2, d2⟩ := writeAll_completes l (s := s.withBus e1) (by simpa using d1.running.trans hr)
    exact ⟨e2, by rw [writeAll_cons, h1, chain_next, h2]; rfl, d1.performed.trans d2⟩

end Sys2Proof.Machine
end

