-- ==== Sys2Proof/Laws/Ops.lean ====
section
/-! SUPPORT. What the shared operations of Machine/Ops.lean can do: the mode test, one bit, the queues, the timed tables, the tick
latch. -/

namespace Sys2Proof.Machine

/-! ## The answer of a command -/

/-- A served command either is refused because the block is in UNINIT, or runs. -/
theorem served_next {s t : State} {r : Result} (h : served s r = .next t) :
    (s.mode = .uninit ∧ t = respond .badMode 0 s) ∨ (s.mode ≠ .uninit ∧ r = .next t) := by
  unfold served at h
  split at h
  · cases h; exact .inl ⟨‹_›, rfl⟩
  · exact .inr ⟨‹_›, h⟩

theorem served_of_ne {s : State} (r : Result) (h : s.mode ≠ .uninit) : served s r = r := by simp [served, h]

theorem served_of_uninit {s : State} (r : Result) (h : s.mode = .uninit) : served s r = .next (respond .badMode 0 s) := by
  simp [served, h, refuse]

/-- The bits of a response word: data, twelve zeros, status (`30_encoding.md` R82). -/
theorem getLsbD_responseWord (st : Status) (d : BitVec 16) (i : Nat) :
    (responseWord st d).getLsbD i =
      if i < 16 then d.getLsbD i else if i < 28 then false else (statusCode st).getLsbD (i - 28) := by
  unfold responseWord
  simp only [BitVec.getLsbD_append]
  by_cases h : i < 16
  · simp only [h, if_true]
  · by_cases h2 : i < 28
    · simp only [h, h2, if_true, if_false, show i - 16 < 12 by omega]
      simp
    · simp only [h, h2, if_false, show ¬ i - 16 < 12 by omega, show i - 16 - 12 = i - 28 by omega]

/-- The response word of a successful command is its data, zero-extended. -/
theorem responseWord_ok (d : BitVec 16) : responseWord .ok d = d.setWidth 32 := by
  apply BitVec.eq_of_getLsbD_eq
  intro i hi
  rw [getLsbD_responseWord]
  rw [BitVec.getLsbD_setWidth]
  by_cases h : i < 16
  · simp [h, hi]
  · simp [h, statusCode, BitVec.getLsbD_of_ge d i (by omega)]

theorem responseWord_status (st : Status) (d : BitVec 16) :
    (responseWord st d).extractLsb' 28 4 = statusCode st := by
  apply BitVec.eq_of_getLsbD_eq
  intro i hi
  rw [BitVec.getLsbD_extractLsb', getLsbD_responseWord]
  simp [hi, show ¬ 28 + i < 16 by omega, show 28 + i - 28 = i by omega]

theorem responseWord_zero (st : Status) (d : BitVec 16) : (responseWord st d).extractLsb' 16 12 = 0 := by
  apply BitVec.eq_of_getLsbD_eq
  intro i hi
  rw [BitVec.getLsbD_extractLsb', getLsbD_responseWord]
  simp [show 16 + i < 28 by omega]

theorem responseWord_data (st : Status) (d : BitVec 16) : (responseWord st d).extractLsb' 0 16 = d := by
  apply BitVec.eq_of_getLsbD_eq
  intro i hi
  rw [BitVec.getLsbD_extractLsb', getLsbD_responseWord]
  simp [hi]

/-! ## Bits -/

/-- Writing one bit writes that bit and no other. -/
theorem getLsbD_setBit {w : Nat} (x : BitVec w) {i j : Nat} (v : Bool) (hj : j < w) :
    (setBit x i v).getLsbD j = if j = i then v else x.getLsbD j := by
  unfold setBit
  cases v <;> by_cases h : j = i
  · subst h; simp [hj]
  · have : ¬ (j - i = 0 ∧ ¬ j < i) := by omega
    simp [h, hj]
    intro _
    by_cases h3 : j < i
    · simp [h3]
    · simp [h3]; omega
  · subst h; simp [hj]
  · simp [h, hj]
    intro h1 h2
    omega

/-! ## Queues -/

/-- A push that succeeds appends, and there was room. -/
theorem push_eq_some {α : Type} {cap : Nat} {q q' : List α} {id : α} {n : BitVec 8} (h : push cap q id n = some q') :
    q' = q ++ List.replicate n.toNat id ∧ n.toNat ≤ cap - q.length := by
  unfold push space at h
  split at h
  · cases h
  · cases h; exact ⟨rfl, by omega⟩

theorem push_of_le {α : Type} {cap : Nat} {q : List α} (id : α) {n : BitVec 8} (h : n.toNat ≤ cap - q.length) :
    push cap q id n = some (q ++ List.replicate n.toNat id) := by
  simp [push, space, Nat.not_lt.2 h]

theorem push_of_lt {α : Type} {cap : Nat} {q : List α} (id : α) {n : BitVec 8} (h : cap - q.length < n.toNat) :
    push cap q id n = none := by
  simp [push, space, h]

theorem pushFront_eq_some {α : Type} {cap : Nat} {q q' : List α} {id : α} {n : BitVec 8}
    (h : pushFront cap q id n = some q') :
    q' = List.replicate n.toNat id ++ q ∧ n.toNat ≤ cap - q.length := by
  unfold pushFront space at h
  split at h
  · cases h
  · cases h; exact ⟨rfl, by omega⟩

theorem pushFront_of_le {α : Type} {cap : Nat} {q : List α} (id : α) {n : BitVec 8} (h : n.toNat ≤ cap - q.length) :
    pushFront cap q id n = some (List.replicate n.toNat id ++ q) := by
  simp [pushFront, space, Nat.not_lt.2 h]

theorem pushFront_of_lt {α : Type} {cap : Nat} {q : List α} (id : α) {n : BitVec 8} (h : cap - q.length < n.toNat) :
    pushFront cap q id n = none := by
  simp [pushFront, space, h]

theorem pull_snd {α : Type} (q : List α) : (pull q).2 = q.tail := by cases q <;> rfl

theorem pull_fst {α : Type} (q : List α) : (pull q).1 = q.head? := by cases q <;> rfl

/-! ## Timed tables -/

/-- A full table takes no entry; else the entry replaces the lowest free slot. -/
theorem schedule_some {w : Nat} {e : TimedEntry w} : ∀ {t t' : List (TimedEntry w)}, schedule e t = some t' →
    ∃ pre x post, t = pre ++ x :: post ∧ (∀ y ∈ pre, y.used = true) ∧ x.used = false ∧ t' = pre ++ e :: post
  | [], _, h => by cases h
  | x :: t, t', h => by
    unfold schedule at h
    split at h
    · rename_i hx
      simp only [Option.map_eq_some_iff] at h
      obtain ⟨t1, h1, rfl⟩ := h
      obtain ⟨pre, y, post, rfl, h2, h3, rfl⟩ := schedule_some h1
      refine ⟨x :: pre, y, post, rfl, ?_, h3, rfl⟩
      intro z hz
      rcases List.mem_cons.1 hz with rfl | hz
      · exact hx
      · exact h2 z hz
    · rename_i hx
      cases h
      exact ⟨[], x, t, rfl, by simp, by simpa using hx, rfl⟩

theorem schedule_length {w : Nat} {e : TimedEntry w} {t t' : List (TimedEntry w)} (h : schedule e t = some t') :
    t'.length = t.length := by
  obtain ⟨pre, x, post, rfl, _, _, rfl⟩ := schedule_some h
  simp

theorem timedTick_nil {w : Nat} (cap : Nat) (now : Time) (adm : TimedEntry w → Bool) (q : List (BitVec w)) :
    timedTick cap now adm [] q = ([], q) := rfl

theorem timedTick_due {w : Nat} {cap : Nat} {now : Time} {adm : TimedEntry w → Bool} {e : TimedEntry w}
    (t : List (TimedEntry w)) (q : List (BitVec w)) (h : due now e = true) :
    timedTick cap now adm (e :: t) q =
      ({ e with used := false } :: (timedTick cap now adm t (if adm e then (push cap q e.id e.rep).getD q else q)).1,
        (timedTick cap now adm t (if adm e then (push cap q e.id e.rep).getD q else q)).2) := by
  simp [timedTick, h]

theorem timedTick_not_due {w : Nat} {cap : Nat} {now : Time} {adm : TimedEntry w → Bool} {e : TimedEntry w}
    (t : List (TimedEntry w)) (q : List (BitVec w)) (h : due now e = false) :
    timedTick cap now adm (e :: t) q = (e :: (timedTick cap now adm t q).1, (timedTick cap now adm t q).2) := by
  simp [timedTick, h]

/-- The queue after a timed tick: the slots in order, each due and admitted entry pushed whole where there is room. -/
theorem timedTick_snd {w : Nat} (cap : Nat) (now : Time) (adm : TimedEntry w → Bool) :
    ∀ (t : List (TimedEntry w)) (q : List (BitVec w)),
      (timedTick cap now adm t q).2 =
        t.foldl (fun q e => if due now e = true ∧ adm e = true then (push cap q e.id e.rep).getD q else q) q
  | [], q => rfl
  | e :: t, q => by
    unfold timedTick
    rw [List.foldl_cons, ← timedTick_snd cap now adm t]
    by_cases h : due now e = true <;> simp [h]

/-- The table after a timed tick: every due slot is free, the others as they were; the queue plays no part. -/
theorem timedTick_fst {w : Nat} (cap : Nat) (now : Time) (adm : TimedEntry w → Bool) :
    ∀ (t : List (TimedEntry w)) (q : List (BitVec w)),
      (timedTick cap now adm t q).1 = t.map fun e => if due now e then { e with used := false } else e
  | [], _ => rfl
  | e :: t, q => by
    cases h : due now e
    · rw [timedTick_not_due t q h, List.map_cons, timedTick_fst cap now adm t]; simp [h]
    · rw [timedTick_due t q h, List.map_cons, timedTick_fst cap now adm t]; simp [h]

/-- The queue after one entry comes due: grown at its tail, within its capacity if it was. -/
theorem promoted_cases {w : Nat} (cap : Nat) (a : Bool) (q : List (BitVec w)) (id : BitVec w) (n : BitVec 8) :
    (if a then (push cap q id n).getD q else q) = q ∨
      (n.toNat ≤ cap - q.length ∧ (if a then (push cap q id n).getD q else q) = q ++ List.replicate n.toNat id) := by
  cases a
  · exact .inl rfl
  · by_cases h : n.toNat ≤ cap - q.length
    · exact .inr ⟨h, by simp [push_of_le id h]⟩
    · exact .inl (by simp [push_of_lt id (Nat.lt_of_not_le h)])

/-- A timed tick with nothing due does nothing. -/
theorem timedTick_none_due {w : Nat} (cap : Nat) (now : Time) (adm : TimedEntry w → Bool) :
    ∀ (t : List (TimedEntry w)) (q : List (BitVec w)), (∀ e ∈ t, due now e = false) → timedTick cap now adm t q = (t, q)
  | [], _, _ => rfl
  | e :: t, q, h => by
    rw [timedTick_not_due t q (h e (by simp)), timedTick_none_due cap now adm t q fun x hx => h x (by simp [hx])]

theorem timedTick_append {w : Nat} (cap : Nat) (now : Time) (adm : TimedEntry w → Bool) :
    ∀ (t u : List (TimedEntry w)) (q : List (BitVec w)),
      timedTick cap now adm (t ++ u) q =
        ((timedTick cap now adm t q).1 ++ (timedTick cap now adm u (timedTick cap now adm t q).2).1,
          (timedTick cap now adm u (timedTick cap now adm t q).2).2)
  | [], _, _ => rfl
  | e :: t, u, q => by
    cases h : due now e
    · rw [List.cons_append, timedTick_not_due _ q h, timedTick_append cap now adm t, timedTick_not_due _ q h]; rfl
    · rw [List.cons_append, timedTick_due _ q h, timedTick_append cap now adm t, timedTick_due _ q h]; rfl

/-! ## The tick latch -/

@[simp] theorem tickPulse_keeps (s : State) :
    (tickPulse s).cfg = s.cfg ∧ (tickPulse s).mode = s.mode ∧ (tickPulse s).bus = s.bus ∧ (tickPulse s).sw = s.sw ∧
      (tickPulse s).sol = s.sol ∧ (tickPulse s).snd = s.snd ∧ (tickPulse s).lamp = s.lamp ∧ (tickPulse s).disp = s.disp ∧
      (tickPulse s).port = s.port ∧ (tickPulse s).inp = s.inp ∧ (tickPulse s).sch.phase = s.sch.phase := by
  unfold tickPulse; split <;> simp

theorem tickPulse_of_ne {s : State} (h : s.mode ≠ .run) : tickPulse s = s := by simp [tickPulse, h]

theorem tickPulse_of_run {s : State} (h : s.mode = .run) :
    tickPulse s = s.withSch { s.sch with tickPend := true } := by simp [tickPulse, h]

theorem tickPulses_keeps : ∀ (n : Nat) (s : State), ∃ b, tickPulses n s = s.withSch { s.sch with tickPend := b }
  | 0, s => ⟨s.sch.tickPend, rfl⟩
  | n + 1, s => by
    obtain ⟨b, hb⟩ := tickPulses_keeps n (tickPulse s)
    refine ⟨b, ?_⟩
    rw [tickPulses, hb]
    unfold tickPulse
    split <;> rfl

end Sys2Proof.Machine
end

