-- ==== Sys2Proof/Laws/Commands.lean ====
section
/-! SUPPORT. What the operations the commands call can do: the flash recomputation, the timed ticks of the two tables, one lamp's
bit, the digits and masks of a display field, the states INIT goes through. -/

namespace Sys2Proof.Machine

/-! ## The operations of UPDATE, field by field -/

@[simp] theorem flashRecompute_cfg (now : Time) (s : State) : (flashRecompute now s).cfg = s.cfg :=
  State.withLamp_cfg s _
@[simp] theorem flashRecompute_mode (now : Time) (s : State) : (flashRecompute now s).mode = s.mode :=
  State.withLamp_mode s _
@[simp] theorem flashRecompute_bus (now : Time) (s : State) : (flashRecompute now s).bus = s.bus :=
  State.withLamp_bus s _
@[simp] theorem flashRecompute_sch (now : Time) (s : State) : (flashRecompute now s).sch = s.sch :=
  State.withLamp_sch s _
@[simp] theorem flashRecompute_sw (now : Time) (s : State) : (flashRecompute now s).sw = s.sw :=
  State.withLamp_sw s _
@[simp] theorem flashRecompute_sol (now : Time) (s : State) : (flashRecompute now s).sol = s.sol :=
  State.withLamp_sol s _
@[simp] theorem flashRecompute_snd (now : Time) (s : State) : (flashRecompute now s).snd = s.snd :=
  State.withLamp_snd s _
@[simp] theorem flashRecompute_disp (now : Time) (s : State) : (flashRecompute now s).disp = s.disp :=
  State.withLamp_disp s _
@[simp] theorem flashRecompute_port (now : Time) (s : State) : (flashRecompute now s).port = s.port :=
  State.withLamp_port s _
@[simp] theorem flashRecompute_inp (now : Time) (s : State) : (flashRecompute now s).inp = s.inp :=
  State.withLamp_inp s _
@[simp] theorem flashRecompute_lamp (now : Time) (s : State) :
    (flashRecompute now s).lamp = lampIds.foldl (flashOne s.cfg now) s.lamp :=
  State.withLamp_lamp s _

@[simp] theorem timedTickSol_cfg (now : Time) (s : State) : (timedTickSol now s).cfg = s.cfg := rfl
@[simp] theorem timedTickSol_mode (now : Time) (s : State) : (timedTickSol now s).mode = s.mode := rfl
@[simp] theorem timedTickSol_bus (now : Time) (s : State) : (timedTickSol now s).bus = s.bus := rfl
@[simp] theorem timedTickSol_sch (now : Time) (s : State) : (timedTickSol now s).sch = s.sch := rfl
@[simp] theorem timedTickSol_sw (now : Time) (s : State) : (timedTickSol now s).sw = s.sw := rfl
@[simp] theorem timedTickSol_snd (now : Time) (s : State) : (timedTickSol now s).snd = s.snd := rfl
@[simp] theorem timedTickSol_lamp (now : Time) (s : State) : (timedTickSol now s).lamp = s.lamp := rfl
@[simp] theorem timedTickSol_disp (now : Time) (s : State) : (timedTickSol now s).disp = s.disp := rfl
@[simp] theorem timedTickSol_port (now : Time) (s : State) : (timedTickSol now s).port = s.port := rfl
@[simp] theorem timedTickSol_inp (now : Time) (s : State) : (timedTickSol now s).inp = s.inp := rfl
@[simp] theorem timedTickSol_en (now : Time) (s : State) : (timedTickSol now s).sol.en = s.sol.en := rfl
@[simp] theorem timedTickSol_firing (now : Time) (s : State) : (timedTickSol now s).sol.firing = s.sol.firing := rfl
@[simp] theorem timedTickSol_cont (now : Time) (s : State) : (timedTickSol now s).sol.cont = s.sol.cont := rfl
@[simp] theorem timedTickSol_q (now : Time) (s : State) : (timedTickSol now s).sol.q =
    (timedTick s.cfg.solQCap now (fun e => s.sol.en || e.ovr) s.sol.t s.sol.q).2 := rfl
@[simp] theorem timedTickSol_t (now : Time) (s : State) : (timedTickSol now s).sol.t =
    (timedTick s.cfg.solQCap now (fun e => s.sol.en || e.ovr) s.sol.t s.sol.q).1 := rfl

@[simp] theorem timedTickSnd_cfg (now : Time) (s : State) : (timedTickSnd now s).cfg = s.cfg := rfl
@[simp] theorem timedTickSnd_mode (now : Time) (s : State) : (timedTickSnd now s).mode = s.mode := rfl
@[simp] theorem timedTickSnd_bus (now : Time) (s : State) : (timedTickSnd now s).bus = s.bus := rfl
@[simp] theorem timedTickSnd_sch (now : Time) (s : State) : (timedTickSnd now s).sch = s.sch := rfl
@[simp] theorem timedTickSnd_sw (now : Time) (s : State) : (timedTickSnd now s).sw = s.sw := rfl
@[simp] theorem timedTickSnd_sol (now : Time) (s : State) : (timedTickSnd now s).sol = s.sol := rfl
@[simp] theorem timedTickSnd_lamp (now : Time) (s : State) : (timedTickSnd now s).lamp = s.lamp := rfl
@[simp] theorem timedTickSnd_disp (now : Time) (s : State) : (timedTickSnd now s).disp = s.disp := rfl
@[simp] theorem timedTickSnd_port (now : Time) (s : State) : (timedTickSnd now s).port = s.port := rfl
@[simp] theorem timedTickSnd_inp (now : Time) (s : State) : (timedTickSnd now s).inp = s.inp := rfl
@[simp] theorem timedTickSnd_q (now : Time) (s : State) : (timedTickSnd now s).snd.q =
    (timedTick s.cfg.sndQCap now (fun _ => true) s.snd.t s.snd.q).2 := rfl
@[simp] theorem timedTickSnd_t (now : Time) (s : State) : (timedTickSnd now s).snd.t =
    (timedTick s.cfg.sndQCap now (fun _ => true) s.snd.t s.snd.q).1 := rfl

/-- UPDATE while it is served, in one equation. -/
theorem execUpdate_eq (now : Time) {s : State} (h : s.mode ≠ .uninit) :
    execUpdate now s = .next (respond .ok 0 (timedTickSnd now (timedTickSol now (flashRecompute now s)))) :=
  served_of_ne _ h

/-! ## Lamps -/

/-- Writing one lamp's bit writes that lamp and no other. -/
theorem lampGet_lampPut (v : Vector Byte 8) (i j : Fin 64) (b : Bool) :
    lampGet (lampPut v i b) j = if j = i then b else lampGet v j := by
  unfold lampGet lampPut
  by_cases hb : lampBank j = lampBank i
  · have hbit : lampBit j < 8 := Nat.mod_lt _ (by decide)
    have hsame : (v.set (lampBank i) (setBit v[lampBank i] (lampBit i) b))[lampBank j] =
        setBit v[lampBank i] (lampBit i) b := by
      have hv : (lampBank i).val = (lampBank j).val := by rw [hb]
      simp only [Fin.getElem_fin, Vector.getElem_set, hv, if_true]
    rw [hsame, getLsbD_setBit _ _ hbit]
    have : lampBit j = lampBit i ↔ j = i := by
      simp only [lampBit, lampBank, Fin.ext_iff] at hb ⊢
      omega
    simp only [this, hb]
  · have hne : j ≠ i := fun h => hb (by rw [h])
    have hother : (v.set (lampBank i) (setBit v[lampBank i] (lampBit i) b))[lampBank j] = v[lampBank j] := by
      simp only [Fin.getElem_fin]
      rw [Vector.getElem_set_ne]
      intro h
      exact hb (Fin.ext h.symm)
    rw [hother]
    simp [hne]

/-- The recomputation of some lamps writes on bits only. -/
theorem flashFold_frame (c : Config) (now : Time) : ∀ (ids : List (Fin 64)) (l : Lamps),
    ids.foldl (flashOne c now) l = { l with on := (ids.foldl (flashOne c now) l).on }
  | [], _ => rfl
  | i :: ids, l => by
    rw [List.foldl_cons, flashFold_frame c now ids]
    unfold flashOne
    split <;> rfl

theorem flashOne_on (c : Config) (now : Time) (l : Lamps) (i j : Fin 64) :
    lampGet (flashOne c now l i).on j =
      if j = i ∧ l.fp[i] ≠ 0 then flashLit c l.fp[i] now else lampGet l.on j := by
  unfold flashOne
  by_cases h : l.fp[i] = 0
  · simp only [h, if_true, ne_eq, not_true_eq_false, and_false, if_false]
  · simp only [h, if_false, ne_eq, not_false_eq_true, and_true, lampGet_lampPut]

theorem flashOne_fp (c : Config) (now : Time) (l : Lamps) (i : Fin 64) : (flashOne c now l i).fp = l.fp := by
  unfold flashOne; split <;> rfl

/-- The bank of a lamp and its bit in the bank count up with the lamp. -/
theorem lampBank_lampBit (i : Fin 64) : i.val = 8 * (lampBank i).val + lampBit i := by
  simp only [lampBank, lampBit]; omega

/-! ## Display fields -/

theorem fieldOf_ofNat (f : Fin 6) : fieldOf (BitVec.ofNat 8 f.val) = f := by
  revert f; decide

theorem digitCode_toNat (value W p : Nat) : (digitCode value W p).toNat = value / 10 ^ (W - 1 - p) % 10 := by
  simp only [digitCode, BitVec.toNat_ofNat]
  omega

theorem digitCodes_length (value W : Nat) : (digitCodes value W).length = W := by simp [digitCodes]

/-- The digit codes of a field of width `W + 1` are those of the value without its last digit, and then the last digit. -/
theorem digitCodes_succ (value W : Nat) :
    digitCodes value (W + 1) = digitCodes (value / 10) W ++ [BitVec.ofNat 8 (value % 10)] := by
  simp only [digitCodes, List.range_succ, List.map_append, List.map_cons, List.map_nil]
  congr 1
  · apply List.map_congr_left
    intro p hp
    have hp : p < W := List.mem_range.1 hp
    simp only [digitCode]
    rw [show W + 1 - 1 - p = (W - 1 - p) + 1 by omega, pow_succ', Nat.div_div_eq_div_mul]
  · simp [digitCode]

/-- Bit `p` of the mask of the rightmost positions. -/
theorem getLsbD_rightMask {W active : Nat} (hW : W ≤ 8) (ha : active ≤ W) (p : Nat) :
    (rightMask W active).getLsbD p = decide (W - active ≤ p ∧ p < W) := by
  simp only [rightMask, BitVec.getLsbD_ofNat]
  rw [← Nat.shiftLeft_eq, Nat.testBit_shiftLeft, Nat.testBit_two_pow_sub_one]
  by_cases h1 : p < 8 <;> by_cases h2 : W - active ≤ p <;> by_cases h3 : p < W <;>
    simp [h1, h2, h3] <;> omega

/-! ## INIT -/

/-- What ClearAllState leaves alone. -/
theorem clearAllState_keeps (s : State) :
    (clearAllState s).cfg = s.cfg ∧ (clearAllState s).mode = s.mode ∧ (clearAllState s).port = s.port ∧
      (clearAllState s).inp = s.inp ∧ (clearAllState s).bus.hist = s.bus.hist ∧
      (clearAllState s).bus.clk = s.bus.clk ∧ (clearAllState s).bus.answers = s.bus.answers ∧
      (clearAllState s).bus.pin.busOE = s.bus.pin.busOE ∧
      (clearAllState s).bus.pin.haltLegacy = s.bus.pin.haltLegacy := ⟨rfl, rfl, rfl, rfl, rfl, rfl, rfl, rfl, rfl⟩

/-- A cleared timed table has its slots, every one free. -/
theorem clearTable_free {w : Nat} (cap : Nat) (t : List (TimedEntry w)) :
    (clearTable cap t).length = cap ∧ ∀ e ∈ clearTable cap t, e.used = false := by
  constructor
  · simp [clearTable]
  · intro e he
    simp only [clearTable, List.mem_map] at he
    obtain ⟨i, _, rfl⟩ := he
    rfl

/-- INIT in UNINIT without passthrough is the writes of INIT_SEQ on the cleared machine, then RUN and the answer. -/
theorem execInit_configure (credit : BitVec 8) {s : State} (hm : s.mode = .uninit) (hb : s.inp.bootOrigReq = false) :
    execInit credit s =
      chain (writeAll s.cfg.initSeq (ownBus (clearAllState (setHaltLegacy true s)))) fun s =>
        .next (respond .ok 0 (s.withMode .run)) := by
  have hb' : (setHaltLegacy true s).inp.bootOrigReq = false := hb
  simp only [execInit, hm, ne_eq, not_true_eq_false, if_false, hb', Bool.false_eq_true]
  rfl

end Sys2Proof.Machine
end

