-- ==== Sys2Proof/Laws/Config.lean ====
section
/-! SUPPORT. The parameters whose value `00_scope.md` R5 states: that the types of State are sized by them, and what the
definitions that read them come to. -/

namespace Sys2Proof

@[simp] theorem Stated.value_eq {n : Nat} (x : Stated n) : x.value = n := x.eq

theorem Config.addrW_sizes_addr (c : Config) : BitVec c.addrW.value = Addr := by rw [Stated.value_eq]

theorem Config.dataW_sizes_byte (c : Config) : BitVec c.dataW.value = Byte := by rw [Stated.value_eq]

theorem Config.contW_sizes_solId (c : Config) : c.contW.value = 2 ^ 4 := c.contW.eq

theorem Config.nSwitches_eq_columns_by_rows (c : Config) : c.nSwitches.value = c.nCols.value * c.nRows.value := by simp

@[simp] theorem Config.nFields_eq (c : Config) : c.nFields = 6 := by simp [Config.nFields]

theorem Config.fieldWidth_eq (c : Config) (f : Nat) : c.fieldWidth f = if f < 4 then c.displayDigits else 2 := by
  simp [Config.fieldWidth]

namespace Machine

/-- `sw.now`, `sw.prev` and `sw.ago` are HISTORY_GENERATIONS generations of N_COLS columns. -/
theorem switch_history_sizes (s : State) :
    [s.sw.now, s.sw.prev, s.sw.ago].length = s.cfg.historyGenerations.value ∧ s.sw.now.size = s.cfg.nCols.value := by
  rw [Stated.value_eq, Stated.value_eq]
  exact ⟨rfl, rfl⟩

@[simp] theorem columns_eq (c : Config) : columns c = List.finRange 8 := by
  unfold columns
  rw [Stated.value_eq]
  decide

@[simp] theorem rows_eq (c : Config) : rows c = List.range 8 := by
  rw [rows, Stated.value_eq]

@[simp] theorem nextSlot_eq (c : Config) (slot : Fin 16) : nextSlot c slot = slot + 1 := by
  ext
  simp [nextSlot, Fin.val_add]

end Machine

end Sys2Proof
end

