-- ==== Sys2Proof/Laws/Encoding.lean ====
section
/-! SUPPORT. The fields of a packed command word, and what a decoded command says about its word. -/

namespace Sys2Proof

/-- The bits of a packed command word: `w`, the flag, seven zeros, `b`, `a`, `op` (`30_encoding.md` R80). -/
theorem getLsbD_packCommand (op a b : BitVec 8) (f0 : Bool) (w : BitVec 32) (k : Nat) :
    (packCommand op a b f0 w).getLsbD k =
      if k < 32 then w.getLsbD k
      else if k = 32 then f0
      else if k < 40 then false
      else if k < 48 then b.getLsbD (k - 40)
      else if k < 56 then a.getLsbD (k - 48)
      else op.getLsbD (k - 56) := by
  unfold packCommand
  simp only [BitVec.getLsbD_append]
  by_cases h32 : k < 32
  · simp only [h32, if_true]
  · by_cases he : k = 32
    · subst he; simp
    · by_cases h40 : k < 40
      · simp only [h32, he, h40, if_true, if_false, show ¬ k - 32 < 1 by omega, show k - 32 - 1 < 7 by omega]
        simp
      · by_cases h48 : k < 48
        · simp only [h32, he, h40, h48, if_true, if_false, show ¬ k - 32 < 1 by omega, show ¬ k - 32 - 1 < 7 by omega,
            show k - 32 - 1 - 7 = k - 40 by omega, show k - 40 < 8 by omega]
        · by_cases h56 : k < 56
          · simp only [h32, he, h40, h48, h56, if_true, if_false, show ¬ k - 32 < 1 by omega,
              show ¬ k - 32 - 1 < 7 by omega, show ¬ k - 32 - 1 - 7 < 8 by omega,
              show k - 32 - 1 - 7 - 8 = k - 48 by omega, show k - 48 < 8 by omega]
          · simp only [h32, he, h40, h48, h56, if_false, show ¬ k - 32 < 1 by omega,
              show ¬ k - 32 - 1 < 7 by omega, show ¬ k - 32 - 1 - 7 < 8 by omega,
              show ¬ k - 32 - 1 - 7 - 8 < 8 by omega, show k - 32 - 1 - 7 - 8 - 8 = k - 56 by omega]

@[simp] theorem fieldOp_packCommand (op a b : BitVec 8) (f0 : Bool) (w : BitVec 32) :
    fieldOp (packCommand op a b f0 w) = op := by
  apply BitVec.eq_of_getLsbD_eq
  intro i hi
  rw [fieldOp, BitVec.getLsbD_extractLsb', getLsbD_packCommand]
  simp [hi, show ¬ 56 + i < 32 by omega, show ¬ 56 + i = 32 by omega, show ¬ 56 + i < 40 by omega,
    show ¬ 56 + i < 48 by omega]

@[simp] theorem fieldA_packCommand (op a b : BitVec 8) (f0 : Bool) (w : BitVec 32) :
    fieldA (packCommand op a b f0 w) = a := by
  apply BitVec.eq_of_getLsbD_eq
  intro i hi
  rw [fieldA, BitVec.getLsbD_extractLsb', getLsbD_packCommand]
  simp [hi, show ¬ 48 + i < 32 by omega, show ¬ 48 + i = 32 by omega, show ¬ 48 + i < 40 by omega,
    show 48 + i < 56 by omega]

@[simp] theorem fieldB_packCommand (op a b : BitVec 8) (f0 : Bool) (w : BitVec 32) :
    fieldB (packCommand op a b f0 w) = b := by
  apply BitVec.eq_of_getLsbD_eq
  intro i hi
  rw [fieldB, BitVec.getLsbD_extractLsb', getLsbD_packCommand]
  simp [hi, show ¬ 40 + i < 32 by omega, show ¬ 40 + i = 32 by omega, show 40 + i < 48 by omega]

@[simp] theorem fieldF0_packCommand (op a b : BitVec 8) (f0 : Bool) (w : BitVec 32) :
    fieldF0 (packCommand op a b f0 w) = f0 := by
  rw [fieldF0, getLsbD_packCommand]
  simp

@[simp] theorem fieldW_packCommand (op a b : BitVec 8) (f0 : Bool) (w : BitVec 32) :
    fieldW (packCommand op a b f0 w) = w := by
  apply BitVec.eq_of_getLsbD_eq
  intro i hi
  rw [fieldW, BitVec.getLsbD_extractLsb', getLsbD_packCommand]
  simp [hi]

/-- The decoder selects by the operation code: a decoded command has the word's (`30_encoding.md` R85). -/
theorem fieldOp_of_decode {w : CmdWord} {i : Instr} (h : decode w = .ok i) : fieldOp w = i.opcode := by
  have e : ∀ n, (fieldOp w).toNat = n → fieldOp w = BitVec.ofNat 8 n := fun n h => by rw [← h]; simp
  unfold decode at h
  split at h <;> cases h <;> (rename_i hn; rw [e _ hn]; rfl)

end Sys2Proof
end

