-- ==== Sys2Proof/Laws/Handler.lean ====
section
/-! SUPPORT. What the steps of the tick handler can do: for each, one lemma for what it has done when it ends, and one that it ends
while the clock runs; the tick latch around a step; what the arbiter chooses. -/

namespace Sys2Proof.Machine

/-! ## Sequencing -/

/-- A rule of two steps ends when the first ends and the second ends on what the first leaves. -/
theorem chain_ends {r : Result} {f : State → Result} (h : ∃ s, r = .next s)
    (k : ∀ s, r = .next s → ∃ t, f s = .next t) : ∃ t, chain r f = .next t := by
  obtain ⟨s, hs⟩ := h
  obtain ⟨t, ht⟩ := k s hs
  exact ⟨t, by rw [hs, chain_next, ht]⟩

theorem busWrite_ends (a : Addr) (v : Byte) {s : State} (hr : s.bus.clk.running = true) : ∃ t, busWrite a v s = .next t :=
  (busWrite_completes a v hr).imp' _ fun _ h => h.1

theorem busRead_ends (a : Addr) {s : State} (hr : s.bus.clk.running = true) : ∃ t, busRead a s = .next t :=
  (busRead_completes a hr).imp' _ fun _ h => h.1

theorem writeAll_ends (l : List (Addr × Byte)) {s : State} (hr : s.bus.clk.running = true) :
    ∃ t, writeAll l s = .next t :=
  (writeAll_completes l hr).imp' _ fun _ h => h.1

/-- A write has been performed. -/
theorem busWrite_performed {a : Addr} {v : Byte} {s t : State} (h : busWrite a v s = .next t) :
    ∃ e, t = s.withBus e ∧ Performed [.write a v] s.bus e := by
  obtain ⟨e, rfl, d⟩ := busWrite_next h
  exact ⟨e, rfl, d.performed⟩

/-- A write takes nothing from what the environment has for later reads. -/
theorem busWrite_answers {a : Addr} {v : Byte} {s t : State} (h : busWrite a v s = .next t) :
    t.bus.answers = s.bus.answers := by
  obtain ⟨e, rfl, d⟩ := busWrite_next h
  exact d.answers

/-- A read has been performed, once, and `bus.rdata` is what the environment drove. -/
theorem busRead_performed {a : Addr} {s t : State} (h : busRead a s = .next t) :
    ∃ e, t = s.withBus e ∧ Performed [.read a e.rdata] s.bus e ∧
      e.rdata = s.bus.answers.headD (Config.oracle s.bus.hist a) ∧ e.answers = s.bus.answers.tail := by
  obtain ⟨e, rfl, d⟩ := busRead_next h
  refine ⟨e, rfl, d.performed, ?_, d.answers⟩
  rw [d.rdata]
  simp only [Bool.false_eq_true, if_false, peripheralByte]
  cases s.bus.answers <;> rfl

/-! ## The input phase -/

theorem diagStep_next {s t : State} (h : diagStep s = .next t) :
    ∃ e, t = diagSample e.rdata (s.withBus e) ∧ Performed [.read s.cfg.addrMap.aDiagStatus e.rdata] s.bus e ∧
      e.rdata = s.bus.answers.headD (Config.oracle s.bus.hist s.cfg.addrMap.aDiagStatus) ∧
      e.answers = s.bus.answers.tail := by
  rw [diagStep, chain_eq_next] at h
  obtain ⟨s1, h1, h2⟩ := h
  obtain ⟨e, rfl, p, hv⟩ := busRead_performed h1
  cases h2
  exact ⟨e, rfl, p, hv⟩

theorem diagStep_ends {s : State} (hr : s.bus.clk.running = true) : ∃ t, diagStep s = .next t :=
  chain_ends (busRead_ends _ hr) fun _ _ => ⟨_, rfl⟩

/-- The diagnostic sample writes `sw.q` and `sw.diag_hold` only. -/
theorem diagSample_frame (v : Byte) (s : State) :
    diagSample v s = s.withSw { s.sw with q := (diagSample v s).sw.q, diagHold := (diagSample v s).sw.diagHold } := by
  unfold diagSample
  split
  · split <;> rfl
  · split <;> rfl

/-- The diagnostic sample in full: the queue gains the diagnostic identifier on an active sample of a released line, if it is not
queued and there is room; the hold is reloaded, or counted down to 0. -/
theorem diagSample_eq (v : Byte) (s : State) :
    diagSample v s = s.withSw
      { s.sw with
        q := if v &&& s.cfg.diagStatusMask ≠ 0 ∧ s.sw.diagHold = 0 ∧ diagSwitchId ∉ s.sw.q ∧
          s.sw.q.length < s.cfg.swQCap then s.sw.q ++ [diagSwitchId] else s.sw.q
        diagHold := if v &&& s.cfg.diagStatusMask ≠ 0 then s.cfg.diagReleaseTicks else s.sw.diagHold - 1 } := by
  have hsw : (diagSample v s).sw =
      { s.sw with
        q := if v &&& s.cfg.diagStatusMask ≠ 0 ∧ s.sw.diagHold = 0 ∧ diagSwitchId ∉ s.sw.q ∧
          s.sw.q.length < s.cfg.swQCap then s.sw.q ++ [diagSwitchId] else s.sw.q
        diagHold := if v &&& s.cfg.diagStatusMask ≠ 0 then s.cfg.diagReleaseTicks else s.sw.diagHold - 1 } := by
    unfold diagSample diagActive enqueue enqueueInto
    by_cases h1 : v &&& s.cfg.diagStatusMask = 0#8
    · by_cases h2 : 0 < s.sw.diagHold
      · simp [h1, h2]
      · have h0 : s.sw.diagHold = 0 := by omega
        simp [h1, h0]
        rw [← h0]
    · by_cases h3 : s.sw.diagHold = 0 <;> by_cases h4 : diagSwitchId ∈ s.sw.q <;>
        by_cases h5 : s.sw.q.length < s.cfg.swQCap <;> simp [h1, h3, h4, h5]
  rw [diagSample_frame, hsw]

theorem displayStep_next {s t : State} (h : displayStep s = .next t) :
    ∃ e, t = (s.withDisp { s.disp with slot := s.disp.slot + 1 }).withBus e ∧
      Performed
        [.write s.cfg.addrMap.aDispStrobe (BitVec.ofNat 8 (s.disp.slot + 1).val),
          .write s.cfg.addrMap.aDispDataA
            (nibble s.cfg s.disp (s.disp.slot + 1).val 1 ++ nibble s.cfg s.disp (s.disp.slot + 1).val 0),
          .write s.cfg.addrMap.aDispDataB
            (nibble s.cfg s.disp (s.disp.slot + 1).val 3 ++ nibble s.cfg s.disp (s.disp.slot + 1).val 2)]
        s.bus e ∧
      e.answers = s.bus.answers := by
  simp only [displayStep, nextSlot_eq, chain_eq_next] at h
  obtain ⟨s1, h1, s2, h2, h3⟩ := h
  have ha := (busWrite_answers h3).trans ((busWrite_answers h2).trans (busWrite_answers h1))
  obtain ⟨e1, rfl, p1⟩ := busWrite_performed h1
  obtain ⟨e2, rfl, p2⟩ := busWrite_performed h2
  obtain ⟨e3, rfl, p3⟩ := busWrite_performed h3
  exact ⟨e3, rfl, (p1.trans p2).trans p3, ha⟩

theorem displayStep_ends {s : State} (hr : s.bus.clk.running = true) : ∃ t, displayStep s = .next t := by
  refine chain_ends (busWrite_ends _ _ hr) fun s1 h1 => ?_
  obtain ⟨e1, rfl, p1⟩ := busWrite_performed h1
  refine chain_ends (busWrite_ends _ _ (p1.running.trans hr)) fun s2 h2 => ?_
  obtain ⟨e2, rfl, p2⟩ := busWrite_performed h2
  exact busWrite_ends _ _ (p2.running.trans (p1.running.trans hr))

theorem lampStep_next {s t : State} (h : lampStep s = .next t) :
    ∃ e, t = (s.withLamp (lampAdvance s.cfg s.lamp)).withBus e ∧
      Performed
        [.write s.cfg.addrMap.aLampStrobe (1#8 <<< (lampAdvance s.cfg s.lamp).bank.val),
          .write s.cfg.addrMap.aLampData (lampByte (lampAdvance s.cfg s.lamp) (lampAdvance s.cfg s.lamp).bank)]
        s.bus e ∧
      e.answers = s.bus.answers := by
  simp only [lampStep, chain_eq_next] at h
  obtain ⟨s1, h1, h2⟩ := h
  have ha := (busWrite_answers h2).trans (busWrite_answers h1)
  obtain ⟨e1, rfl, p1⟩ := busWrite_performed h1
  obtain ⟨e2, rfl, p2⟩ := busWrite_performed h2
  exact ⟨e2, rfl, p1.trans p2, ha⟩

theorem lampStep_ends {s : State} (hr : s.bus.clk.running = true) : ∃ t, lampStep s = .next t := by
  refine chain_ends (busWrite_ends _ _ hr) fun s1 h1 => ?_
  obtain ⟨e1, rfl, p1⟩ := busWrite_performed h1
  exact busWrite_ends _ _ (p1.running.trans hr)

/-- The bank advances; the dim counters advance exactly when it wraps. -/
theorem lampAdvance_eq (c : Config) (l : Lamps) :
    lampAdvance c l =
      { l with
        bank := l.bank + 1
        dimc1 := if l.bank = 7 then (l.dimc1 + 1) % c.dimDiv1 else l.dimc1
        dimc2 := if l.bank = 7 then (l.dimc2 + 1) % c.dimDiv2 else l.dimc2 } := by
  have hwrap : ∀ b : Fin 8, b + 1 = 0 ↔ b = 7 := by decide
  unfold lampAdvance
  simp only [hwrap]
  split <;> rfl

theorem lampAdvance_bank (c : Config) (l : Lamps) : (lampAdvance c l).bank = l.bank + 1 := by
  unfold lampAdvance; dsimp only; split <;> rfl

theorem scanColumn_next {c : Fin 8} {s t : State} (h : scanColumn c s = .next t) :
    ∃ e, t = (s.withBus e).withSw (shiftColumn c e.rdata s.sw) ∧
      Performed [.write s.cfg.addrMap.aSwStrobe (1#8 <<< c.val), .read s.cfg.addrMap.aSwReturn e.rdata] s.bus e ∧
      e.rdata = s.bus.answers.headD
        (Config.oracle (s.bus.hist ++ [.write s.cfg.addrMap.aSwStrobe (1#8 <<< c.val)]) s.cfg.addrMap.aSwReturn) ∧
      e.answers = s.bus.answers.tail := by
  simp only [scanColumn, chain_eq_next] at h
  obtain ⟨s1, h1, s2, h2, h3⟩ := h
  have ha := busWrite_answers h1
  obtain ⟨e1, rfl, p1⟩ := busWrite_performed h1
  obtain ⟨e2, rfl, p2, hv, ht⟩ := busRead_performed h2
  cases h3
  exact ⟨e2, rfl, p1.trans p2, by rw [hv, ha]; simp [p1.hist], by rw [ht, ha]⟩

theorem scanColumn_ends (c : Fin 8) {s : State} (hr : s.bus.clk.running = true) : ∃ t, scanColumn c s = .next t := by
  refine chain_ends (busWrite_ends _ _ hr) fun s1 h1 => ?_
  obtain ⟨e1, rfl, p1⟩ := busWrite_performed h1
  exact chain_ends (busRead_ends _ (p1.running.trans hr)) fun _ _ => ⟨_, rfl⟩

/-- The history after the columns `cs` have been scanned with the samples `v`. -/
def shiftColumns (v : Fin 8 → Byte) (cs : List (Fin 8)) (w : Switches) : Switches :=
  cs.foldl (fun w c => shiftColumn c (v c) w) w

theorem shiftColumns_congr {v v' : Fin 8 → Byte} : ∀ {cs : List (Fin 8)}, (∀ c ∈ cs, v c = v' c) → ∀ (w : Switches),
    shiftColumns v cs w = shiftColumns v' cs w
  | [], _, _ => rfl
  | c :: cs, h, w => by
    simp only [shiftColumns, List.foldl_cons, h c (by simp)]
    exact shiftColumns_congr (fun x hx => h x (by simp [hx])) _

/-- The events of scanning the columns `cs` with the samples `v`: a write and a read each. -/
def scanEvents (c : Config) (v : Fin 8 → Byte) (cs : List (Fin 8)) : List BusEvent :=
  cs.flatMap fun x => [.write c.addrMap.aSwStrobe (1#8 <<< x.val), .read c.addrMap.aSwReturn (v x)]

theorem scanEvents_congr (c : Config) {v v' : Fin 8 → Byte} {cs : List (Fin 8)} (h : ∀ x ∈ cs, v x = v' x) :
    scanEvents c v cs = scanEvents c v' cs :=
  List.flatMap_congr fun x hx => by rw [h x hx]

/-- Scanning distinct columns: one write and one read each, in order; the samples are what the environment drove, the next byte of
the script or else the oracle's for the history up to the read; and they are shifted in. -/
theorem scanColumns_next : ∀ {cs : List (Fin 8)} {s t : State}, cs.Nodup → forEach scanColumn cs s = .next t →
    ∃ (v : Fin 8 → Byte) (e : BusEngine), t = (s.withBus e).withSw (shiftColumns v cs s.sw) ∧
      Performed (scanEvents s.cfg v cs) s.bus e ∧
      (∀ i x, cs[i]? = some x → v x = (s.bus.answers.drop i).headD
        (Config.oracle (s.bus.hist ++ (scanEvents s.cfg v cs).take (2 * i + 1)) s.cfg.addrMap.aSwReturn)) ∧
      e.answers = s.bus.answers.drop cs.length
  | [], s, t, _, h => by
    cases h
    exact ⟨fun _ => 0, s.bus, rfl, Performed.refl _, by simp, by simp⟩
  | c :: cs, s, t, hn, h => by
    rw [forEach_cons, chain_eq_next] at h
    obtain ⟨s1, h1, h2⟩ := h
    obtain ⟨e1, rfl, p1, hv1, ha1⟩ := scanColumn_next h1
    obtain ⟨v, e2, rfl, p2, hv2, ha2⟩ := scanColumns_next (List.nodup_cons.1 hn).2 h2
    have hc : ∀ x ∈ cs, Function.update v c e1.rdata x = v x := by
      intro x hx
      have : x ≠ c := fun hxc => (List.nodup_cons.1 hn).1 (hxc ▸ hx)
      simp [Function.update, this]
    have hl : scanEvents s.cfg (Function.update v c e1.rdata) (c :: cs) =
        [.write s.cfg.addrMap.aSwStrobe (1#8 <<< c.val), .read s.cfg.addrMap.aSwReturn e1.rdata] ++
          scanEvents s.cfg v cs := by
      rw [← scanEvents_congr s.cfg hc]
      simp [scanEvents]
    refine ⟨Function.update v c e1.rdata, e2, ?_, ?_, ?_, ?_⟩
    · have hs : shiftColumns (Function.update v c e1.rdata) (c :: cs) s.sw =
          shiftColumns v cs (shiftColumn c e1.rdata s.sw) := by
        simp only [shiftColumns, List.foldl_cons, Function.update_self]
        exact shiftColumns_congr hc _
      rw [hs]
      rfl
    · rw [hl]
      exact p1.trans p2
    · intro i x hx
      rw [hl]
      cases i with
      | zero =>
        cases hx
        simpa using hv1
      | succ i =>
        have hx' : cs[i]? = some x := by simpa using hx
        rw [hc x (List.mem_of_getElem? hx'), hv2 i x hx']
        simp [p1.hist, ha1, show 2 * (i + 1) + 1 = 2 * i + 1 + 2 by omega]
    · rw [ha2]
      simp [ha1]

theorem scanColumns_ends : ∀ (cs : List (Fin 8)) {s : State}, s.bus.clk.running = true →
    ∃ t, forEach scanColumn cs s = .next t
  | [], _, _ => ⟨_, rfl⟩
  | c :: cs, s, hr => by
    rw [forEach_cons]
    refine chain_ends (scanColumn_ends c hr) fun s1 h1 => ?_
    obtain ⟨e1, rfl, p1, _⟩ := scanColumn_next h1
    exact scanColumns_ends cs (p1.running.trans hr)

/-- A column that is not scanned keeps its history; a scanned one is shifted. -/
theorem shiftColumns_get (v : Fin 8 → Byte) : ∀ (cs : List (Fin 8)) (w : Switches) (c : Fin 8), cs.Nodup →
    (shiftColumns v cs w).now[c] = (if c ∈ cs then v c else w.now[c]) ∧
      (shiftColumns v cs w).prev[c] = (if c ∈ cs then w.now[c] else w.prev[c]) ∧
      (shiftColumns v cs w).ago[c] = (if c ∈ cs then w.prev[c] else w.ago[c])
  | [], _, _, _ => by simp [shiftColumns]
  | d :: cs, w, c, hn => by
    obtain ⟨hd, hn⟩ := List.nodup_cons.1 hn
    obtain ⟨h1, h2, h3⟩ := shiftColumns_get v cs (shiftColumn d (v d) w) c hn
    have hf : shiftColumns v (d :: cs) w = shiftColumns v cs (shiftColumn d (v d) w) := rfl
    rw [hf, h1, h2, h3]
    by_cases hcd : c = d
    · subst hcd
      simp [hd, shiftColumn]
    · have hne : d.val ≠ c.val := fun h => hcd (Fin.ext h.symm)
      simp [hcd, shiftColumn, Vector.getElem_set_ne, hne]

theorem shiftColumns_rest (v : Fin 8 → Byte) : ∀ (cs : List (Fin 8)) (w : Switches),
    (shiftColumns v cs w).q = w.q ∧ (shiftColumns v cs w).diagHold = w.diagHold
  | [], _ => ⟨rfl, rfl⟩
  | c :: cs, w => shiftColumns_rest v cs (shiftColumn c (v c) w)

theorem switchScan_next {s t : State} (h : switchScan s = .next t) :
    ∃ (v : Fin 8 → Byte) (e : BusEngine),
      t = enqueueClosures ((s.withBus e).withSw (shiftColumns v (List.finRange 8) s.sw)) ∧
      Performed (scanEvents s.cfg v (List.finRange 8)) s.bus e ∧
      (∀ c : Fin 8, v c = (s.bus.answers.drop c.val).headD
        (Config.oracle (s.bus.hist ++ (scanEvents s.cfg v (List.finRange 8)).take (2 * c.val + 1)) s.cfg.addrMap.aSwReturn)) ∧
      e.answers = s.bus.answers.drop 8 := by
  rw [switchScan, columns_eq, chain_eq_next] at h
  obtain ⟨s1, h1, h2⟩ := h
  obtain ⟨v, e, rfl, p, hv, ha⟩ := scanColumns_next (List.nodup_finRange 8) h1
  cases h2
  exact ⟨v, e, rfl, p, fun c => hv c.val c (by simp), by simpa using ha⟩

theorem switchScan_ends {s : State} (hr : s.bus.clk.running = true) : ∃ t, switchScan s = .next t :=
  chain_ends (scanColumns_ends _ hr) fun _ _ => ⟨_, rfl⟩

/-- Enqueuing many: as many as there is room for, in order. -/
theorem foldl_enqueueInto (cap : Nat) : ∀ (l q : List SwitchId),
    l.foldl (enqueueInto cap) q = q ++ l.take (cap - q.length)
  | [], q => by simp
  | x :: l, q => by
    rw [List.foldl_cons, foldl_enqueueInto cap l]
    unfold enqueueInto
    by_cases h : q.length < cap
    · obtain ⟨n, hn⟩ : ∃ n, cap - q.length = n + 1 := ⟨cap - q.length - 1, by omega⟩
      rw [if_pos h, hn, List.take_succ_cons]
      simp [show cap - (q.length + 1) = n by omega]
    · simp [h, show cap - q.length = 0 by omega]

/-! ## The output phase -/

theorem writeSolenoidPair_next {out : BitVec 16} {s t : State} (h : writeSolenoidPair out s = .next t) :
    ∃ e, t = s.withBus e ∧
      Performed [.write s.cfg.addrMap.aSolA (out.extractLsb' 0 8), .write s.cfg.addrMap.aSolB (out.extractLsb' 8 8)]
        s.bus e := by
  simp only [writeSolenoidPair, Stated.value_eq, chain_eq_next] at h
  obtain ⟨s1, h1, h2⟩ := h
  obtain ⟨e1, rfl, p1⟩ := busWrite_performed h1
  obtain ⟨e2, rfl, p2⟩ := busWrite_performed h2
  exact ⟨e2, rfl, p1.trans p2⟩

theorem writeSolenoidPair_ends (out : BitVec 16) {s : State} (hr : s.bus.clk.running = true) :
    ∃ t, writeSolenoidPair out s = .next t := by
  refine chain_ends (busWrite_ends _ _ hr) fun s1 h1 => ?_
  obtain ⟨e1, rfl, p1⟩ := busWrite_performed h1
  exact busWrite_ends _ _ (p1.running.trans hr)

/-- The output phase when it ends, in terms of the slots pulled. -/
theorem outputPhase_next {s t : State} (h : outputPhase s = .next t) :
    ∃ e,
      t = { s with
            bus := e
            sol := { s.sol with q := s.sol.q.tail, firing := s.sol.q.head?.isSome }
            snd := { s.snd with q := s.snd.q.tail } } ∧
      Performed
        (writesOf (if s.sol.q.head?.isSome && !s.sol.firing then s.cfg.interlockEnterSeq else []) ++
          [.write s.cfg.addrMap.aSolA ((outputWord s s.sol.q.head? s.snd.q.head?).extractLsb' 0 8),
            .write s.cfg.addrMap.aSolB ((outputWord s s.sol.q.head? s.snd.q.head?).extractLsb' 8 8)] ++
          writesOf (if !s.sol.q.head?.isSome && s.sol.firing then s.cfg.interlockExitSeq else []))
        s.bus e := by
  simp only [outputPhase, chain_eq_next, pull_fst, pull_snd] at h
  obtain ⟨s1, h1, s2, h2, s3, h3, h4⟩ := h
  obtain ⟨e1, rfl, p1⟩ := writeAll_next h1
  obtain ⟨e2, rfl, p2⟩ := writeSolenoidPair_next h2
  obtain ⟨e3, rfl, p3⟩ := writeAll_next h3
  cases h4
  exact ⟨e3, rfl, (p1.trans p2).trans p3⟩

theorem outputPhase_ends {s : State} (hr : s.bus.clk.running = true) : ∃ t, outputPhase s = .next t := by
  refine chain_ends (writeAll_ends _ hr) fun s1 h1 => ?_
  obtain ⟨e1, rfl, p1⟩ := writeAll_next h1
  refine chain_ends (writeSolenoidPair_ends _ (p1.running.trans hr)) fun s2 h2 => ?_
  obtain ⟨e2, rfl, p2⟩ := writeSolenoidPair_next h2
  exact chain_ends (writeAll_ends _ (p2.running.trans (p1.running.trans hr))) fun _ _ => ⟨_, rfl⟩

/-! ## The step around an operation -/

theorem beginStep_keeps (s : State) : ∃ b,
    beginStep s = (s.withPort { s.port with rspValid := false }).withSch { s.sch with tickPend := b } :=
  tickPulses_keeps _ _

theorem endStep_keeps (m : Mode) (n : Nat) (s : State) : ∃ b,
    endStep m n s = (s.withSch { s.sch with tickPend := b }).withInp { s.inp with ticks := s.inp.ticks.tail } := by
  unfold endStep
  split
  · obtain ⟨b, hb⟩ := tickPulses_keeps n s
    exact ⟨b, by rw [hb]; rfl⟩
  · exact ⟨s.sch.tickPend, rfl⟩

/-- The arbiter runs a handler only in RUN with a tick pending, and a command only outside HALTED with none pending. -/
theorem arbitrate_cases (s : State) :
    (arbitrate s = .tick ∧ s.sch.tickPend = true ∧ s.mode = .run) ∨
      (∃ w rest, arbitrate s = .command w ∧ s.port.cmds = w :: rest ∧ s.sch.tickPend = false ∧ s.mode ≠ .halted) ∨
      arbitrate s = .idle := by
  unfold arbitrate
  by_cases h1 : tickReady s = true
  · left
    simp only [tickReady, Bool.and_eq_true, decide_eq_true_eq] at h1
    simp [tickReady, h1]
  · right
    simp only [h1, if_false, Bool.false_eq_true]
    by_cases h2 : cmdReady s = true
    · simp only [h2, if_true]
      simp only [cmdReady, Bool.and_eq_true, Bool.not_eq_true', decide_eq_true_eq] at h2
      cases hc : s.port.cmds with
      | nil => right; rfl
      | cons w rest => left; exact ⟨w, rest, rfl, rfl, h2⟩
    · right
      simp [h2]

/-- A step that answers a next state: the configuration is legal, and the operation the arbiter chose has ended. -/
theorem step_next {s t : State} (h : step s = .next t) :
    s.cfg.legal = true ∧ ∃ u, perform (arbitrate (beginStep s)) (beginStep s) = .next u ∧
      t = endStep s.mode (tickSample s).during u := by
  unfold step at h
  split at h
  · rename_i hl
    rw [chain_eq_next] at h
    obtain ⟨u, h1, h2⟩ := h
    cases h2
    exact ⟨hl, u, h1, rfl⟩
  · cases h

end Sys2Proof.Machine
end

