-- ==== Sys2Proof/Laws/PerInstr.lean ====
section
/-! SUPPORT. The families of statements made per instruction. -/

namespace Sys2Proof.Laws

/-- The operation code stands in `cmd[63:56]` of the encoded command (`30_encoding.md` R80, R85). -/
def OpByte.Statement (i : Instr) : Prop := fieldOp (encode i) = i.opcode

theorem OpByte.init (credit : BitVec 8) : OpByte.Statement (.init credit) := fieldOp_packCommand ..

theorem OpByte.buswr (addr : Addr) (data : Byte) : OpByte.Statement (.buswr addr data) := fieldOp_packCommand ..

theorem OpByte.busrd (addr : Addr) : OpByte.Statement (.busrd addr) := fieldOp_packCommand ..

theorem OpByte.swpull : OpByte.Statement (.swpull) := fieldOp_packCommand ..

theorem OpByte.swpeek (id : BitVec 8) : OpByte.Statement (.swpeek id) := fieldOp_packCommand ..

theorem OpByte.swisq (id : BitVec 8) : OpByte.Statement (.swisq id) := fieldOp_packCommand ..

theorem OpByte.solspace : OpByte.Statement (.solspace) := fieldOp_packCommand ..

theorem OpByte.solpush (id : BitVec 8) (rep : BitVec 8) (allow : Bool) : OpByte.Statement (.solpush id rep allow) := fieldOp_packCommand ..

theorem OpByte.solpushf (id : BitVec 8) (rep : BitVec 8) : OpByte.Statement (.solpushf id rep) := fieldOp_packCommand ..

theorem OpByte.solsched (id : BitVec 8) (rep : BitVec 8) (ovr : Bool) (time : Time) : OpByte.Statement (.solsched id rep ovr time) := fieldOp_packCommand ..

theorem OpByte.solen : OpByte.Statement (.solen) := fieldOp_packCommand ..

theorem OpByte.soldis : OpByte.Statement (.soldis) := fieldOp_packCommand ..

theorem OpByte.solcont (id : BitVec 8) (on : Bool) : OpByte.Statement (.solcont id on) := fieldOp_packCommand ..

theorem OpByte.sndspace : OpByte.Statement (.sndspace) := fieldOp_packCommand ..

theorem OpByte.sndpush (id : BitVec 8) (rep : BitVec 8) : OpByte.Statement (.sndpush id rep) := fieldOp_packCommand ..

theorem OpByte.sndsched (id : BitVec 8) (rep : BitVec 8) (ovr : Bool) (time : Time) : OpByte.Statement (.sndsched id rep ovr time) := fieldOp_packCommand ..

theorem OpByte.update (time : Time) : OpByte.Statement (.update time) := fieldOp_packCommand ..

theorem OpByte.lampset (id : BitVec 8) (dim : BitVec 2) (on : Bool) (period : BitVec 16) : OpByte.Statement (.lampset id dim on period) := fieldOp_packCommand ..

theorem OpByte.lampoff : OpByte.Statement (.lampoff) := fieldOp_packCommand ..

theorem OpByte.dispval (field : BitVec 8) (min : BitVec 8) (blz : Bool) (value : BitVec 32) : OpByte.Statement (.dispval field min blz value) := fieldOp_packCommand ..

theorem OpByte.dispblank (field : BitVec 8) (mask : BitVec 8) : OpByte.Statement (.dispblank field mask) := fieldOp_packCommand ..

theorem OpByte.dispgetb (field : BitVec 8) : OpByte.Statement (.dispgetb field) := fieldOp_packCommand ..

theorem OpByte.diagq : OpByte.Statement (.diagq) := fieldOp_packCommand ..

theorem OpByte.diagclr : OpByte.Statement (.diagclr) := fieldOp_packCommand ..

theorem OpByte.flipdis : OpByte.Statement (.flipdis) := fieldOp_packCommand ..

theorem OpByte.sndrange : OpByte.Statement (.sndrange) := fieldOp_packCommand ..

theorem OpByte.lampflashall : OpByte.Statement (.lampflashall) := fieldOp_packCommand ..

theorem OpByte.dispcycle : OpByte.Statement (.dispcycle) := fieldOp_packCommand ..

end Sys2Proof.Laws
end

