-- ==== Sys2Proof/Laws/Refusal.lean ====
section
/-! SUPPORT. No operation, no command and no handler invocation is refused: the one refusal is the step's, of a configuration. -/

namespace Sys2Proof.Machine

/-- The operation is not refused, under any name. -/
def Accepted (r : Result) : Prop := ∀ x, r ≠ .refused x

@[simp] theorem accepted_next (s : State) : Accepted (.next s) := fun _ h => by cases h

@[simp] theorem accepted_fault (x : Fault) : Accepted (.fault x) := fun _ h => by cases h

theorem accepted_chain {r : Result} {f : State → Result} (h : Accepted r) (k : ∀ s, Accepted (f s)) :
    Accepted (chain r f) := by
  cases r with
  | next s => exact k s
  | fault x => exact accepted_fault x
  | refused x => exact absurd rfl (h x)

theorem accepted_served {s : State} {r : Result} (h : Accepted r) : Accepted (served s r) := by
  unfold served refuse
  split
  · exact accepted_next _
  · exact h

theorem accepted_refuse (st : Status) (s : State) : Accepted (refuse st s) := accepted_next _

theorem accepted_runCycle (r : BusRequest) (s : State) : Accepted (runCycle r s) := by
  unfold runCycle
  split <;> simp

theorem accepted_busWrite (a : Addr) (v : Byte) (s : State) : Accepted (busWrite a v s) := accepted_runCycle _ _

theorem accepted_busRead (a : Addr) (s : State) : Accepted (busRead a s) := accepted_runCycle _ _

theorem accepted_forEach {α : Type} {f : α → State → Result} (h : ∀ x s, Accepted (f x s)) :
    ∀ (l : List α) (s : State), Accepted (forEach f l s)
  | [], s => accepted_next s
  | x :: l, s => accepted_chain (h x s) (accepted_forEach h l)

theorem accepted_writeAll (l : List (Addr × Byte)) (s : State) : Accepted (writeAll l s) :=
  accepted_forEach (fun _ _ => accepted_busWrite _ _ _) l s

theorem accepted_inputPhase (s : State) : Accepted (inputPhase s) := by
  refine accepted_chain (accepted_chain (accepted_busRead _ _) fun _ => accepted_next _) fun s1 => ?_
  refine accepted_chain ?_ fun s2 => accepted_chain ?_ fun s3 => ?_
  · exact accepted_chain (accepted_busWrite _ _ _) fun _ => accepted_chain (accepted_busWrite _ _ _) fun _ =>
      accepted_busWrite _ _ _
  · exact accepted_chain (accepted_busWrite _ _ _) fun _ => accepted_busWrite _ _ _
  · refine accepted_chain (accepted_forEach (fun c s => ?_) _ _) fun _ => accepted_next _
    exact accepted_chain (accepted_busWrite _ _ _) fun _ => accepted_chain (accepted_busRead _ _) fun _ => accepted_next _

theorem accepted_outputPhase (s : State) : Accepted (outputPhase s) :=
  accepted_chain (accepted_writeAll _ _) fun _ =>
    accepted_chain (accepted_chain (accepted_busWrite _ _ _) fun _ => accepted_busWrite _ _ _) fun _ =>
      accepted_chain (accepted_writeAll _ _) fun _ => accepted_next _

theorem accepted_tickHandler (s : State) : Accepted (tickHandler s) := by
  refine accepted_chain ?_ fun _ => accepted_next _
  split
  · exact accepted_outputPhase s
  · exact accepted_inputPhase s

theorem accepted_execInit (credit : BitVec 8) (s : State) : Accepted (execInit credit s) := by
  unfold execInit passthrough
  split
  · exact accepted_refuse _ _
  · dsimp only
    split
    · exact accepted_next _
    · exact accepted_chain (accepted_writeAll _ _) fun _ => accepted_next _

/-- No command is refused. -/
theorem accepted_exec (i : Instr) (s : State) : Accepted (exec i s) := by
  cases i with
  | init credit => exact accepted_execInit credit s
  | buswr => exact accepted_served (accepted_chain (accepted_busWrite _ _ _) fun _ => accepted_next _)
  | busrd => exact accepted_served (accepted_chain (accepted_busRead _ _) fun _ => accepted_next _)
  | swpull => exact accepted_served (by split <;> simp [accepted_refuse])
  | swpeek => exact accepted_served (by split <;> simp [accepted_refuse])
  | swisq => exact accepted_served (by split <;> simp [accepted_refuse])
  | solpush => exact accepted_served (by split <;> (try split) <;> (try split) <;> simp [accepted_refuse])
  | solpushf => exact accepted_served (by split <;> (try split) <;> (try split) <;> simp [accepted_refuse])
  | solsched => exact accepted_served (by split <;> (try split) <;> simp [accepted_refuse])
  | solcont => exact accepted_served (by split <;> simp [accepted_refuse])
  | sndpush => exact accepted_served (by split <;> simp [accepted_refuse])
  | sndsched => exact accepted_served (by split <;> simp [accepted_refuse])
  | lampset => exact accepted_served (by split <;> (try split) <;> simp [accepted_refuse])
  | dispval => exact accepted_served (by split <;> simp [accepted_refuse])
  | dispblank => exact accepted_served (by split <;> simp [accepted_refuse])
  | dispgetb => exact accepted_served (by split <;> simp [accepted_refuse])
  | solspace | solen | soldis | sndspace | update | lampoff => exact accepted_served (accepted_next _)
  | diagq | diagclr | flipdis | sndrange | lampflashall | dispcycle => exact accepted_served (accepted_refuse _ _)

/-- What the arbiter chose is not refused. -/
theorem accepted_perform (c : Choice) (s : State) : Accepted (perform c s) := by
  cases c with
  | tick => exact accepted_tickHandler _
  | idle => exact accepted_next _
  | command w =>
    unfold perform runCommand
    dsimp only
    split
    · exact accepted_exec _ _
    · exact accepted_served (accepted_refuse _ _)

end Sys2Proof.Machine
end

