-- ==== Sys2Proof/Tests/Slice0.lean ====
section
/-! SUPPORT. The model's own tests. Every expected value is the spec's: an encoding of `30_encoding.md` R85, a vector of
`95_test_vectors.md` or an example inside a rule. CFG_REF of `00_scope.md` R12 is used here only. The second half holds, for
each statement that has hypotheses, a concrete case that meets them. -/

namespace Sys2Proof.Machine.Tests

open Sys2Proof Sys2Proof.Machine

/-! ## The reference configuration and states built from it -/

/-- CFG_REF's ADDRMAP (`00_scope.md` R12). -/
def refMap : AddrMap where
  aDispStrobe := 0x1000
  aDispDataA := 0x1001
  aDispDataB := 0x1002
  aDiagStatus := 0x1003
  aLampStrobe := 0x2000
  aLampData := 0x2001
  aSwStrobe := 0x3000
  aSwReturn := 0x3001
  aSolA := 0x4000
  aSolB := 0x4001

/-- CFG_REF (`00_scope.md` R12). -/
def refCfg : Config :=
  { Config.machine with
    addrMap := refMap
    initSeq := [(0x10F0, 0xFF), (0x20F0, 0xFF), (0x30F0, 0xFF), (0x30F1, 0x00), (0x40F0, 0xFF), (0x10F8, 0x01), (0x30F8, 0x01)]
    interlockEnterSeq := [(0x20F8, 0x00), (0x30F8, 0x00)]
    interlockExitSeq := [(0x20F8, 0x01), (0x30F8, 0x01)] }

/-- Power-on with CFG_REF. -/
def cold : State := { State.reset with cfg := refCfg }

/-- The state after INIT with CFG_REF (`10_state.md` R42), the history empty; every read answered 0x00 for 24 reads. -/
def up : State :=
  { cold with
    mode := .run
    bus := { cold.bus with
      pin := { cold.bus.pin with busOE := true, haltLegacy := true }
      answers := List.replicate 24 0 } }

/-- `s` with `sol.en` and `sol.q` as given. -/
def sol (en : Bool) (q : List SolId) (s : State) : State := { s with sol := { s.sol with en := en, q := q } }

/-- `s` with its next read answered `v`. -/
def answering (v : Byte) (s : State) : State := { s with bus := { s.bus with answers := [v] } }

/-- `s` with the host offering one command word. -/
def offered (w : CmdWord) (s : State) : State := { s with port := { s.port with cmds := [w] } }

/-- `s` with a tick pending. -/
def ticked (s : State) : State := { s with sch := { s.sch with tickPend := true } }

/-- `s` in the given phase. -/
def inPhase (b : Bool) (s : State) : State := { s with sch := { s.sch with phase := b } }

/-- `s` with a clock that stands still at the given level. -/
def stopped (b : Bool) (s : State) : State := { s with bus := { s.bus with clk := { samples := [], level := b, running := false } } }

/-- Something read off the next state. -/
def after {α : Type} (r : Result) (f : State → α) : Option α :=
  match r with
  | .next s => some (f s)
  | _ => none

/-! ## Decoding: one word for every command, from the table of R85 and the six names of R86 -/

theorem test_decode_init : decode 0x012A000000000000 = .ok (.init 0x2A) := by decide
theorem test_decode_buswr : decode 0x100000002001AAFF = .ok (.buswr 0x2001 0xFF) := by decide
theorem test_decode_busrd : decode 0x1100000030010000 = .ok (.busrd 0x3001) := by decide
theorem test_decode_swpull : decode 0x2000000000000000 = .ok .swpull := by decide
theorem test_decode_swpeek : decode 0x210A000000000000 = .ok (.swpeek 10) := by decide
theorem test_decode_swisq : decode 0x2240000000000000 = .ok (.swisq 64) := by decide
theorem test_decode_diagq : decode 0x2300000000000000 = .ok .diagq := by decide
theorem test_decode_diagclr : decode 0x2400000000000000 = .ok .diagclr := by decide
theorem test_decode_solspace : decode 0x30FFFFFFFFFFFFFF = .ok .solspace := by decide
theorem test_decode_solpush : decode 0x3105030100000000 = .ok (.solpush 5 3 true) := by decide
theorem test_decode_solpushf : decode 0x3202010000000000 = .ok (.solpushf 2 1) := by decide
theorem test_decode_solsched : decode 0x33030201000003E8 = .ok (.solsched 3 2 true 1000) := by decide
theorem test_decode_solen : decode 0x3400000000000000 = .ok .solen := by decide
theorem test_decode_soldis : decode 0x3500000000000000 = .ok .soldis := by decide
theorem test_decode_solcont : decode 0x360F000100000000 = .ok (.solcont 15 true) := by decide
theorem test_decode_flipdis : decode 0x3700000000000000 = .ok .flipdis := by decide
theorem test_decode_sndspace : decode 0x3800000000000000 = .ok .sndspace := by decide
theorem test_decode_sndpush : decode 0x3912020000000000 = .ok (.sndpush 0x12 2) := by decide
theorem test_decode_sndsched : decode 0x3B120100000001F4 = .ok (.sndsched 0x12 1 false 500) := by decide
theorem test_decode_sndrange : decode 0x3C00000000000000 = .ok .sndrange := by decide
theorem test_decode_update : decode 0x3F000000FFFFFFF0 = .ok (.update 0xFFFFFFF0) := by decide
theorem test_decode_lampset : decode 0x403F0301000001F4 = .ok (.lampset 63 3 true 500) := by decide
theorem test_decode_lampoff : decode 0x4100000000000000 = .ok .lampoff := by decide
theorem test_decode_lampflashall : decode 0x4200000000000000 = .ok .lampflashall := by decide
theorem test_decode_dispval : decode 0x480401010000007B = .ok (.dispval 4 1 true 123) := by decide
theorem test_decode_dispblank : decode 0x49040000000000FF = .ok (.dispblank 4 0xFF) := by decide
theorem test_decode_dispgetb : decode 0x4A04000000000000 = .ok (.dispgetb 4) := by decide
theorem test_decode_dispcycle : decode 0x4B00000000000000 = .ok .dispcycle := by decide

/-- Reserved without a name (`30_encoding.md` R86): refused by name. -/
theorem test_decode_reserved : decode 0x3A00000000000000 = .error (.reservedOpcode 0x3A) := by decide

/-- The encoder writes the words of `43_output_queues.md` R164 and `44_lamp_display.md` R202. -/
theorem test_encode : encode (.solpush 5 3 false) = 0x3105030000000000 ∧
    encode (.dispval 0 2 true 1234) = 0x48000201000004D2 ∧ encode (.buswr 0x2001 0xFF) = 0x10000000200100FF := by decide

theorem test_table_word : decodeTableWord 64 0x3400000000000000 = some .solen := by decide
theorem test_table_word_short : decodeTableWord 56 0x3400000000000000 = none := by decide

/-! ## Well-formedness: each check refuses an ill-formed term (`30_encoding.md` R93; U6, U7, U11, U13 to U15) -/

theorem test_range_swpeek : (Instr.swpeek 64).wellFormed = false ∧ (Instr.swpeek 63).wellFormed = true := by decide
theorem test_range_swisq : (Instr.swisq 65).wellFormed = false ∧ (Instr.swisq 64).wellFormed = true := by decide
theorem test_range_solpush : (Instr.solpush 16 0 true).wellFormed = false ∧ (Instr.solpush 15 0 true).wellFormed = true := by
  decide
theorem test_range_solpushf : (Instr.solpushf 16 0).wellFormed = false ∧ (Instr.solpushf 15 0).wellFormed = true := by decide
theorem test_range_solsched : (Instr.solsched 16 0 true 0).wellFormed = false ∧
    (Instr.solsched 15 0 true 0).wellFormed = true := by decide
theorem test_range_solcont : (Instr.solcont 16 true).wellFormed = false ∧ (Instr.solcont 15 true).wellFormed = true := by decide
theorem test_range_lampset : (Instr.lampset 64 0 true 0).wellFormed = false ∧
    (Instr.lampset 63 0 true 0).wellFormed = true := by decide
theorem test_range_dispval : (Instr.dispval 6 0 true 0).wellFormed = false ∧
    (Instr.dispval 5 0 true 0).wellFormed = true := by decide
theorem test_range_dispblank : (Instr.dispblank 6 0).wellFormed = false ∧ (Instr.dispblank 5 0).wellFormed = true := by decide
theorem test_range_dispgetb : (Instr.dispgetb 6).wellFormed = false ∧ (Instr.dispgetb 5).wellFormed = true := by decide

theorem test_legal_machine : Config.machine.legal = true := by decide
theorem test_legal_ref : refCfg.legal = true := by decide
theorem test_legal_alternatives :
    { refCfg with strobeWaitSeq := [true, false], displayDigits := 8, slotTable := Config.slotTableDefault 8,
                  dimDiv1 := 1, solQCap := 65535, swQCap := 1 }.legal = true := by decide
theorem test_illegal_sol_cap : { refCfg with solQCap := 0 }.legal = false := by decide
theorem test_illegal_sw_cap : { refCfg with swQCap := 65536 }.legal = false := by decide
theorem test_illegal_snd_cap : { refCfg with sndQCap := 0 }.legal = false := by decide
theorem test_illegal_sol_timed : { refCfg with solTimedCap := 0 }.legal = false := by decide
theorem test_illegal_snd_timed : { refCfg with sndTimedCap := 65536 }.legal = false := by decide
theorem test_illegal_strobe : { refCfg with strobeWaitSeq := [false, true] }.legal = false := by decide
theorem test_illegal_dim1 : { refCfg with dimDiv1 := 0 }.legal = false := by decide
theorem test_illegal_dim2 : { refCfg with dimDiv2 := 0 }.legal = false := by decide
theorem test_illegal_gran_zero : { refCfg with flashGranMs := 0 }.legal = false := by decide
theorem test_illegal_gran_odd : { refCfg with flashGranMs := 5 }.legal = false := by decide
theorem test_illegal_flash_multiple : { refCfg with flashMaxMs := 2545 }.legal = false := by decide
theorem test_illegal_flash_max : { refCfg with flashMaxMs := 2560 }.legal = false := by decide
theorem test_illegal_digits_low :
    { refCfg with displayDigits := 0, slotTable := Config.slotTableDefault 0 }.legal = false := by decide
theorem test_illegal_digits_high : { refCfg with displayDigits := 9 }.legal = false := by decide
theorem test_illegal_slot_position : { refCfg with displayDigits := 5 }.legal = false := by decide
theorem test_illegal_slot_rows : { refCfg with slotTable := (Config.slotTableDefault 6).tail }.legal = false := by decide
theorem test_illegal_slot_field :
    { refCfg with slotTable := (Config.slotTableDefault 6).set 15 [some (6, 0), none, none, none] }.legal = false := by decide
theorem test_illegal_slot_lanes : { refCfg with slotTable := (Config.slotTableDefault 6).set 15 [none] }.legal = false := by
  decide
theorem test_illegal_encoding : { refCfg with displayEncoding := .seg7 }.legal = false := by decide
theorem test_illegal_credit : { refCfg with creditBootCheck := true }.legal = false := by decide

/-! ## The bus cycle -/

/-- V11: the shortest read, nine steps from the request; the byte is sampled and recorded. -/
theorem test_bus_read_shortest :
    (busCycle [true, false, true] { rw := false, addr := 0x3001, wdata := 0 }
        { up.bus with clk := { samples := [false, true, false, true], level := true, running := false }, answers := [0x04] }).map
      (fun e => (e.rdata, e.hist, e.k, e.pin.stb, e.clk.samples)) =
    some (0x04, [.read 0x3001 0x04], 2, false, []) := by decide

/-- `40_bus_engine.md` R116 (V10), the write trace: `STB` and `bus.k` after each of the steps 0 to 11. -/
theorem test_bus_write_trace :
    ((List.range 12).map fun n =>
        let e := engineSteps [true, false, true] n (engineAccept { rw := true, addr := 0x3000, wdata := 0x01 }
          { up.bus with clk := { samples := [true, false, false, true, true, false, true], level := true, running := false } })
        (e.st, lineAddr e.pin, lineData e.pin, lineWE e.pin, lineSTB e.pin)) =
      [(.addr, some 0, none, some false, some false), (.data, some 0x3000, none, some false, some false),
        (.we, some 0x3000, some 1, some false, some false), (.sync, some 0x3000, some 1, some true, some false),
        (.sync, some 0x3000, some 1, some true, some false), (.strobe, some 0x3000, some 1, some true, some true),
        (.strobe, some 0x3000, some 1, some true, some true), (.strobe, some 0x3000, some 1, some true, some true),
        (.strobe, some 0x3000, some 1, some true, some true), (.strobe, some 0x3000, some 1, some true, some true),
        (.release, some 0x3000, some 1, some true, some false), (.idle, some 0, none, some false, some false)] := by
  decide +kernel

/-- V12: the alternative sequence closes the window at the falling edge. -/
theorem test_bus_alternative :
    (busCycle [true, false] { rw := true, addr := 0x4000, wdata := 0x20 }
        { up.bus with clk := { samples := [false, true, false], level := true, running := false } }).map
      (fun e => (e.hist, e.clk.samples)) = some ([.write 0x4000 0x20], []) := by decide

/-- V14: a clock that stays high hangs the cycle in SYNC, one that stays low in STROBE. -/
theorem test_bus_hang : busWrite 0x3000 1 (stopped true up) = .fault .clockStopped ∧
    busWrite 0x3000 1 (stopped false up) = .fault .clockStopped := ⟨rfl, rfl⟩

/-! ## The commands -/

/-- V17: INIT with CFG_REF. -/
theorem test_init :
    after (exec (.init 0x2A) cold) (fun s => (s.mode, s.bus.hist, s.bus.pin.haltLegacy && s.bus.pin.busOE, s.port.rsp)) =
      some (.run, [.write 0x10F0 0xFF, .write 0x20F0 0xFF, .write 0x30F0 0xFF, .write 0x30F1 0x00, .write 0x40F0 0xFF,
        .write 0x10F8 0x01, .write 0x30F8 0x01], true, 0) := by decide +kernel

/-- V18: INIT with BOOT_ORIG_REQ = 1. -/
theorem test_init_passthrough :
    after (exec (.init 0) { cold with inp := { ticks := [], bootOrigReq := true } })
      (fun s => (s.mode, s.bus.hist, s.bus.pin.busOE, s.bus.pin.haltLegacy, s.port.rsp)) =
      some (.halted, [], false, false, 0x70000000) := by decide

/-- V16. -/
theorem test_buswr : after (exec (.buswr 0x2001 0xFF) up) (fun s => (s.bus.hist, s.port.rsp)) =
    some ([.write 0x2001 0xFF], 0) := by decide

/-- V16. -/
theorem test_busrd : after (exec (.busrd 0x3001) (answering 0x80 up)) (fun s => (s.bus.hist, s.port.rsp)) =
    some ([.read 0x3001 0x80], 0x80) := by decide

/-- V34. -/
theorem test_swpull :
    after (exec .swpull { up with sw := { up.sw with q := [10, 64] } }) (fun s => (s.sw.q, s.port.rsp)) =
      some ([64], 0xA) := by decide

/-- V34. -/
theorem test_swpull_empty : after (exec .swpull up) (fun s => s.port.rsp) = some 0x10000000 := by decide

/-- V34. -/
theorem test_swpeek :
    after (exec (.swpeek 10) { up with sw := { up.sw with now := up.sw.now.set 1 0x04 } }) (fun s => s.port.rsp) = some 1 ∧
      after (exec (.swpeek 11) { up with sw := { up.sw with now := up.sw.now.set 1 0x04 } }) (fun s => s.port.rsp) = some 0 := by
  decide

/-- V34. -/
theorem test_swisq :
    after (exec (.swisq 64) { up with sw := { up.sw with q := [10, 64] } }) (fun s => s.port.rsp) = some 1 ∧
      after (exec (.swisq 11) { up with sw := { up.sw with q := [10, 64] } }) (fun s => s.port.rsp) = some 0 := by decide

/-- `43_output_queues.md` R167. -/
theorem test_solspace : after (exec .solspace (sol true [5, 5, 5] up)) (fun s => s.port.rsp) = some 0xF7 := by decide

/-- V40. -/
theorem test_solpush : after (exec (.solpush 5 3 false) (sol true [] up)) (fun s => (s.sol.q, s.port.rsp)) =
    some ([5, 5, 5], 0) := by decide

/-- V42, V50: REJECT_FULL; INVALID_ID before REJECT_DISABLED. -/
theorem test_solpush_refused :
    after (exec (.solpush 5 255 false) (sol true [] up)) (fun s => (s.sol.q, s.port.rsp)) = some ([], 0x20000000) ∧
      after (exec (.solpush 16 1 false) (sol false [] up)) (fun s => (s.sol.q, s.port.rsp)) = some ([], 0x40000000) := by
  decide

/-- V52. -/
theorem test_solpushf : after (exec (.solpushf 2 1) (sol true [5, 5] up)) (fun s => (s.sol.q, s.port.rsp)) =
    some ([2, 5, 5], 0) := by decide

/-- V53. -/
theorem test_solpushf_disabled : after (exec (.solpushf 2 1) (sol false [5] up)) (fun s => (s.sol.q, s.port.rsp)) =
    some ([5], 0x30000000) := by decide

/-- V60. -/
theorem test_solsched : after (exec (.solsched 3 2 false 1000) up) (fun s => (s.sol.t.head?, s.port.rsp)) =
    some (some { used := true, id := 3, rep := 2, fire := 1000, ovr := false }, 0) := by decide

/-- V66: two entries due at once, in slot order. -/
theorem test_update_slot_order :
    let e (id : SolId) (fire : Time) : TimedEntry 4 := { used := true, id := id, rep := 1, fire := fire, ovr := false }
    after (exec (.update 2000) { up with sol := { up.sol with en := true, t := [e 1 2000, e 2 1000] } }) (fun s => s.sol.q) =
      some [1, 2] := by decide +kernel

/-- V67. -/
theorem test_solsched_full :
    after (exec (.solsched 1 1 false 1)
        { up with sol := { up.sol with t := List.replicate 32 { used := true, id := 0, rep := 0, fire := 0, ovr := false } } })
      (fun s => s.port.rsp) = some 0x20000000 := by decide

/-- P2 step 2. -/
theorem test_solen : after (exec .solen up) (fun s => (s.sol.en, s.port.rsp)) = some (true, 0) := by decide

/-- V48. -/
theorem test_soldis : after (exec .soldis (sol true [7] up)) (fun s => (s.sol.en, s.sol.q)) = some (false, [7]) := by decide

/-- V55, V57. -/
theorem test_solcont : after (exec (.solcont 15 true) up) (fun s => s.sol.cont) = some 0x8000 ∧
    after (exec (.solcont 15 false) { up with sol := { up.sol with cont := 0x8001 } }) (fun s => s.sol.cont) = some 0x0001 := by
  decide

/-- `43_output_queues.md` R168. -/
theorem test_sndspace : after (exec .sndspace up) (fun s => s.port.rsp) = some 0xFA := by decide

/-- V54. -/
theorem test_sndpush : after (exec (.sndpush 0x12 2) up) (fun s => (s.snd.q, s.port.rsp)) = some ([0x12, 0x12], 0) := by decide

/-- V69b. -/
theorem test_sndsched : after (exec (.sndsched 0x12 1 false 500) up) (fun s => (s.snd.t.head?, s.port.rsp)) =
    some (some { used := true, id := 0x12, rep := 1, fire := 500, ovr := false }, 0) := by decide

/-- One due entry of solenoid 3, two slots, at 1000 ms (V60). -/
def pending (en : Bool) (s : State) : State :=
  { s with sol := { s.sol with en := en, t := { used := true, id := 3, rep := 2, fire := 1000, ovr := false } :: s.sol.t.tail } }

/-- V61, V62. -/
theorem test_update_timed :
    after (exec (.update 999) (pending true up)) (fun s => (s.sol.q, s.sol.t.map (·.used) |>.head?)) = some ([], some true) ∧
      after (exec (.update 1000) (pending true up)) (fun s => (s.sol.q, s.sol.t.map (·.used) |>.head?)) =
        some ([3, 3], some false) := by decide +kernel

/-- V75, V76. -/
theorem test_update_flash :
    after (exec (.update 100) { up with lamp := { up.lamp with fp := up.lamp.fp.set 10 50 } }) (fun s => s.lamp.on) =
        some ((Vector.replicate 8 0).set 1 0x04) ∧
      after (exec (.update 300) { up with lamp := { up.lamp with fp := up.lamp.fp.set 10 50 } }) (fun s => s.lamp.on) =
        some (Vector.replicate 8 0) := by decide +kernel

/-- V8. -/
theorem test_lampset :
    after (exec (.lampset 10 1 true 0) up) (fun s => (s.lamp.on, s.lamp.dim1, s.lamp.dim2, s.lamp.fp[10])) =
      some ((Vector.replicate 8 0).set 1 0x04, (Vector.replicate 8 0).set 1 0x04, Vector.replicate 8 0, 0) := by decide +kernel

/-- V74, V77. -/
theorem test_lampset_flashing :
    after (exec (.lampset 10 0 true 500) up) (fun s => (s.lamp.on, s.lamp.fp[10])) = some (Vector.replicate 8 0, 50) ∧
      [0, 1, 9, 10, 19, 20, 500, 2549, 2550, 2551, 65535].map (flashQuant refCfg) =
        [0, 1, 1, 1, 1, 2, 50, 254, 255, 255, 255] := by decide +kernel

/-- V70. -/
theorem test_lampoff :
    after (exec .lampoff { up with lamp := { up.lamp with on := Vector.replicate 8 0xFF, bank := 3 } })
      (fun s => (s.lamp.on, s.lamp.bank)) = some (Vector.replicate 8 0, 3) := by decide +kernel

/-- V90, V94. -/
theorem test_dispval :
    after (exec (.dispval 0 2 true 1234) up) (fun s => (s.disp.digit[0], s.disp.blank[0])) = some ([0, 0, 1, 2, 3, 4], 0x3C) ∧
      after (exec (.dispval 0 2 true 1234567) up) (fun s => (s.disp.digit[0], s.disp.blank[0])) =
        some ([2, 3, 4, 5, 6, 7], 0x3F) := by decide +kernel

/-- V91, V92, V93, V95, V96. -/
theorem test_blank_mask : blankMask 0 6 true 2 = 0x30 ∧ blankMask 0 6 true 0 = 0x00 ∧ blankMask 1234 6 false 2 = 0x3F ∧
    blankMask 5 6 true 9 = 0x3F ∧ blankMask 5 6 true 1 = 0x20 := by decide

/-- V100. -/
theorem test_dispblank : after (exec (.dispblank 4 0xFF) up) (fun s => s.disp.blank[4]) = some 0x03 ∧
    after (exec (.dispblank 0 0xFF) up) (fun s => s.disp.blank[0]) = some 0x3F := by decide +kernel

/-- V100. -/
theorem test_dispgetb :
    after (exec (.dispgetb 4) { up with disp := { up.disp with blank := up.disp.blank.set 4 3 } }) (fun s => s.port.rsp) =
      some 3 := by decide

/-- V4: the six operation codes reserved by name. -/
theorem test_reserved_named :
    ([Instr.diagq, .diagclr, .flipdis, .sndrange, .lampflashall, .dispcycle].map fun i =>
      after (exec i up) fun s => s.port.rsp) = List.replicate 6 (some 0x50000000) := by decide

/-! ## The tick handler -/

/-- P1 step 5: the first input phase after INIT. -/
theorem test_input_phase :
    after (inputPhase up) (fun s => (s.bus.hist.take 8, s.bus.hist.length, s.disp.slot, s.lamp.bank)) =
      some ([.read 0x1003 0x00, .write 0x1000 0x01, .write 0x1001 0xFF, .write 0x1002 0xFF, .write 0x2000 0x02,
        .write 0x2001 0x00, .write 0x3000 0x01, .read 0x3001 0x00], 22, 1, 1) := by decide +kernel

/-- V59e: `0x0001 | 0x0100 | 0x1200 = 0x1301`. -/
theorem test_output_word :
    after (outputPhase { up with sol := { up.sol with q := [8], cont := 1, firing := true }, snd := { up.snd with q := [0x12] } })
      (fun s => (s.bus.hist, s.sol.q, s.snd.q, s.sol.firing)) =
      some ([.write 0x4000 0x01, .write 0x4001 0x13], [], [], true) := by decide +kernel

/-- V59b, V59g: the interlock when firing begins and when it ends. -/
theorem test_interlock :
    after (outputPhase { up with sol := { up.sol with q := [5], cont := 0x8000 } }) (fun s => (s.bus.hist, s.sol.firing)) =
        some ([.write 0x20F8 0x00, .write 0x30F8 0x00, .write 0x4000 0x20, .write 0x4001 0x80], true) ∧
      after (outputPhase { up with sol := { up.sol with firing := true } }) (fun s => (s.bus.hist, s.sol.firing)) =
        some ([.write 0x4000 0x00, .write 0x4001 0x00, .write 0x20F8 0x01, .write 0x30F8 0x01], false) := by decide +kernel

/-- V28, V29: closures by the three generations, ascending. -/
theorem test_closures :
    closures refCfg { up.sw with ago := up.sw.ago.set 3 0xF0, prev := up.sw.prev.set 3 0x3C, now := up.sw.now.set 3 0x0F } = [26, 27] ∧
      closures refCfg { up.sw with prev := Vector.replicate 8 0xFF,
                                   now := ((up.sw.now.set 0 0x01).set 1 0x02).set 7 0x80 } = [0, 9, 63] := by decide +kernel

/-- V30: a full queue loses the event. -/
theorem test_enqueue_full : enqueueInto 64 (List.replicate 64 1) 5 = List.replicate 64 1 := by decide

/-- V31, V32. -/
theorem test_diagnostic :
    ((diagSample 0x80 up).sw.q, (diagSample 0x80 up).sw.diagHold) = ([64], 50) ∧
      (diagSample 0x80 { up with sw := { up.sw with q := [10, 64] } }).sw.q = [10, 64] ∧
      (diagSample 0x7F { up with sw := { up.sw with diagHold := 50 } }).sw.diagHold = 49 := by decide

/-- V79, V80. -/
theorem test_lamp_step :
    ([(0, 0), (1, 0), (0, 1), (1, 2)].map fun d =>
        lampByte { up.lamp with on := Vector.replicate 8 0xFF, dim1 := Vector.replicate 8 0x0F,
                                dim2 := Vector.replicate 8 0x30, dimc1 := d.1, dimc2 := d.2 } 3) = [0xFF, 0xF0, 0xCF, 0xC0] ∧
      (let l := lampAdvance refCfg { up.lamp with bank := 7, dimc1 := 1, dimc2 := 2 }
       (l.bank, l.dimc1, l.dimc2)) = (0, 0, 0) := by decide +kernel

/-- `44_lamp_display.md` R208. -/
theorem test_display_step :
    after (displayStep { up with disp := { up.disp with slot := 1, digit := up.disp.digit.set 0 [0, 0, 1, 2, 3, 4],
                                                         blank := up.disp.blank.set 0 0x3C } }) (fun s => s.bus.hist) =
      some [.write 0x1000 0x02, .write 0x1001 0xF1, .write 0x1002 0xFF] := by decide +kernel

/-! ## One step -/

/-- V1, V2: before INIT every other command answers BAD_MODE. -/
theorem test_step_bad_mode : after (step (State.reset.withFetchWord 64 0x3000000000000000)) (fun s => s.port.rsp) =
    some 0x60000000 ∧ after (step (State.reset.withFetchWord 64 0)) (fun s => s.port.rsp) = some 0x60000000 := by decide

/-- V3: a reserved operation code in RUN. -/
theorem test_step_reserved : after (step (up.withFetchWord 64 0)) (fun s => s.port.rsp) = some 0x50000000 := by decide

/-- V111: the tick first, the command waits. -/
theorem test_step_tick_first :
    after (step (ticked (offered 0x2000000000000000 up))) (fun s => (s.bus.hist.length, s.port.cmds.length, s.sch.phase)) =
      some (22, 1, true) := by decide +kernel

/-- V19: two pulses while a BUSWR is in progress leave one pending. -/
theorem test_step_two_ticks :
    after (step { offered 0x10000000200100FF up with inp := { ticks := [{ before := 0, during := 2 }], bootOrigReq := false } })
      (fun s => (s.sch.tickPend, s.bus.hist, s.port.cmds, s.inp.ticks)) =
      some (true, [.write 0x2001 0xFF], [], []) := by decide +kernel

/-- V19: pulses before and during INIT are ignored. -/
theorem test_step_ticks_in_init :
    after (step { offered 0x0100000000000000 cold with inp := { ticks := [{ before := 3, during := 2 }], bootOrigReq := false } })
      (fun s => (s.sch.tickPend, s.mode)) = some (false, .run) := by decide +kernel

/-! ## Witnesses: for each statement with hypotheses, and for each clause of it, a concrete case that meets them together -/

/-- A pending entry of a sound, at 500 ms. -/
def pendingSound (s : State) : State :=
  { s with snd := { s.snd with t := { used := true, id := 0x12, rep := 1, fire := 500, ovr := false } :: s.snd.t.tail } }

/-- `s` with every solenoid slot, and every sound slot, used. -/
def fullTables (s : State) : State :=
  { s with
    sol := { s.sol with t := List.replicate 32 { used := true, id := 0, rep := 0, fire := 0, ovr := false } }
    snd := { s.snd with t := List.replicate 20 { used := true, id := 0, rep := 0, fire := 0, ovr := false } } }

/-- `s` after passthrough. -/
def haltedUp : State := { cold with mode := .halted }

theorem witness_OpcodeByteAloneSelects :
    decode 0x3105030000000000 = .ok (.solpush 5 3 false) ∧
      (0x31FFFFFFFFFFFFFF : CmdWord) &&& 0xFF00000000000000 = 0x3105030000000000 &&& 0xFF00000000000000 := by decide

theorem witness_IgnoredBitsHaveNoEffect :
    (0x400AFDFFABCD0000 : CmdWord) &&& usedBits (fieldOp 0x400AFDFFABCD0000) =
      0x400A010100000000 &&& usedBits (fieldOp 0x400AFDFFABCD0000) := by decide

theorem witness_StepRunsTheDecodedCommand :
    let s := offered 0x3400000000000000 up
    s.cfg.legal = true ∧ s.mode ≠ .halted ∧ s.sch.tickPend = false ∧ (tickSample s).before = 0 ∧
      s.port.cmds = 0x3400000000000000 :: [] ∧ decode 0x3400000000000000 = .ok .solen := by decide

/-- The form with pulses before the choice: UNINIT and INIT (V19). -/
theorem witness_StepRunsTheDecodedCommand_uninit :
    let s : State := { offered 0x0100000000000000 cold with inp := { ticks := [{ before := 3, during := 2 }], bootOrigReq := false } }
    s.cfg.legal = true ∧ s.mode = .uninit ∧ s.sch.tickPend = false ∧ (tickSample s).before = 3 ∧
      s.port.cmds = 0x0100000000000000 :: [] ∧ decode 0x0100000000000000 = .ok (.init 0) := by decide

theorem witness_ReservedOpcodeIsAnswered :
    let s := offered 0 up
    let u := offered 0 cold
    (s.cfg.legal = true ∧ s.mode = .run ∧ s.sch.tickPend = false ∧ (tickSample s).before = 0 ∧ s.port.cmds = 0 :: [] ∧
        decode 0 = .error (.reservedOpcode 0)) ∧
      u.cfg.legal = true ∧ u.mode = .uninit ∧ u.sch.tickPend = false ∧ (tickSample u).before = 0 ∧ u.port.cmds = 0 :: [] := by
  decide

theorem witness_PendingTickRunsBeforeWaitingCommand :
    let s := ticked (offered 0x2000000000000000 up)
    let u : State := { offered 0x2000000000000000 up with inp := { ticks := [{ before := 1, during := 0 }], bootOrigReq := false } }
    (s.cfg.legal = true ∧ s.mode = .run ∧ s.sch.tickPend = true ∧ (after (step s) fun _ => ()) = some ()) ∧
      u.cfg.legal = true ∧ u.mode = .run ∧ u.sch.tickPend = false ∧ 0 < (tickSample u).before ∧
        (after (step u) fun _ => ()) = some () := by decide +kernel

theorem witness_TickLatchIsOneDeep : (up.mode = .run ∧ 0 < 1) ∧ cold.mode ≠ .run ∧ haltedUp.mode ≠ .run := by decide

theorem witness_HaltedOrIdleBlockHoldsItsState : haltedUp.cfg.legal = true ∧ haltedUp.mode = .halted := by decide

/-- The idle clause: RUN with a pulse during the step, UNINIT with pulses before the choice. -/
theorem witness_HaltedOrIdleBlockHoldsItsState_idle :
    let s : State := { up with inp := { ticks := [{ before := 0, during := 1 }], bootOrigReq := false } }
    let u : State := { cold with inp := { ticks := [{ before := 2, during := 1 }], bootOrigReq := false } }
    (s.cfg.legal = true ∧ s.mode = .run ∧ s.sch.tickPend = false ∧ s.port.cmds = [] ∧ (tickSample s).before = 0) ∧
      u.cfg.legal = true ∧ u.mode = .uninit ∧ u.sch.tickPend = false ∧ u.port.cmds = [] := by decide

/-- Both sides occur: U13's 0 and 65,536, U14's odd granularity, U15's position outside its field; and the reference configuration. -/
theorem witness_IllegalConfigurationIsRefused :
    step { up with cfg := { refCfg with solQCap := 0 } } = .refused .illegalConfig ∧
      step { up with cfg := { refCfg with sndTimedCap := 65536 } } = .refused .illegalConfig ∧
      step { up with cfg := { refCfg with flashGranMs := 5 } } = .refused .illegalConfig ∧
      step { up with cfg := { refCfg with displayDigits := 5 } } = .refused .illegalConfig ∧
      (after (step up) fun _ => ()) = some () :=
  ⟨by rfl, by rfl, by rfl, by rfl, by rfl⟩

theorem witness_EveryCommandAnswersOnce :
    after (exec .solspace up) rspStatus = some 0 ∧ after (exec .swpull up) rspStatus = some 1 ∧
      after (exec (.init 0) { cold with inp := { ticks := [], bootOrigReq := true } }) rspStatus = some 7 := by decide

theorem witness_RefusalsChangeNothing :
    after (exec .swpull up) (fun t => decide (rspStatus t ≠ 0 ∧ rspStatus t ≠ 7)) = some true ∧
      after (exec .solspace cold) (fun t => decide (rspStatus t ≠ 0 ∧ rspStatus t ≠ 7)) = some true := by decide

theorem witness_BeforeInitOtherCommandsAreBadMode : cold.mode = .uninit ∧ ∀ c, Instr.diagq ≠ .init c :=
  ⟨rfl, fun _ => Instr.noConfusion⟩

theorem witness_OutOfRangeIdentifiersAreNoOps :
    (Instr.solpush 16 0 true).wellFormed = false ∧ up.mode ≠ .uninit ∧ haltedUp.mode ≠ .uninit := by decide

theorem witness_OnlyThreeCommandsTouchTheBus :
    (∀ c, Instr.swpull ≠ .init c) ∧ (∀ a d, Instr.swpull ≠ .buswr a d) ∧ (∀ a, Instr.swpull ≠ .busrd a) ∧
      (after (exec .swpull up) fun _ => ()) = some () :=
  ⟨fun _ => Instr.noConfusion, fun _ _ => Instr.noConfusion, fun _ => Instr.noConfusion, rfl⟩

theorem witness_CommandsLeaveHandlerOwnedState :
    (∀ c, Instr.buswr 0x2001 0xFF ≠ .init c) ∧ (after (exec (.buswr 0x2001 0xFF) up) fun _ => ()) = some () :=
  ⟨fun _ => Instr.noConfusion, by decide⟩

theorem witness_HandlerLeavesHostOwnedState :
    (after (tickHandler up) fun _ => ()) = some () ∧ (after (tickHandler (inPhase true up)) fun _ => ()) = some () := by
  decide +kernel

theorem witness_ModeOnlyLeavesUninit :
    after (step (offered 0x0100000000000000 cold)) (fun t => t.mode) = some .run ∧
      after (step { offered 0x0100000000000000 cold with inp := { ticks := [], bootOrigReq := true } }) (fun t => t.mode) =
        some .halted ∧
      after (step up) (fun t => t.mode) = some .run := by decide +kernel

theorem witness_ConfigurationAndHistoryPersist :
    after (step (offered 0x10000000200100FF up)) (fun t => t.bus.hist) = some [.write 0x2001 0xFF] := by decide +kernel

theorem witness_RunNeverStopsWhileClockRuns :
    State.reset.cfg.legal = true ∧ State.reset.bus.clk.running = true ∧ up.cfg.legal = true ∧ up.bus.clk.running = true := by
  decide

theorem witness_StepKeepsQueuesBounded :
    QueuesBounded { up with sol := { up.sol with q := List.replicate 250 1 } } ∧
      (after (step (offered 0x3400000000000000 { up with sol := { up.sol with q := List.replicate 250 1 } })) fun _ => ()) =
        some () :=
  ⟨by constructor <;> decide +kernel, by decide +kernel⟩

theorem witness_StepKeepsDisplaysFit :
    DisplaysFit up ∧ (after (step (offered 0x48000201000004D2 up)) fun t => t.disp.blank[0]) = some 0x3C := by
  have h : ∀ f : Fin 6, up.disp.blank[f] = 0 := by decide
  exact ⟨⟨by decide, by decide, fun f p _ => by rw [h f]; simp⟩, by decide +kernel⟩

theorem witness_StepKeepsBusOwned :
    BusOwned up ∧ BusOwned (ticked up) ∧ (after (step (ticked up)) fun _ => ()) = some () :=
  ⟨⟨⟨rfl, ⟨rfl, rfl, rfl, rfl⟩⟩, rfl, rfl, by decide⟩, ⟨⟨rfl, ⟨rfl, rfl, rfl, rfl⟩⟩, rfl, rfl, by decide⟩, by decide +kernel⟩

theorem witness_StepKeepsDiagnosticQueuedOnce :
    DiagOnce { ticked (answering 0x80 up) with sw := { up.sw with q := [10, 64] } } ∧
      (after (step { ticked (answering 0x80 up) with sw := { up.sw with q := [10, 64] } }) fun _ => ()) = some () :=
  ⟨⟨by decide, by decide⟩, rfl⟩

theorem witness_StepKeepsCountersInRange :
    CountersInRange { ticked up with sw := { up.sw with diagHold := 50 }, lamp := { up.lamp with bank := 7, dimc1 := 1, dimc2 := 2 } } ∧
      (after (step { ticked up with sw := { up.sw with diagHold := 50 },
                                    lamp := { up.lamp with bank := 7, dimc1 := 1, dimc2 := 2 } }) fun _ => ()) = some () :=
  ⟨by constructor <;> decide, by decide +kernel⟩

theorem witness_InitClearsConfiguresAndRuns :
    cold.mode = .uninit ∧ cold.inp.bootOrigReq = false ∧ cold.bus.clk.running = true := by decide

theorem witness_InitPassthroughHaltsAndSecondInitIsRefused :
    let s : State := { cold with inp := { ticks := [], bootOrigReq := true } }
    (s.mode = .uninit ∧ s.inp.bootOrigReq = true) ∧ up.mode ≠ .uninit ∧ haltedUp.mode ≠ .uninit := by decide

theorem witness_bus_commands : up.mode ≠ .uninit ∧ up.bus.clk.running = true ∧
    (answering 0x80 up).bus.answers.headD 0 = 0x80 ∧ { up.bus with answers := [] }.answers = [] := by decide

theorem witness_SwpullTakesTheOldestEvent :
    up.mode ≠ .uninit ∧ up.sw.q = [] ∧ { up.sw with q := [10, 64] }.q = 10 :: [64] := by decide

theorem witness_SwitchQueriesAnswerFromState : up.mode ≠ .uninit ∧ (7 : Nat) < 8 ∧ (64 : Nat) ≤ 64 := by decide

theorem witness_SpaceQueriesCountFreeSlots : up.mode ≠ .uninit ∧ up.cfg.legal = true := by decide

/-- Clause by clause, at the boundary: disabled; one slot too many; exactly the free slots, enabled and by override. -/
theorem witness_SolpushAppendsOrRejects :
    up.mode ≠ .uninit ∧ (15 : BitVec 8).toNat ≤ 15 ∧ up.sol.en = false ∧
      (let s := sol true (List.replicate 249 1) up
       s.sol.en = true ∧ s.cfg.solQCap - s.sol.q.length < (2 : BitVec 8).toNat ∧
         (1 : BitVec 8).toNat ≤ s.cfg.solQCap - s.sol.q.length) ∧
      (let s := sol false (List.replicate 250 1) up
       s.sol.en = false ∧ (0 : BitVec 8).toNat ≤ s.cfg.solQCap - s.sol.q.length) := by decide +kernel

theorem witness_SolpushfInsertsAtTheHeadOrRejects :
    up.mode ≠ .uninit ∧ (15 : BitVec 8).toNat ≤ 15 ∧ up.sol.en = false ∧
      (let s := sol true (List.replicate 249 1) up
       s.sol.en = true ∧ s.cfg.solQCap - s.sol.q.length < (2 : BitVec 8).toNat ∧
         (1 : BitVec 8).toNat ≤ s.cfg.solQCap - s.sol.q.length) := by decide +kernel

theorem witness_SndpushAppendsOrRejects :
    let s : State := { up with snd := { up.snd with q := List.replicate 249 1 } }
    s.mode ≠ .uninit ∧ s.cfg.sndQCap - s.snd.q.length < (2 : BitVec 8).toNat ∧
      (1 : BitVec 8).toNat ≤ s.cfg.sndQCap - s.snd.q.length := by decide +kernel

theorem witness_SolschedTakesTheLowestFreeSlot :
    let e : TimedEntry 4 := { used := true, id := 3, rep := 2, fire := 1000, ovr := false }
    up.mode ≠ .uninit ∧ (15 : BitVec 8).toNat ≤ 15 ∧
      (pending true up).sol.t = [e] ++ TimedEntry.blankSlot 4 :: List.replicate 30 (TimedEntry.blankSlot 4) ∧
      (∀ x ∈ [e], x.used = true) ∧ (TimedEntry.blankSlot 4).used = false ∧
      ∀ x ∈ (fullTables up).sol.t, x.used = true := by decide +kernel

theorem witness_SndschedTakesTheLowestFreeSlot :
    let e : TimedEntry 8 := { used := true, id := 0x12, rep := 1, fire := 500, ovr := false }
    up.mode ≠ .uninit ∧
      (pendingSound up).snd.t = [e] ++ TimedEntry.blankSlot 8 :: List.replicate 18 (TimedEntry.blankSlot 8) ∧
      (∀ x ∈ [e], x.used = true) ∧ (TimedEntry.blankSlot 8).used = false ∧
      ∀ x ∈ (fullTables up).snd.t, x.used = true := by decide +kernel

theorem witness_served : up.mode ≠ .uninit := by decide

theorem witness_SolcontWritesOneBit : up.mode ≠ .uninit ∧ (15 : BitVec 8).toNat ≤ 15 ∧ 15 < 16 := by decide

/-- The entry at 1000 ms: UPDATE at 1000 with room and enabled; at 1000 while disabled; at 1000 with one slot free; at 999. -/
theorem witness_DueEntryReachesItsQueueExactly :
    let e : TimedEntry 4 := { used := true, id := 3, rep := 2, fire := 1000, ovr := false }
    let post := List.replicate 31 (TimedEntry.blankSlot 4)
    (after (exec (.update 1000) (pending true up)) fun _ => ()) = some () ∧
      (pending true up).sol.t = [] ++ e :: post ∧ e.used = true ∧
      (∀ x ∈ [] ++ post, ¬ (x.used = true ∧ x.fire.toNat ≤ (1000 : Time).toNat)) ∧
      (e.fire.toNat ≤ (1000 : Time).toNat ∧ (pending true up).sol.en = true ∧
        e.rep.toNat ≤ (pending true up).cfg.solQCap - (pending true up).sol.q.length) ∧
      ((pending false up).sol.en = false ∧ e.ovr = false) ∧
      (let s := sol true (List.replicate 249 1) (pending true up)
       s.cfg.solQCap - s.sol.q.length < e.rep.toNat) ∧
      (999 : Time).toNat < e.fire.toNat := by decide +kernel

theorem witness_DueEntryReachesItsQueueExactly_sound :
    let e : TimedEntry 8 := { used := true, id := 0x12, rep := 1, fire := 500, ovr := false }
    let post := List.replicate 19 (TimedEntry.blankSlot 8)
    (pendingSound up).snd.t = [] ++ e :: post ∧ e.used = true ∧
      (∀ x ∈ [] ++ post, ¬ (x.used = true ∧ x.fire.toNat ≤ (500 : Time).toNat)) ∧
      e.fire.toNat ≤ (500 : Time).toNat ∧ e.rep.toNat ≤ (pendingSound up).cfg.sndQCap - (pendingSound up).snd.q.length ∧
      (let s : State := { pendingSound up with snd := { (pendingSound up).snd with q := List.replicate 250 1 } }
       s.cfg.sndQCap - s.snd.q.length < e.rep.toNat) ∧
      (499 : Time).toNat < e.fire.toNat := by decide +kernel

theorem witness_QueuesAreFirstInFirstOut :
    List.length [1, 2] ≤ 3 ∧
      runQueue 3 [.push 5 2, .push 7 1, .pull, .pull, .push 8 0, .pull, .pull] [1, 2] = ([1, 2, 7], [7], []) := by decide

theorem witness_LampsetWritesOneLamp :
    up.mode ≠ .uninit ∧ (63 : BitVec 8).toNat ≤ 63 ∧ up.cfg.legal = true ∧ (63 : Fin 64).val = (63 : BitVec 8).toNat ∧
      (62 : Fin 64).val ≠ (63 : BitVec 8).toNat := by decide

theorem witness_LampoffThenOneLampset :
    up.mode ≠ .uninit ∧ (63 : BitVec 8).toNat ≤ 63 ∧
      after (exec (.lampset 63 0 false 0) up) (fun a => (after (exec (.lampset 63 3 false 7) a) fun _ => ())) =
        some (some ()) := by decide +kernel

theorem witness_display_fields : up.mode ≠ .uninit ∧ up.cfg.legal = true := by decide

theorem witness_running : up.bus.clk.running = true := by decide

/-- The SOUND_BITS clauses: a listed code, the first entry counting, and an unlisted one. -/
theorem witness_OutputPhaseWritesTheOutputWord_sound :
    let l : List (SoundCode × BitVec 16) := [(0xFF, 0x8000), (0, 0x0001), (0, 0x0002)]
    l = [(0xFF, 0x8000)] ++ (0, 0x0001) :: [(0, 0x0002)] ∧ (∀ x ∈ [((0xFF : SoundCode), (0x8000 : BitVec 16))], x.1 ≠ 0) ∧
      ∀ x ∈ l, x.1 ≠ 0x7F := by simp

/-- The diagnostic clause: an active sample, the line released, the identifier not queued, one slot free. -/
theorem witness_InputPhaseIssuesItsTwentyTwoCycles :
    let w : Switches := { up.sw with q := List.replicate 63 1 }
    up.bus.clk.running = true ∧ (0x80 : Byte) &&& up.cfg.diagStatusMask ≠ 0 ∧ w.diagHold = 0 ∧ 64 ∉ w.q ∧
      w.q.length < up.cfg.swQCap := by decide

/-- The lane clauses: slot 9, lane 3 is none, lane 1 is position 1 of field 5, whose digit is 7. -/
theorem witness_InputPhaseIssuesItsTwentyTwoCycles_lane :
    let row : List (Option (Nat × Nat)) := [some (4, 1), some (5, 1), none, none]
    refCfg.slotTable[9]? = some row ∧ row[3]? = some none ∧ row[1]? = some (some ((5 : Fin 6).val, 1)) ∧
      { up.disp with digit := up.disp.digit.set 5 [0, 7] }.digit[(5 : Fin 6)][1]? = some 7 := by decide

theorem witness_HandlerAlternatesPhasesInBoundedWork :
    up.bus.clk.running = true ∧ up.sch.phase = false ∧
      (let s := inPhase true (sol true [5] up)
       s.sch.phase = true ∧ s.sol.q ≠ [] ∧ s.sol.firing = false) ∧
      (let s : State := { inPhase true up with sol := { up.sol with firing := true } }
       s.sch.phase = true ∧ s.sol.q = [] ∧ s.sol.firing = true) ∧
      (let s := inPhase true up
       s.sch.phase = true ∧ (s.sol.q = [] ↔ s.sol.firing = false)) ∧
      (let s : State := { inPhase true up with sol := { up.sol with q := [5], firing := true } }
       s.sch.phase = true ∧ (s.sol.q = [] ↔ s.sol.firing = false)) := by decide

/-- The clauses on the sample: active and released with room; active and held; active and queued; active and full; inactive. -/
theorem witness_DiagnosticPressFromReleasedIsQueued :
    up.bus.clk.running = true ∧ (0x80 : Byte) &&& up.cfg.diagStatusMask ≠ 0 ∧ up.sw.diagHold = 0 ∧ 64 ∉ up.sw.q ∧
      up.sw.q.length < up.cfg.swQCap ∧ { up.sw with diagHold := 1 }.diagHold ≠ 0 ∧ 64 ∈ { up.sw with q := [10, 64] }.q ∧
      up.cfg.swQCap ≤ { up.sw with q := List.replicate 64 1 }.q.length ∧ (0x7F : Byte) &&& up.cfg.diagStatusMask = 0 := by decide

theorem witness_DimLampIsDrivenOncePerDivisor :
    let l : Lamps := { up.lamp with on := Vector.replicate 8 0xFF, dim1 := Vector.replicate 8 0x0F, dim2 := Vector.replicate 8 0xF0 }
    (l.on[(7 : Fin 8)].getLsbD 3 = true ∧ l.dim1[(7 : Fin 8)].getLsbD 3 = true ∧ l.dim2[(7 : Fin 8)].getLsbD 3 = false ∧
        0 < refCfg.dimDiv1) ∧
      (l.on[(7 : Fin 8)].getLsbD 7 = true ∧ l.dim1[(7 : Fin 8)].getLsbD 7 = false ∧ l.dim2[(7 : Fin 8)].getLsbD 7 = true ∧
        0 < refCfg.dimDiv2) := by decide +kernel

theorem witness_ContinuousMaskIsAlwaysDriven :
    up.mode ≠ .uninit ∧ (15 : BitVec 8).toNat ≤ 15 ∧ up.sol.cont.getLsbD (15 : BitVec 8).toNat = false ∧
      after (exec (.solcont 15 true) up) (fun a => (after (exec (.solcont 15 false) a) fun _ => ())) = some (some ()) ∧
      up.bus.clk.running = true ∧ up.sol.q = [] ∧ up.snd.q = [] := by decide

theorem witness_LinesAreStableWhileStrobeIsHigh :
    let e := engineSteps [true, false, true] 5 (engineAccept { rw := true, addr := 0x3000, wdata := 1 } up.bus)
    e.pin.stb = true ∧ e.st = .strobe ∧ up.bus.pin.stb = false ∧ up.bus.pin.dataOE = false := by decide

/-- The second part on a read: after five steps the strobe is high. -/
theorem witness_LinesAreStableWhileStrobeIsHigh_read :
    (engineSteps [true, false] 5 (engineAccept { rw := false, addr := 0xFFFF, wdata := 0 } up.bus)).pin.stb = true := by decide

theorem witness_StrobeWindowSpansOneClockPeriod :
    up.bus.pin.stb = false ∧
      (busCycle [true, false, true] { rw := true, addr := 0x3000, wdata := 1 } up.bus).isSome = true ∧
      (busCycle [true, false] { rw := true, addr := 0x3000, wdata := 1 } up.bus).isSome = true := by decide

theorem witness_FaultExactlyWhenTheCycleHangs :
    (stopped true up).cfg.strobeLegal = true ∧ (stopped true up).bus.clk.samples = [] ∧
      (stopped true up).bus.clk.running = false ∧ (stopped false up).bus.clk.running = false := by decide

end Sys2Proof.Machine.Tests
end

/-! PROOFS, the layer they share: what a command, a handler invocation and a step can do to the state, said once
(`10_state.md` R43). -/

namespace Sys2Proof.Machine

/-! ## What a command can do -/

/-- The one update a command other than INIT makes before it answers: none, a bus cycle, or one write to a part of the state that
the host owns (`10_state.md` R43). -/
inductive CommandUpdate (s : State) : State → Prop where
  | nothing : CommandUpdate s s
  | cycle (r : BusRequest) (e : BusEngine) (done : CycleDone r s.bus e) : CommandUpdate s (s.withBus e)
  | swPull : CommandUpdate s (s.withSw { s.sw with q := s.sw.q.tail })
  | solPush (id : SolId) (n : BitVec 8) (q : List SolId) (pushed : push s.cfg.solQCap s.sol.q id n = some q) :
      CommandUpdate s (s.withSol { s.sol with q := q })
  | solPushFront (id : SolId) (n : BitVec 8) (q : List SolId) (pushed : pushFront s.cfg.solQCap s.sol.q id n = some q) :
      CommandUpdate s (s.withSol { s.sol with q := q })
  | solSchedule (e : TimedEntry 4) (t : List (TimedEntry 4)) (scheduled : schedule e s.sol.t = some t) :
      CommandUpdate s (s.withSol { s.sol with t := t })
  | solEnable (b : Bool) : CommandUpdate s (s.withSol { s.sol with en := b })
  | solContinuous (x : BitVec 16) : CommandUpdate s (s.withSol { s.sol with cont := x })
  | sndPush (id : SoundCode) (n : BitVec 8) (q : List SoundCode) (pushed : push s.cfg.sndQCap s.snd.q id n = some q) :
      CommandUpdate s (s.withSnd { s.snd with q := q })
  | sndSchedule (e : TimedEntry 8) (t : List (TimedEntry 8)) (scheduled : schedule e s.snd.t = some t) :
      CommandUpdate s (s.withSnd { s.snd with t := t })
  | update (now : Time) : CommandUpdate s (timedTickSnd now (timedTickSol now (flashRecompute now s)))
  | lampTargets (on dim1 dim2 : Vector Byte 8) (fp : Vector Byte 64) :
      CommandUpdate s (s.withLamp { s.lamp with on := on, dim1 := dim1, dim2 := dim2, fp := fp })
  | dispValue (f : Fin 6) (value min' : Nat) (blz : Bool) :
      CommandUpdate s (s.withDisp
        { s.disp with
          digit := s.disp.digit.set f (digitCodes value (s.cfg.fieldWidth f.val))
          blank := s.disp.blank.set f (blankMask value (s.cfg.fieldWidth f.val) blz min') })
  | dispMask (f : Fin 6) (mask : Byte) :
      CommandUpdate s (s.withDisp
        { s.disp with
          blank := s.disp.blank.set f (mask &&& BitVec.ofNat 8 (2 ^ s.cfg.fieldWidth f.val - 1)) })

/-- `t` is `s` after one such update and a response. -/
def AnswersAfterUpdate (s t : State) : Prop := ∃ st d u, CommandUpdate s u ∧ t = respond st d u

theorem AnswersAfterUpdate.of_respond {s t u : State} {st : Status} {d : BitVec 16} (hu : CommandUpdate s u)
    (h : Host.Outcome.next (respond st d u) = (.next t : Result)) : AnswersAfterUpdate s t := by
  cases h
  exact ⟨st, d, u, hu, rfl⟩

theorem AnswersAfterUpdate.of_refuse {s t : State} {st : Status} (h : refuse st s = .next t) : AnswersAfterUpdate s t :=
  .of_respond .nothing h

theorem AnswersAfterUpdate.of_served {s t : State} {r : Result} (h : served s r = .next t)
    (k : r = .next t → AnswersAfterUpdate s t) : AnswersAfterUpdate s t := by
  obtain ⟨-, rfl⟩ | ⟨-, hr⟩ := served_next h
  · exact ⟨_, _, s, .nothing, rfl⟩
  · exact k hr

/-- A test that refuses when it fails stands before what the command does. -/
theorem AnswersAfterUpdate.of_tested {c : Prop} [Decidable c] {s t : State} {st : Status} {r : Result}
    (h : (if c then refuse st s else r) = .next t) (k : r = .next t → AnswersAfterUpdate s t) : AnswersAfterUpdate s t := by
  split at h
  · exact .of_refuse h
  · exact k h

theorem AnswersAfterUpdate.of_answerReserved {s t : State} (h : answerReserved s = .next t) : AnswersAfterUpdate s t :=
  .of_served h .of_refuse

/-- Everything a command other than INIT can do. -/
theorem exec_next {i : Instr} {s t : State} (hi : ∀ c, i ≠ .init c) (h : exec i s = .next t) : AnswersAfterUpdate s t := by
  cases i with
  | init credit => exact absurd rfl (hi credit)
  | buswr addr data =>
    refine .of_served h fun h => ?_
    obtain ⟨u, hu, h⟩ := chain_eq_next.1 h
    obtain ⟨e, rfl, done⟩ := busWrite_next hu
    exact .of_respond (.cycle _ e done) h
  | busrd addr =>
    refine .of_served h fun h => ?_
    obtain ⟨u, hu, h⟩ := chain_eq_next.1 h
    obtain ⟨e, rfl, done⟩ := busRead_next hu
    exact .of_respond (.cycle _ e done) h
  | swpull =>
    refine .of_served h fun h => ?_
    rw [← Prod.mk.eta (p := pull s.sw.q), pull_fst, pull_snd] at h
    split at h
    · exact .of_refuse h
    · rename_i hq
      cases (Prod.mk.inj hq).2
      exact .of_respond .swPull h
  | swpeek id | swisq id | dispgetb field => exact .of_served h fun h => .of_tested h (.of_respond .nothing)
  | solspace | sndspace => exact .of_served h (.of_respond .nothing)
  | solpush id rep allow =>
    refine .of_served h fun h => .of_tested h fun h => .of_tested h fun h => ?_
    split at h
    · exact .of_refuse h
    · exact .of_respond (.solPush _ _ _ ‹_›) h
  | solpushf id rep =>
    refine .of_served h fun h => .of_tested h fun h => .of_tested h fun h => ?_
    split at h
    · exact .of_refuse h
    · exact .of_respond (.solPushFront _ _ _ ‹_›) h
  | solsched id rep ovr time =>
    refine .of_served h fun h => .of_tested h fun h => ?_
    split at h
    · exact .of_refuse h
    · exact .of_respond (.solSchedule _ _ ‹_›) h
  | solen => exact .of_served h (.of_respond (.solEnable true))
  | soldis => exact .of_served h (.of_respond (.solEnable false))
  | solcont id on => exact .of_served h fun h => .of_tested h (.of_respond (.solContinuous _))
  | sndpush id rep =>
    refine .of_served h fun h => ?_
    split at h
    · exact .of_refuse h
    · exact .of_respond (.sndPush _ _ _ ‹_›) h
  | sndsched id rep ovr time =>
    refine .of_served h fun h => ?_
    split at h
    · exact .of_refuse h
    · exact .of_respond (.sndSchedule _ _ ‹_›) h
  | update time => exact .of_served h (.of_respond (.update time))
  | lampset id dim on period =>
    refine .of_served h fun h => .of_tested h fun h => ?_
    split at h
    · exact .of_respond (.lampTargets _ _ _ _) h
    · exact .of_respond (.lampTargets _ _ _ _) h
  | lampoff => exact .of_served h (.of_respond (.lampTargets _ _ _ _))
  | dispval field min' blz value =>
    exact .of_served h fun h => .of_tested h (.of_respond (.dispValue (fieldOf field) value.toNat min'.toNat blz))
  | dispblank field mask => exact .of_served h fun h => .of_tested h (.of_respond (.dispMask (fieldOf field) mask))
  | diagq | diagclr | flipdis | sndrange | lampflashall | dispcycle => exact .of_answerReserved h

/-- No command but INIT writes what the configuration, the environment or the tick handler owns, nor the mode: of `sw` the queue,
of `lamp` the targets (`10_state.md` R41, R43). -/
structure HostWrites (s t : State) : Prop where
  cfg : t.cfg = s.cfg
  mode : t.mode = s.mode
  sch : t.sch = s.sch
  sw : t.sw = { s.sw with q := t.sw.q }
  firing : t.sol.firing = s.sol.firing
  lamp : t.lamp = { s.lamp with on := t.lamp.on, dim1 := t.lamp.dim1, dim2 := t.lamp.dim2, fp := t.lamp.fp }
  slot : t.disp.slot = s.disp.slot
  inp : t.inp = s.inp

theorem CommandUpdate.hostWrites {s u : State} (h : CommandUpdate s u) : HostWrites s u := by
  cases h with
  | update now =>
    constructor
    case lamp =>
      simp only [timedTickSnd_lamp, timedTickSol_lamp, flashRecompute_lamp]
      rw [flashFold_frame]
    all_goals simp
  | _ => exact ⟨rfl, rfl, rfl, rfl, rfl, rfl, rfl, rfl⟩

theorem exec_hostWrites {i : Instr} {s t : State} (hi : ∀ c, i ≠ .init c) (h : exec i s = .next t) : HostWrites s t := by
  obtain ⟨st, d, u, hu, rfl⟩ := exec_next hi h
  obtain ⟨hcfg, hmode, hsch, hsw, hfiring, hlamp, hslot, hinp⟩ := hu.hostWrites
  exact ⟨hcfg, hmode, hsch, hsw, hfiring, hlamp, hslot, hinp⟩

/-! ## What INIT can do -/

/-- INIT's writes done, the block is in the state of the "after INIT" column (`10_state.md` R42). -/
theorem afterInit_of_periphInit {s u : State} {st : Status} {d : BitVec 16}
    (h : writeAll s.cfg.initSeq (ownBus (clearAllState (setHaltLegacy true s))) = .next u) :
    AfterInit s (respond st d (u.withMode .run)) := by
  obtain ⟨e, rfl, done⟩ := writeAll_next h
  refine
    { cfg := rfl, mode := rfl, busOE := done.busOE, haltLegacy := done.haltLegacy,
      quiet := done.quiet ⟨rfl, rfl, rfl, rfl, rfl⟩,
      sch := rfl, sw := rfl, solQ := rfl, solT := clearTable_free _ _, solEn := rfl, solFiring := rfl, solCont := rfl,
      sndQ := rfl, sndT := clearTable_free _ _, lamp := rfl, digit := ?_, blank := ?_, slot := rfl, inp := rfl, cmds := rfl }
  · intro f
    fin_cases f <;> rfl
  · intro f
    fin_cases f <;> rfl

/-- The three ends of INIT: refused outside UNINIT, passthrough, or configured (`41_peripheral_config.md` R132 to R134). -/
theorem execInit_next {credit : BitVec 8} {s t : State} (h : execInit credit s = .next t) :
    (s.mode ≠ .uninit ∧ t = respond .badMode 0 s) ∨
      (s.mode = .uninit ∧
        t = respond .halted 0 ((setHaltLegacy false (floatBus (setHaltLegacy true s))).withMode .halted)) ∨
      (s.mode = .uninit ∧ AfterInit s t) := by
  by_cases hm : s.mode = .uninit
  · right
    cases hb : s.inp.bootOrigReq with
    | true =>
      have hb' : (setHaltLegacy true s).inp.bootOrigReq = true := hb
      simp only [execInit, hm, hb', ne_eq, not_true_eq_false, if_false, if_true] at h
      cases h
      exact .inl ⟨hm, rfl⟩
    | false =>
      rw [execInit_configure credit hm hb, chain_eq_next] at h
      obtain ⟨u, hu, h⟩ := h
      cases h
      exact .inr ⟨hm, afterInit_of_periphInit hu⟩
  · left
    simp only [execInit, ne_eq, hm, not_false_eq_true, if_true] at h
    cases h
    exact ⟨hm, rfl⟩

/-! ## What a handler invocation can do -/

/-- The switches after an input phase that reads the status byte `v` and the column samples `w`: the diagnostic sample, the shift
of every column, the closures enqueued (`45_interrupt_scheduler.md` R222). -/
def switchesAfterInput (v : Byte) (w : Fin 8 → Byte) (s : State) : Switches :=
  (enqueueClosures ((diagSample v s).withSw (shiftColumns w (List.finRange 8) (diagSample v s).sw))).sw

theorem switchesAfterInput_q (v : Byte) (w : Fin 8 → Byte) (s : State) :
    (switchesAfterInput v w s).q =
      (diagSample v s).sw.q ++
        (closures s.cfg (shiftColumns w (List.finRange 8) (diagSample v s).sw)).take
          (s.cfg.swQCap - (diagSample v s).sw.q.length) := by
  have hcfg : (diagSample v s).cfg = s.cfg := by rw [diagSample_frame]; rfl
  simp only [switchesAfterInput, enqueueClosures, State.withSw_sw, State.withSw_cfg, foldl_enqueueInto,
    (shiftColumns_rest w _ _).1, hcfg]

theorem switchesAfterInput_diagHold (v : Byte) (w : Fin 8 → Byte) (s : State) :
    (switchesAfterInput v w s).diagHold = (diagSample v s).sw.diagHold :=
  (shiftColumns_rest w _ _).2

/-- The stored data after an input phase that reads the status byte `v` and the column samples `w`. -/
def afterInput (v : Byte) (w : Fin 8 → Byte) (s : State) : State :=
  { s with
    sw := switchesAfterInput v w s
    lamp := lampAdvance s.cfg s.lamp
    disp := { s.disp with slot := s.disp.slot + 1 } }

/-- The stored data after an output phase: one solenoid slot and one sound code pulled (`45_interrupt_scheduler.md` R223). -/
def afterOutput (s : State) : State :=
  { s with
    sol := { s.sol with q := s.sol.q.tail, firing := s.sol.q.head?.isSome }
    snd := { s.snd with q := s.snd.q.tail } }

@[simp] theorem afterInput_cfg (v : Byte) (w : Fin 8 → Byte) (s : State) : (afterInput v w s).cfg = s.cfg := rfl
@[simp] theorem afterInput_mode (v : Byte) (w : Fin 8 → Byte) (s : State) : (afterInput v w s).mode = s.mode := rfl
@[simp] theorem afterInput_sch (v : Byte) (w : Fin 8 → Byte) (s : State) : (afterInput v w s).sch = s.sch := rfl
@[simp] theorem afterInput_sw (v : Byte) (w : Fin 8 → Byte) (s : State) :
    (afterInput v w s).sw = switchesAfterInput v w s := rfl
@[simp] theorem afterInput_sol (v : Byte) (w : Fin 8 → Byte) (s : State) : (afterInput v w s).sol = s.sol := rfl
@[simp] theorem afterInput_snd (v : Byte) (w : Fin 8 → Byte) (s : State) : (afterInput v w s).snd = s.snd := rfl
@[simp] theorem afterInput_lamp (v : Byte) (w : Fin 8 → Byte) (s : State) : (afterInput v w s).lamp =
    lampAdvance s.cfg s.lamp := rfl
@[simp] theorem afterInput_disp (v : Byte) (w : Fin 8 → Byte) (s : State) : (afterInput v w s).disp =
    { s.disp with slot := s.disp.slot + 1 } := rfl
@[simp] theorem afterInput_port (v : Byte) (w : Fin 8 → Byte) (s : State) : (afterInput v w s).port = s.port := rfl
@[simp] theorem afterInput_inp (v : Byte) (w : Fin 8 → Byte) (s : State) : (afterInput v w s).inp = s.inp := rfl

theorem inputPhase_next {s t : State} (h : inputPhase s = .next t) : ∃ v w e, t = (afterInput v w s).withBus e := by
  simp only [inputPhase, chain_eq_next] at h
  obtain ⟨s1, h1, s2, h2, s3, h3, h4⟩ := h
  obtain ⟨e1, rfl, -⟩ := diagStep_next h1
  obtain ⟨e2, rfl, -⟩ := displayStep_next h2
  obtain ⟨e3, rfl, -⟩ := lampStep_next h3
  obtain ⟨w, e4, rfl, -⟩ := switchScan_next h4
  refine ⟨e1.rdata, w, e4, ?_⟩
  simp only [afterInput, switchesAfterInput, enqueueClosures, diagSample_eq]
  rfl

/-- The tick handler writes what it owns and the queues it serves: of `sol` and `snd` no table and no host setting
(`10_state.md` R43). -/
structure HandlerWrites (s t : State) : Prop where
  lamp : t.lamp = { s.lamp with bank := t.lamp.bank, dimc1 := t.lamp.dimc1, dimc2 := t.lamp.dimc2 }
  disp : t.disp = { s.disp with slot := t.disp.slot }
  sol : t.sol = { s.sol with q := t.sol.q, firing := t.sol.firing }
  snd : t.snd = { s.snd with q := t.snd.q }
  mode : t.mode = s.mode
  port : t.port = s.port
  inp : t.inp = s.inp
  cfg : t.cfg = s.cfg
  sch : t.sch = { s.sch with phase := !s.sch.phase }

theorem returnFromTick_sch (s : State) : (returnFromTick s).sch = { s.sch with phase := !s.sch.phase } := rfl

/-- A handler invocation is the phase `sch.phase` names, and then the phase is inverted. -/
theorem tickHandler_next {s t : State} (h : tickHandler s = .next t) :
    ∃ u, t = returnFromTick u ∧ (inputPhase s = .next u ∨ outputPhase s = .next u) := by
  obtain ⟨u, hu, h⟩ := chain_eq_next.1 h
  cases h
  refine ⟨u, rfl, ?_⟩
  split at hu
  · exact .inr hu
  · exact .inl hu

theorem tickHandler_handlerWrites {s t : State} (h : tickHandler s = .next t) : HandlerWrites s t := by
  obtain ⟨u, rfl, hin | hout⟩ := tickHandler_next h
  · obtain ⟨v, w, e, rfl⟩ := inputPhase_next hin
    constructor <;> simp [returnFromTick_sch, lampAdvance_eq]
  · obtain ⟨e, rfl, -⟩ := outputPhase_next hout
    exact ⟨rfl, rfl, rfl, rfl, rfl, rfl, rfl, rfl, rfl⟩

/-! ## What a step can do -/

/-- What the arbiter's choice can be when it ends: a handler invocation, a command, or nothing. -/
theorem perform_next {c : Choice} {s t : State} (h : perform c s = .next t) :
    tickHandler (takeTick s) = .next t ∨
      (∃ i, exec i (acceptCommand s) = .next t) ∨
      AnswersAfterUpdate (acceptCommand s) t ∨ t = s := by
  cases c with
  | tick => exact .inl h
  | idle => cases h; exact .inr (.inr (.inr rfl))
  | command w =>
    unfold perform runCommand at h
    dsimp only at h
    split at h
    · exact .inr (.inl ⟨_, h⟩)
    · exact .inr (.inr (.inl (.of_answerReserved h)))

/-- An invariant of the stored data under one configuration: it holds after every update a step makes to the queues, tables,
lamps, displays and counters, and it does not look at the mode, the bus, the scheduler, the ports and the inputs. -/
structure StoreInvariant (P : State → Prop) : Prop where
  rest : ∀ s mode bus sch port inp, P s → P { s with mode := mode, bus := bus, sch := sch, port := port, inp := inp }
  command : ∀ s u, CommandUpdate s u → P s → P u
  init : ∀ s t, AfterInit s t → P s → P t
  input : ∀ s v w, P s → P (afterInput v w s)
  output : ∀ s, P s → P (afterOutput s)

section
variable {P : State → Prop} (hP : StoreInvariant P) {s t : State}
include hP

theorem StoreInvariant.answers (h : AnswersAfterUpdate s t) (hs : P s) : P t := by
  obtain ⟨st, d, u, hu, rfl⟩ := h
  exact hP.rest u _ _ _ _ _ (hP.command s u hu hs)

theorem StoreInvariant.exec {i : Instr} (h : exec i s = .next t) (hs : P s) : P t := by
  by_cases hi : ∀ c, i ≠ .init c
  · exact hP.answers (exec_next hi h) hs
  · push Not at hi
    obtain ⟨credit, rfl⟩ := hi
    obtain ⟨-, rfl⟩ | ⟨-, rfl⟩ | ⟨-, hinit⟩ := execInit_next (credit := credit) h
    · exact hP.rest s _ _ _ _ _ hs
    · exact hP.rest s _ _ _ _ _ hs
    · exact hP.init s t hinit hs

theorem StoreInvariant.tickHandler (h : tickHandler s = .next t) (hs : P s) : P t := by
  obtain ⟨u, rfl, hin | hout⟩ := tickHandler_next h
  · obtain ⟨v, w, e, rfl⟩ := inputPhase_next hin
    exact hP.rest (afterInput v w s) _ e _ _ _ (hP.input s v w hs)
  · obtain ⟨e, rfl, -⟩ := outputPhase_next hout
    exact hP.rest (afterOutput s) _ e _ _ _ (hP.output s hs)

theorem StoreInvariant.perform {c : Choice} (h : perform c s = .next t) (hs : P s) : P t := by
  obtain htick | ⟨i, hexec⟩ | hans | rfl := perform_next h
  · exact hP.tickHandler htick (hP.rest s _ _ _ _ _ hs)
  · exact hP.exec hexec (hP.rest s _ _ _ _ _ hs)
  · exact hP.answers hans (hP.rest s _ _ _ _ _ hs)
  · exact hs

/-- Every step keeps a store invariant. -/
theorem StoreInvariant.step (h : step s = .next t) (hs : P s) : P t := by
  obtain ⟨-, u, hu, rfl⟩ := step_next h
  obtain ⟨b, hbegin⟩ := beginStep_keeps s
  obtain ⟨b', hend⟩ := endStep_keeps s.mode (tickSample s).during u
  rw [hend]
  refine hP.rest u _ _ _ _ _ (hP.perform hu ?_)
  rw [hbegin]
  exact hP.rest s _ _ _ _ _ hs

end

end Sys2Proof.Machine

/-! PROOFS. The store invariants of `10_state.md`: queues and tables (R27, R29 to R31), displays (R37), counters (R28, R36). -/

namespace Sys2Proof.Machine

/-! ## Queues within their capacities, tables at their sizes -/

theorem push_length_le {α : Type} {cap : Nat} {q q' : List α} {id : α} {n : BitVec 8} (h : push cap q id n = some q')
    (hq : q.length ≤ cap) : q'.length ≤ cap := by
  obtain ⟨rfl, hn⟩ := push_eq_some h
  simp only [List.length_append, List.length_replicate]
  omega

theorem pushFront_length_le {α : Type} {cap : Nat} {q q' : List α} {id : α} {n : BitVec 8}
    (h : pushFront cap q id n = some q') (hq : q.length ≤ cap) : q'.length ≤ cap := by
  obtain ⟨rfl, hn⟩ := pushFront_eq_some h
  simp only [List.length_append, List.length_replicate]
  omega

theorem tail_length_le {α : Type} {cap : Nat} {q : List α} (hq : q.length ≤ cap) : q.tail.length ≤ cap := by
  rw [List.length_tail]
  omega

theorem timedTick_table_length {w : Nat} (cap : Nat) (now : Time) (adm : TimedEntry w → Bool) (t : List (TimedEntry w))
    (q : List (BitVec w)) : (timedTick cap now adm t q).1.length = t.length := by
  rw [timedTick_fst, List.length_map]

theorem timedTick_queue_length_le {w : Nat} (cap : Nat) (now : Time) (adm : TimedEntry w → Bool) :
    ∀ (t : List (TimedEntry w)) (q : List (BitVec w)), q.length ≤ cap → (timedTick cap now adm t q).2.length ≤ cap
  | [], _, hq => hq
  | e :: t, q, hq => by
    cases h : due now e
    · rw [timedTick_not_due t q h]
      exact timedTick_queue_length_le cap now adm t q hq
    · rw [timedTick_due t q h]
      refine timedTick_queue_length_le cap now adm t _ ?_
      obtain hsame | ⟨hroom, hgrown⟩ := promoted_cases cap (adm e) q e.id e.rep
      · rwa [hsame]
      · rw [hgrown, List.length_append, List.length_replicate]
        omega

theorem diagSample_queue_length_le (v : Byte) {s : State} (hq : s.sw.q.length ≤ s.cfg.swQCap) :
    (diagSample v s).sw.q.length ≤ s.cfg.swQCap := by
  rw [diagSample_eq]
  dsimp only [State.withSw_sw]
  split
  · rename_i h
    obtain ⟨-, -, -, hroom⟩ := h
    rw [List.length_append]
    exact hroom
  · exact hq

theorem switchesAfterInput_queue_length_le (v : Byte) (w : Fin 8 → Byte) {s : State}
    (hq : s.sw.q.length ≤ s.cfg.swQCap) : (switchesAfterInput v w s).q.length ≤ s.cfg.swQCap := by
  have hdiag := diagSample_queue_length_le v hq
  rw [switchesAfterInput_q, List.length_append, List.length_take]
  omega

theorem QueuesBounded.command {s u : State} (hu : CommandUpdate s u) (h : QueuesBounded s) : QueuesBounded u := by
  cases hu with
  | nothing => exact h
  | cycle | solEnable | solContinuous | lampTargets | dispValue | dispMask =>
    exact ⟨h.swQ, h.solQ, h.sndQ, h.solT, h.sndT⟩
  | swPull => exact ⟨tail_length_le h.swQ, h.solQ, h.sndQ, h.solT, h.sndT⟩
  | solPush id n q pushed => exact ⟨h.swQ, push_length_le pushed h.solQ, h.sndQ, h.solT, h.sndT⟩
  | solPushFront id n q pushed => exact ⟨h.swQ, pushFront_length_le pushed h.solQ, h.sndQ, h.solT, h.sndT⟩
  | solSchedule e t scheduled => exact ⟨h.swQ, h.solQ, h.sndQ, (schedule_length scheduled).trans h.solT, h.sndT⟩
  | sndPush id n q pushed => exact ⟨h.swQ, h.solQ, push_length_le pushed h.sndQ, h.solT, h.sndT⟩
  | sndSchedule e t scheduled => exact ⟨h.swQ, h.solQ, h.sndQ, h.solT, (schedule_length scheduled).trans h.sndT⟩
  | update now =>
    exact ⟨h.swQ, timedTick_queue_length_le _ _ _ _ _ h.solQ, timedTick_queue_length_le _ _ _ _ _ h.sndQ,
      (timedTick_table_length ..).trans h.solT, (timedTick_table_length ..).trans h.sndT⟩

theorem QueuesBounded.storeInvariant : StoreInvariant QueuesBounded where
  rest _ _ _ _ _ _ h := ⟨h.swQ, h.solQ, h.sndQ, h.solT, h.sndT⟩
  command _ _ hu h := h.command hu
  init s t hi _ := by
    constructor
    case solT => rw [hi.cfg, hi.solT.1]
    case sndT => rw [hi.cfg, hi.sndT.1]
    all_goals simp [hi.sw, hi.solQ, hi.sndQ]
  input _ v w h := ⟨switchesAfterInput_queue_length_le v w h.swQ, h.solQ, h.sndQ, h.solT, h.sndT⟩
  output _ h := ⟨h.swQ, tail_length_le h.solQ, tail_length_le h.sndQ, h.solT, h.sndT⟩

/-- Settles O22: every update a step makes keeps the queues and tables. -/
theorem stepKeepsQueuesBounded : Obligations.StepKeepsQueuesBounded :=
  fun _ _ hs h => QueuesBounded.storeInvariant.step h hs

/-! ## Display fields -/

/-- What holds of every entry of a vector, and of a new entry, holds of every entry once it is written. -/
theorem forall_getElem_set {α : Type} {n : Nat} {v : Vector α n} {f : Fin n} {x : α} (p : Fin n → α → Prop)
    (hv : ∀ g, p g v[g]) (hx : p f x) (g : Fin n) : p g (v.set f x)[g] := by
  by_cases hgf : f = g
  · subst hgf
    simpa using hx
  · have hne : f.val ≠ g.val := fun h => hgf (Fin.ext h)
    simpa [Vector.getElem_set_ne, hne] using hv g

theorem digitCodes_le_nine {value W : Nat} : ∀ d ∈ digitCodes value W, d.toNat ≤ 9 := by
  intro d hd
  obtain ⟨p, -, rfl⟩ := List.mem_map.1 hd
  rw [digitCode_toNat]
  omega

theorem sigDigits_le (value W : Nat) : sigDigits value W ≤ W := by
  unfold sigDigits
  exact List.countP_le_length.trans_eq List.length_range

theorem activeDigits_le (value W : Nat) (blz : Bool) (min' : Nat) : activeDigits value W blz min' ≤ W := by
  have := sigDigits_le value W
  unfold activeDigits
  split <;> omega

/-- BlankMask sets no bit beyond the field (`44_lamp_display.md` R204). -/
theorem blankMask_beyond (value : Nat) {W p : Nat} (blz : Bool) (min' : Nat) (hp : W ≤ p) :
    (blankMask value W blz min').getLsbD p = false := by
  by_cases hW : W ≤ 8
  · rw [blankMask, getLsbD_rightMask hW (activeDigits_le value W blz min')]
    simp [Nat.not_lt.2 hp]
  · exact BitVec.getLsbD_of_ge _ p (by omega)

/-- Masking with the width of a field leaves no bit beyond it (`44_lamp_display.md` R205). -/
theorem fieldMask_beyond (mask : Byte) {W p : Nat} (hp : W ≤ p) :
    (mask &&& BitVec.ofNat 8 (2 ^ W - 1)).getLsbD p = false := by
  rw [BitVec.getLsbD_and, BitVec.getLsbD_ofNat, Nat.testBit_two_pow_sub_one]
  simp [Nat.not_lt.2 hp]

theorem DisplaysFit.command {s u : State} (hu : CommandUpdate s u) (h : DisplaysFit s) : DisplaysFit u := by
  cases hu with
  | nothing => exact h
  | dispValue f value min' blz =>
    exact ⟨forall_getElem_set (fun g (ds : List Byte) => ds.length = s.cfg.fieldWidth g.val) h.width (digitCodes_length _ _),
      forall_getElem_set (fun _ (ds : List Byte) => ∀ d ∈ ds, d.toNat ≤ 9) h.digit digitCodes_le_nine,
      forall_getElem_set (fun g (m : Byte) => ∀ p, s.cfg.fieldWidth g.val ≤ p → m.getLsbD p = false) h.blank
        fun _ hp => blankMask_beyond value blz min' hp⟩
  | dispMask f mask =>
    exact ⟨h.width, h.digit,
      forall_getElem_set (fun g (m : Byte) => ∀ p, s.cfg.fieldWidth g.val ≤ p → m.getLsbD p = false) h.blank
        fun _ hp => fieldMask_beyond mask hp⟩
  | update now => exact ⟨by simpa using h.width, by simpa using h.digit, by simpa using h.blank⟩
  | _ => exact ⟨h.width, h.digit, h.blank⟩

theorem DisplaysFit.storeInvariant : StoreInvariant DisplaysFit where
  rest _ _ _ _ _ _ h := ⟨h.width, h.digit, h.blank⟩
  command _ _ hu h := h.command hu
  init s t hi _ := by
    constructor <;> intro f
    case width => rw [hi.digit, hi.cfg, List.length_replicate]
    case digit =>
      intro d hd
      rw [hi.digit] at hd
      simp [List.eq_of_mem_replicate hd]
    case blank => simp [hi.blank]
  input _ _ _ h := ⟨h.width, h.digit, h.blank⟩
  output _ h := ⟨h.width, h.digit, h.blank⟩

/-- Settles O23: DISPVAL and DISPBLANK alone write a field, and what they write fits it. -/
theorem stepKeepsDisplaysFit : Obligations.StepKeepsDisplaysFit :=
  fun _ _ hs h => DisplaysFit.storeInvariant.step h hs

/-! ## Counters -/

theorem diagSample_diagHold_le (v : Byte) {s : State} (h : s.sw.diagHold ≤ s.cfg.diagReleaseTicks) :
    (diagSample v s).sw.diagHold ≤ s.cfg.diagReleaseTicks := by
  rw [diagSample_eq]
  dsimp only [State.withSw_sw]
  split <;> omega

/-- A counter that advances modulo its divisor when the bank wraps stays below it. -/
theorem dimAdvance_lt {bank : Fin 8} {n d : Nat} (h : n < d) : (if bank = 7 then (n + 1) % d else n) < d := by
  split
  · exact Nat.mod_lt _ (Nat.zero_lt_of_lt h)
  · exact h

theorem lampAdvance_dimCounters_lt {c : Config} {l : Lamps} (h1 : l.dimc1 < c.dimDiv1) (h2 : l.dimc2 < c.dimDiv2) :
    (lampAdvance c l).dimc1 < c.dimDiv1 ∧ (lampAdvance c l).dimc2 < c.dimDiv2 := by
  rw [lampAdvance_eq]
  exact ⟨dimAdvance_lt h1, dimAdvance_lt h2⟩

/-- No command but INIT writes a counter: they are the handler's. -/
theorem CountersInRange.command {s u : State} (hu : CommandUpdate s u) (h : CountersInRange s) : CountersInRange u := by
  obtain ⟨hcfg, -, -, hsw, -, hlamp, -, -⟩ := hu.hostWrites
  constructor
  case diagHold => rw [hsw, hcfg]; exact h.diagHold
  case dimc1 => rw [hlamp, hcfg]; exact h.dimc1
  case dimc2 => rw [hlamp, hcfg]; exact h.dimc2

theorem CountersInRange.storeInvariant : StoreInvariant CountersInRange where
  rest _ _ _ _ _ _ h := ⟨h.diagHold, h.dimc1, h.dimc2⟩
  command _ _ hu h := h.command hu
  init s t hi h := by
    constructor
    case diagHold => simp [hi.sw]
    case dimc1 => rw [hi.lamp, hi.cfg]; exact Nat.zero_lt_of_lt h.dimc1
    case dimc2 => rw [hi.lamp, hi.cfg]; exact Nat.zero_lt_of_lt h.dimc2
  input s v w h :=
    have hdim := lampAdvance_dimCounters_lt h.dimc1 h.dimc2
    ⟨(switchesAfterInput_diagHold v w s).trans_le (diagSample_diagHold_le v h.diagHold), hdim.1, hdim.2⟩
  output _ h := ⟨h.diagHold, h.dimc1, h.dimc2⟩

/-- Settles O26: the diagnostic sample and the bank advance alone write a counter, besides INIT, which clears them. -/
theorem stepKeepsCountersInRange : Obligations.StepKeepsCountersInRange :=
  fun _ _ hs h => CountersInRange.storeInvariant.step h hs

/-! ## Power-on -/

theorem reset_queuesBounded : QueuesBounded State.reset := by
  constructor
  case solT | sndT => exact List.length_replicate
  all_goals exact Nat.zero_le _

theorem reset_displaysFit : DisplaysFit State.reset where
  width := by decide
  digit := by decide
  blank f p _ := by simp [State.reset]

theorem reset_busOwned : BusOwned State.reset where
  quiet := ⟨rfl, rfl, rfl, rfl, rfl⟩
  busOE := rfl
  haltLegacy := rfl
  tickPend h := by cases h

theorem reset_diagOnce : DiagOnce State.reset where
  once := Nat.zero_le _
  range _ h := by cases h

theorem reset_countersInRange : CountersInRange State.reset where
  diagHold := Nat.zero_le _
  dimc1 := Nat.zero_lt_two
  dimc2 := Nat.zero_lt_succ 2

/-- Settles O27, invariant by invariant. -/
theorem powerOnMeetsTheInvariants : Obligations.PowerOnMeetsTheInvariants :=
  ⟨reset_queuesBounded, reset_displaysFit, reset_busOwned, reset_diagOnce, reset_countersInRange⟩

end Sys2Proof.Machine

/-! PROOFS. Who writes what: the host, the tick handler, the mode (`10_state.md` R21, R41, R43). -/

namespace Sys2Proof.Machine

/-- Settles O16, by what a command can do. -/
theorem commandsLeaveHandlerOwnedState : Obligations.CommandsLeaveHandlerOwnedState := by
  intro i s t hi h
  obtain ⟨hcfg, -, hsch, hsw, hfiring, hlamp, hslot, hinp⟩ := exec_hostWrites hi h
  exact ⟨hsch, hsw, hfiring, hlamp, hslot, hcfg, hinp⟩

/-- Settles O17, by what the phase that runs can do. -/
theorem handlerLeavesHostOwnedState : Obligations.HandlerLeavesHostOwnedState := by
  intro s t h
  obtain ⟨hlamp, hdisp, hsol, hsnd, hmode, hport, hinp, hcfg, hsch⟩ := tickHandler_handlerWrites h
  exact ⟨hlamp, hdisp, hsol, hsnd, hmode, hport, hinp, hcfg, hsch⟩

/-- INIT alone writes the mode, in UNINIT (`10_state.md` R41). -/
theorem exec_mode {i : Instr} {s t : State} (h : exec i s = .next t) :
    t.mode = s.mode ∨ (s.mode = .uninit ∧ (t.mode = .run ∨ t.mode = .halted)) := by
  by_cases hi : ∀ c, i ≠ .init c
  · exact .inl (exec_hostWrites hi h).mode
  · push Not at hi
    obtain ⟨credit, rfl⟩ := hi
    obtain ⟨-, rfl⟩ | ⟨hm, rfl⟩ | ⟨hm, hinit⟩ := execInit_next (credit := credit) h
    · exact .inl rfl
    · exact .inr ⟨hm, .inr rfl⟩
    · exact .inr ⟨hm, .inl hinit.mode⟩

/-- Of what the arbiter can choose only INIT writes the mode. -/
theorem perform_mode {c : Choice} {s t : State} (h : perform c s = .next t) :
    t.mode = s.mode ∨ (s.mode = .uninit ∧ (t.mode = .run ∨ t.mode = .halted)) := by
  obtain htick | ⟨i, hexec⟩ | ⟨st, d, u, hu, rfl⟩ | rfl := perform_next h
  · exact .inl (tickHandler_handlerWrites htick).mode
  · exact exec_mode (s := acceptCommand s) hexec
  · exact .inl hu.hostWrites.mode
  · exact .inl rfl

/-- Settles O18: what happens before and after the chosen operation leaves the mode alone. -/
theorem modeOnlyLeavesUninit : Obligations.ModeOnlyLeavesUninit := by
  intro s t h
  obtain ⟨-, u, hu, rfl⟩ := step_next h
  obtain ⟨b, hbegin⟩ := beginStep_keeps s
  obtain ⟨b', hend⟩ := endStep_keeps s.mode (tickSample s).during u
  have hmode := perform_mode hu
  rw [hbegin] at hmode
  rw [hend]
  exact hmode

end Sys2Proof.Machine

/-! PROOFS. The lines during a bus cycle (`10_state.md` R24, `40_bus_engine.md` R104 to R108, `70_reset_and_hazards.md` R278). -/

namespace Sys2Proof.Machine

/-! ## The line registers in the rows that sample the clock -/

/-- The SYNC rows write `pin.STB` alone, and raise it with the move to STROBE. -/
theorem engineSync_pin (e : BusEngine) :
    ((engineSync e).pin = e.pin ∧ (engineSync e).st = e.st) ∨
      ((engineSync e).pin = { e.pin with stb := true } ∧ (engineSync e).st = .strobe) := by
  cases h : (clockSample e.clk).1 with
  | true => rw [engineSync_wait h]; exact .inl ⟨rfl, rfl⟩
  | false => rw [engineSync_raise h]; exact .inr ⟨rfl, rfl⟩

theorem engineStrobeEnd_pin (e : BusEngine) :
    (engineStrobeEnd e).pin = { e.pin with stb := false } ∧ (engineStrobeEnd e).st = .release := by
  unfold engineStrobeEnd
  dsimp only
  split <;> exact ⟨rfl, rfl⟩

/-- The STROBE rows write `pin.STB` alone, and lower it with the move to RELEASE. -/
theorem engineStrobe_pin (seq : List Bool) (e : BusEngine) :
    ((engineStrobe seq e).pin = e.pin ∧ (engineStrobe seq e).st = e.st) ∨
      ((engineStrobe seq e).pin = { e.pin with stb := false } ∧ (engineStrobe seq e).st = .release) := by
  by_cases hlevel : (clockSample e.clk).1 = seq.getD e.k false
  · by_cases hk : e.k < seq.length - 1
    · rw [engineStrobe_advance hlevel hk]
      exact .inl ⟨rfl, rfl⟩
    · rw [engineStrobe_last hlevel hk]
      exact .inr (engineStrobeEnd_pin _)
  · rw [engineStrobe_wait hlevel]
    exact .inl ⟨rfl, rfl⟩

/-- The DATA rows write the data register and its direction alone: driven on a write, not driven on a read. -/
theorem engineData_pin (e : BusEngine) :
    (engineData e).st = .we ∧
      (engineData e).pin = { e.pin with dataQ := if e.rw then e.wdata else e.pin.dataQ, dataOE := e.rw } := by
  unfold engineData
  cases e.rw <;> exact ⟨rfl, rfl⟩

/-! ## Every engine step -/

theorem engineStep_strobePhaseOnly (seq : List Bool) (req : Option BusRequest) {e : BusEngine} (h : StrobePhaseOnly e) :
    StrobePhaseOnly (engineStep seq req e) := by
  have low : e.st ≠ .strobe → e.pin.stb = false := fun hst => by simpa using mt h hst
  unfold engineStep StrobePhaseOnly
  cases hst : e.st with
  | idle =>
    have := low (by simp [hst])
    cases req <;> simp [engineAccept, this]
  | addr => simp [low, hst]
  | data => simp [engineData_pin, low, hst]
  | we => simp [low, hst]
  | sync =>
    obtain ⟨hpin, -⟩ | ⟨-, hstrobe⟩ := engineSync_pin e
    · simp [hpin, low, hst]
    · simp [hstrobe]
  | strobe =>
    obtain ⟨-, hstrobe⟩ | ⟨hpin, -⟩ := engineStrobe_pin seq e
    · simp [hstrobe, hst]
    · simp [hpin]
  | release => simp [engineRelease, low, hst]

/-- While `STB` is 1 a step writes no line register but `pin.STB`. -/
theorem engineStep_pin_of_stb (seq : List Bool) (req : Option BusRequest) {e : BusEngine} (h : StrobePhaseOnly e)
    (hstb : e.pin.stb = true) : ∃ b, (engineStep seq req e).pin = { e.pin with stb := b } := by
  have hstep : engineStep seq req e = engineStrobe seq e := by simp [engineStep, h hstb]
  rw [hstep]
  obtain ⟨hpin, -⟩ | ⟨hpin, -⟩ := engineStrobe_pin seq e
  · exact ⟨e.pin.stb, hpin⟩
  · exact ⟨false, hpin⟩

/-- A step that changes the direction of the data lines leaves `STB` as it is. -/
theorem engineStep_stb_of_dataOE_ne (seq : List Bool) (req : Option BusRequest) {e : BusEngine}
    (h : (engineStep seq req e).pin.dataOE ≠ e.pin.dataOE) : (engineStep seq req e).pin.stb = e.pin.stb := by
  unfold engineStep at h ⊢
  cases hst : e.st with
  | idle => cases req <;> rfl
  | addr | we | release => rfl
  | data => simp [engineData_pin]
  | sync =>
    rw [hst] at h
    obtain ⟨hpin, -⟩ | ⟨hpin, -⟩ := engineSync_pin e <;> exact absurd (by simp [hpin]) h
  | strobe =>
    rw [hst] at h
    obtain ⟨hpin, -⟩ | ⟨hpin, -⟩ := engineStrobe_pin seq e <;> exact absurd (by simp [hpin]) h

/-- The direction changes only where `STB` is 0 before and after. -/
theorem engineStep_stb_low_of_dataOE_ne (seq : List Bool) (req : Option BusRequest) {e : BusEngine} (hs : StrobePhaseOnly e)
    (h : (engineStep seq req e).pin.dataOE ≠ e.pin.dataOE) :
    e.pin.stb = false ∧ (engineStep seq req e).pin.stb = false := by
  have hlow : e.pin.stb = false := by
    refine Bool.eq_false_iff.2 fun hstb => h ?_
    obtain ⟨b, hpin⟩ := engineStep_pin_of_stb seq req hs hstb
    rw [hpin]
  exact ⟨hlow, (engineStep_stb_of_dataOE_ne seq req h).trans hlow⟩

/-! ## Every cycle -/

/-- What the line registers hold in a cycle of request `r` begun in `e0`, phase by phase. -/
structure LinesCarry (r : BusRequest) (e0 e : BusEngine) : Prop where
  stb : StrobePhaseOnly e
  addrQ : e.st ≠ .addr → e.pin.addrQ = r.addr
  dataOE : e.st ≠ .addr → e.st ≠ .data → e.pin.dataOE = r.rw
  we : e.st = .sync ∨ e.st = .strobe → e.pin.we = r.rw
  early : e.st = .addr ∨ e.st = .data → e.pin.dataOE = e0.pin.dataOE

/-- The engine after some steps of a cycle: still in it, with the request on the lines, or done. -/
def CycleReached (r : BusRequest) (e0 e : BusEngine) : Prop := (InCycle r e0 e ∧ LinesCarry r e0 e) ∨ CycleDone r e0 e

theorem LinesCarry.accept (r : BusRequest) {e : BusEngine} (h : e.pin.stb = false) : LinesCarry r e (engineAccept r e) := by
  constructor <;> simp [engineAccept, StrobePhaseOnly, h]

theorem LinesCarry.step {seq : List Bool} {r : BusRequest} {e0 e : BusEngine} (hin : InCycle r e0 e)
    (h : LinesCarry r e0 e) (hrel : e.st ≠ .release) : LinesCarry r e0 (engineStep seq none e) := by
  have hstb := engineStep_strobePhaseOnly seq none h.stb
  obtain ⟨-, haddr, hoe, hwe, hearly⟩ := h
  have hrw := hin.rw
  have hreq := hin.addr
  cases hst : e.st with
  | idle => exact absurd hst hin.notIdle
  | addr => refine ⟨hstb, ?_, ?_, ?_, ?_⟩ <;> simp_all [engineStep]
  | data => refine ⟨hstb, ?_, ?_, ?_, ?_⟩ <;> simp_all [engineStep, engineData_pin]
  | we => refine ⟨hstb, ?_, ?_, ?_, ?_⟩ <;> simp_all [engineStep]
  | sync =>
    have hs : engineStep seq none e = engineSync e := by simp [engineStep, hst]
    rw [hs] at hstb ⊢
    obtain ⟨hpin, hnext⟩ | ⟨hpin, hnext⟩ := engineSync_pin e <;>
      refine ⟨hstb, ?_, ?_, ?_, ?_⟩ <;> simp_all
  | strobe =>
    have hs : engineStep seq none e = engineStrobe seq e := by simp [engineStep, hst]
    rw [hs] at hstb ⊢
    obtain ⟨hpin, hnext⟩ | ⟨hpin, hnext⟩ := engineStrobe_pin seq e <;>
      refine ⟨hstb, ?_, ?_, ?_, ?_⟩ <;> simp_all
  | release => exact absurd hst hrel

theorem CycleReached.step {seq : List Bool} {r : BusRequest} {e0 e : BusEngine} (h : CycleReached r e0 e) :
    CycleReached r e0 (engineStep seq none e) := by
  obtain ⟨hin, hlines⟩ | hdone := h
  · obtain hin' | hdone := hin.step (seq := seq)
    · refine .inl ⟨hin', hlines.step hin fun hst => hin'.notIdle ?_⟩
      simp [engineStep, hst, engineRelease]
    · exact .inr hdone
  · have hidle : engineStep seq none e = e := by simp [engineStep, hdone.st]
    rw [hidle]
    exact .inr hdone

theorem CycleReached.steps {seq : List Bool} {r : BusRequest} {e0 : BusEngine} : ∀ (n : Nat) {e : BusEngine},
    CycleReached r e0 e → CycleReached r e0 (engineSteps seq n e)
  | 0, _, h => h
  | n + 1, _, h => steps n h.step

theorem cycleReached_of_stb_low (seq : List Bool) (r : BusRequest) (n : Nat) {e : BusEngine} (h : e.pin.stb = false) :
    CycleReached r e (engineSteps seq n (engineAccept r e)) :=
  CycleReached.steps n (.inl ⟨InCycle.accept r e, LinesCarry.accept r h⟩)

/-- While `STB` is 1 the line registers hold the request. -/
theorem CycleReached.pin_of_stb {r : BusRequest} {e0 e : BusEngine} (h : CycleReached r e0 e) (hstb : e.pin.stb = true) :
    e.pin = { e0.pin with
      addrQ := r.addr, we := r.rw, dataOE := r.rw, dataQ := if r.rw then r.wdata else e0.pin.dataQ, stb := true } := by
  obtain ⟨hin, hlines⟩ | hdone := h
  · have hst : e.st = .strobe := hlines.stb hstb
    have haddr := hlines.addrQ (by simp [hst])
    have hoe := hlines.dataOE (by simp [hst]) (by simp [hst])
    have hwe := hlines.we (.inr hst)
    have hq := hin.dataQ (by simp [hst]) (by simp [hst])
    have heta : e.pin = ⟨e.pin.busOE, e.pin.addrQ, e.pin.dataQ, e.pin.dataOE, e.pin.we, e.pin.stb, e.pin.haltLegacy⟩ := rfl
    rw [heta, hin.busOE, haddr, hq, hoe, hwe, hstb, hin.haltLegacy]
  · simp [hdone.pin] at hstb

/-- A read never drives DATA. -/
theorem CycleReached.dataOE_of_read {r : BusRequest} {e0 e : BusEngine} (h : CycleReached r e0 e) (hr : r.rw = false)
    (he : e0.pin.dataOE = false) : e.pin.dataOE = false := by
  obtain ⟨-, hlines⟩ | hdone := h
  · by_cases hearly : e.st = .addr ∨ e.st = .data
    · exact (hlines.early hearly).trans he
    · push Not at hearly
      exact (hlines.dataOE hearly.1 hearly.2).trans hr
  · rw [hdone.pin]

/-! ## The obligation -/

theorem lines_of_pins (p : Pins) :
    lineAddr p = (if p.busOE = true then some p.addrQ else none) ∧ lineWE p = (if p.busOE = true then some p.we else none) ∧
      lineSTB p = (if p.busOE = true then some p.stb else none) ∧
      lineData p = if p.busOE = true ∧ p.dataOE = true then some p.dataQ else none := by
  refine ⟨rfl, rfl, rfl, ?_⟩
  simp only [lineData, Bool.and_eq_true]

/-- Settles O58: the lines from their registers, the registers from one step, and the request from the cycle so far. -/
theorem linesAreStableWhileStrobeIsHigh : Obligations.LinesAreStableWhileStrobeIsHigh := by
  refine ⟨lines_of_pins, fun seq req e hs => ⟨engineStep_strobePhaseOnly seq req hs, fun hstb => ?_,
    engineStep_stb_low_of_dataOE_ne seq req hs⟩, fun seq r e n he => ?_⟩
  · obtain ⟨b, hpin⟩ := engineStep_pin_of_stb seq req hs hstb
    rw [hpin]
    exact ⟨rfl, rfl, rfl, rfl⟩
  · have hreached := cycleReached_of_stb_low seq r n he
    refine ⟨fun hstb => ?_, hreached.dataOE_of_read⟩
    rw [hreached.pin_of_stb hstb]
    refine ⟨rfl, rfl, rfl, fun hw => if_pos hw, fun hown => ?_⟩
    cases hw : r.rw <;> simp [lineAddr, lineWE, lineSTB, lineData, hown]

end Sys2Proof.Machine

/-! PROOFS. Who touches the bus: the three commands and the tick handler; the configuration and the history (`20_memory.md` R64,
R68, R70, R73, R74; `40_bus_engine.md` R109; `60_exceptions.md` R246, R255). -/

namespace Sys2Proof.Machine

/-! ## The cycles of a handler invocation -/

theorem diagSample_bus (v : Byte) (s : State) : (diagSample v s).bus = s.bus := by
  rw [diagSample_frame]
  rfl

/-- The cycles of the four steps of the input phase, one after the other. -/
theorem inputPhase_performed {s t : State} (h : inputPhase s = .next t) : ∃ evs, Performed evs s.bus t.bus := by
  simp only [inputPhase, chain_eq_next] at h
  obtain ⟨s1, h1, s2, h2, s3, h3, h4⟩ := h
  obtain ⟨e1, rfl, diag, -⟩ := diagStep_next h1
  obtain ⟨e2, rfl, display, -⟩ := displayStep_next h2
  obtain ⟨e3, rfl, lamp, -⟩ := lampStep_next h3
  obtain ⟨w, e4, rfl, scan, -⟩ := switchScan_next h4
  rw [diagSample_bus] at display
  exact ⟨_, ((diag.trans display).trans lamp).trans scan⟩

theorem tickHandler_performed {s t : State} (h : tickHandler s = .next t) : ∃ evs, Performed evs s.bus t.bus := by
  obtain ⟨u, rfl, hin | hout⟩ := tickHandler_next h
  · obtain ⟨evs, done⟩ := inputPhase_performed hin
    exact ⟨evs, done⟩
  · obtain ⟨e, rfl, done⟩ := outputPhase_next hout
    exact ⟨_, done⟩

/-! ## The ends of INIT -/

theorem execInit_refused (credit : BitVec 8) {s : State} (hm : s.mode ≠ .uninit) :
    execInit credit s = .next (respond .badMode 0 s) := by
  simp [execInit, hm, refuse]

theorem execInit_passthrough (credit : BitVec 8) {s : State} (hm : s.mode = .uninit) (hb : s.inp.bootOrigReq = true) :
    execInit credit s =
      .next (respond .halted 0 ((setHaltLegacy false (floatBus (setHaltLegacy true s))).withMode .halted)) := by
  have hb' : (setHaltLegacy true s).inp.bootOrigReq = true := hb
  simp [execInit, hm, hb', passthrough]

/-- INIT in UNINIT without passthrough is the cycles of INIT_SEQ on the cleared machine (`41_peripheral_config.md` R130, R132). -/
theorem execInit_configure_next {credit : BitVec 8} {s t : State} (hm : s.mode = .uninit) (hb : s.inp.bootOrigReq = false)
    (h : execInit credit s = .next t) :
    Performed (writesOf s.cfg.initSeq) (ownBus (clearAllState (setHaltLegacy true s))).bus t.bus := by
  rw [execInit_configure credit hm hb, chain_eq_next] at h
  obtain ⟨u, hu, h⟩ := h
  obtain ⟨e, rfl, done⟩ := writeAll_next hu
  cases h
  exact done

/-! ## What the arbiter's choice can do to the bus -/

/-- What every operation but INIT does to the bus and its owner: bus cycles, any number, under the same configuration, in the same
mode, with no tick latched. -/
structure RunsCycles (s t : State) : Prop where
  cfg : t.cfg = s.cfg
  mode : t.mode = s.mode
  tickPend : t.sch.tickPend = true → s.sch.tickPend = true
  bus : ∃ evs, Performed evs s.bus t.bus

theorem RunsCycles.refl (s : State) : RunsCycles s s := ⟨rfl, rfl, id, [], Performed.refl _⟩

theorem CommandUpdate.performed {s u : State} (hu : CommandUpdate s u) : ∃ evs, Performed evs s.bus u.bus := by
  cases hu with
  | cycle r e done => exact ⟨_, done.performed⟩
  | update now => exact ⟨[], by simpa using Performed.refl s.bus⟩
  | _ => exact ⟨[], Performed.refl _⟩

theorem RunsCycles.of_answers {s t : State} (h : AnswersAfterUpdate s t) : RunsCycles s t := by
  obtain ⟨st, d, u, hu, rfl⟩ := h
  have hw := hu.hostWrites
  exact ⟨hw.cfg, hw.mode, fun ht => hw.sch ▸ ht, hu.performed⟩

theorem RunsCycles.of_tickHandler {s t : State} (h : tickHandler s = .next t) : RunsCycles s t := by
  have hw := tickHandler_handlerWrites h
  refine ⟨hw.cfg, hw.mode, fun ht => ?_, tickHandler_performed h⟩
  rw [hw.sch] at ht
  exact ht

/-- An operation begun on `s'`, which differs from `s` in the ports and in a tick already taken. -/
theorem RunsCycles.of_start {s s' t : State} (h : RunsCycles s' t) (hcfg : s'.cfg = s.cfg) (hmode : s'.mode = s.mode)
    (hbus : s'.bus = s.bus) (htick : s'.sch.tickPend = true → s.sch.tickPend = true) : RunsCycles s t :=
  ⟨h.cfg.trans hcfg, h.mode.trans hmode, htick ∘ h.tickPend, hbus ▸ h.bus⟩

/-- What the arbiter chose runs bus cycles, or it is INIT. -/
theorem perform_runsCycles {c : Choice} {s t : State} (h : perform c s = .next t) :
    RunsCycles s t ∨ ∃ credit, execInit credit (acceptCommand s) = .next t := by
  obtain htick | ⟨i, hexec⟩ | hans | rfl := perform_next h
  · exact .inl ((RunsCycles.of_tickHandler htick).of_start rfl rfl rfl fun ht => by cases ht)
  · by_cases hi : ∀ c, i ≠ .init c
    · exact .inl ((RunsCycles.of_answers (exec_next hi hexec)).of_start rfl rfl rfl id)
    · push Not at hi
      obtain ⟨credit, rfl⟩ := hi
      exact .inr ⟨credit, hexec⟩
  · exact .inl ((RunsCycles.of_answers hans).of_start rfl rfl rfl id)
  · exact .inl (.refl _)

/-! ## The owner of the bus -/

theorem BusOwned.runsCycles {s t : State} (h : BusOwned s) (hrun : RunsCycles s t) : BusOwned t := by
  obtain ⟨-, hmode, htick, evs, done⟩ := hrun
  constructor
  case quiet => exact done.quiet h.quiet
  case busOE => rw [done.busOE, hmode]; exact h.busOE
  case haltLegacy => rw [done.haltLegacy, hmode]; exact h.haltLegacy
  case tickPend => rw [hmode]; exact h.tickPend ∘ htick

theorem AfterInit.busOwned {s t : State} (h : AfterInit s t) : BusOwned t where
  quiet := h.quiet
  busOE := by rw [h.busOE, h.mode]; rfl
  haltLegacy := by rw [h.haltLegacy, h.mode]; rfl
  tickPend _ := h.mode

/-- INIT takes the bus with RUN, or releases it with HALTED: no tick is pending in UNINIT, so none is then. -/
theorem BusOwned.execInit {credit : BitVec 8} {s t : State} (h : BusOwned s) (hexec : execInit credit s = .next t) :
    BusOwned t := by
  obtain ⟨-, rfl⟩ | ⟨hm, rfl⟩ | ⟨-, hinit⟩ := execInit_next hexec
  · exact ⟨h.quiet, h.busOE, h.haltLegacy, h.tickPend⟩
  · obtain ⟨hst, haddr, -, hwe, hstb⟩ := h.quiet
    refine ⟨⟨hst, haddr, rfl, hwe, hstb⟩, rfl, rfl, fun ht => ?_⟩
    have hrun : s.mode = .run := h.tickPend ht
    simp [hm] at hrun
  · exact hinit.busOwned

theorem BusOwned.perform {c : Choice} {s t : State} (h : BusOwned s) (hp : perform c s = .next t) : BusOwned t := by
  obtain hrun | ⟨credit, hinit⟩ := perform_runsCycles hp
  · exact h.runsCycles hrun
  · exact BusOwned.execInit (s := acceptCommand s) ⟨h.quiet, h.busOE, h.haltLegacy, h.tickPend⟩ hinit

/-- A pulse is latched in RUN only (`45_interrupt_scheduler.md` R220). -/
theorem BusOwned.tickPulse {s : State} (h : BusOwned s) : BusOwned (tickPulse s) := by
  by_cases hm : s.mode = .run
  · rw [tickPulse_of_run hm]
    exact ⟨h.quiet, h.busOE, h.haltLegacy, fun _ => hm⟩
  · rwa [tickPulse_of_ne hm]

theorem BusOwned.tickPulses : ∀ (n : Nat) {s : State}, BusOwned s → BusOwned (tickPulses n s)
  | 0, _, h => h
  | n + 1, _, h => tickPulses n h.tickPulse

theorem BusOwned.beginStep {s : State} (h : BusOwned s) : BusOwned (beginStep s) :=
  BusOwned.tickPulses _ ⟨h.quiet, h.busOE, h.haltLegacy, h.tickPend⟩

theorem BusOwned.endStep {s : State} (began : Mode) (n : Nat) (h : BusOwned s) : BusOwned (endStep began n s) := by
  have hpulses : BusOwned (if began = .run then Machine.tickPulses n s else s) := by
    split
    · exact h.tickPulses n
    · exact h
  exact ⟨hpulses.quiet, hpulses.busOE, hpulses.haltLegacy, hpulses.tickPend⟩

/-- Settles O24: the ownership pins follow the mode through every part of a step. -/
theorem stepKeepsBusOwned : Obligations.StepKeepsBusOwned := by
  intro s t hs h
  obtain ⟨-, u, hu, rfl⟩ := step_next h
  exact (hs.beginStep.perform hu).endStep _ _

/-! ## The configuration and the history -/

theorem Performed.hist_grows {evs : List BusEvent} {e e' : BusEngine} (h : Performed evs e e') : e.hist <+: e'.hist :=
  ⟨evs, h.hist.symm⟩

theorem execInit_cfg {credit : BitVec 8} {s t : State} (h : execInit credit s = .next t) : t.cfg = s.cfg := by
  obtain ⟨-, rfl⟩ | ⟨-, rfl⟩ | ⟨-, hinit⟩ := execInit_next h
  · rfl
  · rfl
  · exact hinit.cfg

/-- INIT clears the block but not the history, and adds the writes of INIT_SEQ where it makes them. -/
theorem execInit_hist_grows {credit : BitVec 8} {s t : State} (h : execInit credit s = .next t) :
    s.bus.hist <+: t.bus.hist := by
  by_cases hm : s.mode = .uninit
  · cases hb : s.inp.bootOrigReq with
    | true =>
      cases (execInit_passthrough credit hm hb).symm.trans h
      exact (Performed.refl s.bus).hist_grows
    | false => exact (execInit_configure_next hm hb h).hist_grows
  · cases (execInit_refused credit hm).symm.trans h
    exact (Performed.refl s.bus).hist_grows

theorem perform_persists {c : Choice} {s t : State} (h : perform c s = .next t) :
    t.cfg = s.cfg ∧ s.bus.hist <+: t.bus.hist := by
  obtain ⟨hcfg, -, -, evs, done⟩ | ⟨credit, hinit⟩ := perform_runsCycles h
  · exact ⟨hcfg, done.hist_grows⟩
  · exact ⟨execInit_cfg (s := acceptCommand s) hinit, execInit_hist_grows (s := acceptCommand s) hinit⟩

/-- Settles O19: the operation the arbiter chose adds its cycles; what stands before and after it has none. -/
theorem configurationAndHistoryPersist : Obligations.ConfigurationAndHistoryPersist := by
  intro s t h
  obtain ⟨-, u, hu, rfl⟩ := step_next h
  obtain ⟨b, hbegin⟩ := beginStep_keeps s
  obtain ⟨b', hend⟩ := endStep_keeps s.mode (tickSample s).during u
  have hpersist := perform_persists hu
  rw [hbegin] at hpersist
  rw [hend]
  exact hpersist

/-! ## The commands that run no cycle -/

/-- If the result `r` of a command begun in `s` is a state, the bus is in it as it was. -/
def LeavesBus (s : State) (r : Result) : Prop := ∀ t, r = .next t → t.bus = s.bus

theorem LeavesBus.respond {s u : State} (st : Status) (d : BitVec 16) (hu : u.bus = s.bus) :
    LeavesBus s (.next (respond st d u)) := by
  rintro t ⟨⟩
  exact hu

theorem LeavesBus.refuse (s : State) (st : Status) : LeavesBus s (refuse st s) := LeavesBus.respond st 0 rfl

theorem LeavesBus.served {s : State} {r : Result} (h : LeavesBus s r) : LeavesBus s (served s r) := by
  intro t ht
  obtain ⟨-, rfl⟩ | ⟨-, hr⟩ := served_next ht
  · rfl
  · exact h t hr

theorem LeavesBus.tested {c : Prop} [Decidable c] {s : State} {st : Status} {r : Result} (h : LeavesBus s r) :
    LeavesBus s (if c then Machine.refuse st s else r) := by
  split
  · exact .refuse s st
  · exact h

/-- The bus is the engine's: a command that issues no cycle and does not start the block leaves it alone (`20_memory.md` R73). -/
theorem exec_leavesBus {i : Instr} (s : State) (hinit : ∀ c, i ≠ .init c) (hwrite : ∀ a d, i ≠ .buswr a d)
    (hread : ∀ a, i ≠ .busrd a) : LeavesBus s (exec i s) := by
  cases i with
  | init credit => exact absurd rfl (hinit credit)
  | buswr addr data => exact absurd rfl (hwrite addr data)
  | busrd addr => exact absurd rfl (hread addr)
  | swpull =>
    refine .served ?_
    split
    · exact .refuse s _
    · exact .respond _ _ rfl
  | swpeek | swisq | solcont | dispval | dispblank | dispgetb => exact .served (.tested (.respond _ _ rfl))
  | solspace | sndspace | solen | soldis | lampoff => exact .served (.respond _ _ rfl)
  | solpush | solpushf =>
    refine .served (.tested (.tested ?_))
    split
    · exact .refuse s _
    · exact .respond _ _ rfl
  | solsched =>
    refine .served (.tested ?_)
    split
    · exact .refuse s _
    · exact .respond _ _ rfl
  | sndpush | sndsched =>
    refine .served ?_
    split
    · exact .refuse s _
    · exact .respond _ _ rfl
  | lampset =>
    refine .served (.tested ?_)
    split
    · exact .respond _ _ rfl
    · exact .respond _ _ rfl
  | update time => exact .served (.respond _ _ (by simp))
  | diagq | diagclr | flipdis | sndrange | lampflashall | dispcycle => exact .served (.refuse s _)

/-- Settles O15, command by command; the mode is INIT's alone by what the host writes. -/
theorem onlyThreeCommandsTouchTheBus : Obligations.OnlyThreeCommandsTouchTheBus :=
  fun _ s t hinit hwrite hread h => ⟨exec_leavesBus s hinit hwrite hread t h, (exec_hostWrites hinit h).mode⟩

end Sys2Proof.Machine

/-! PROOFS. The encoding: the decoder inverts the encoder, the top byte selects, the ignored bits are ignored
(`30_encoding.md` R80, R81, R85, R87). -/

namespace Sys2Proof

/-! ## Decoding an encoded command -/

@[simp] theorem fieldDim_packCommand (op a b : BitVec 8) (f0 : Bool) (w : BitVec 32) :
    fieldDim (packCommand op a b f0 w) = b.extractLsb' 0 2 := by
  rw [fieldDim, fieldB_packCommand]

@[simp] theorem fieldAddr_packCommand (op a b : BitVec 8) (f0 : Bool) (w : BitVec 32) :
    fieldAddr (packCommand op a b f0 w) = w.extractLsb' 16 16 := by
  rw [fieldAddr, fieldW_packCommand]

@[simp] theorem fieldPeriod_packCommand (op a b : BitVec 8) (f0 : Bool) (w : BitVec 32) :
    fieldPeriod (packCommand op a b f0 w) = w.extractLsb' 0 16 := by
  rw [fieldPeriod, fieldW_packCommand]

@[simp] theorem fieldLow8_packCommand (op a b : BitVec 8) (f0 : Bool) (w : BitVec 32) :
    fieldLow8 (packCommand op a b f0 w) = w.extractLsb' 0 8 := by
  rw [fieldLow8, fieldW_packCommand]

/-- An operand widened to its field is read back from the low bits of the field. -/
theorem extractLsb'_setWidth_self {n m : Nat} (x : BitVec n) (h : n ≤ m) : (x.setWidth m).extractLsb' 0 n = x := by
  rw [BitVec.extractLsb'_setWidth_of_le (by omega), BitVec.extractLsb'_eq_self]

/-- The address and the datum of BUSWR stand at the two ends of its `w`. -/
theorem extractLsb'_buswr (addr : Addr) (x : BitVec 8) (data : Byte) :
    (addr ++ x ++ data : BitVec 32).extractLsb' 16 16 = addr ∧ (addr ++ x ++ data : BitVec 32).extractLsb' 0 8 = data :=
  ⟨(BitVec.extractLsb'_append_eq_of_le (by decide)).trans BitVec.extractLsb'_append_eq_left,
    BitVec.extractLsb'_append_eq_right⟩

theorem extractLsb'_busrd (addr x : BitVec 16) : (addr ++ x : BitVec 32).extractLsb' 16 16 = addr :=
  BitVec.extractLsb'_append_eq_left

/-- Settles O1: the operation code selects the command's row, and each operand of the row is the field it was packed into. -/
theorem decodeOfEncodeIsIdentity : Obligations.DecodeOfEncodeIsIdentity := by
  intro i
  cases i with
  | buswr addr data => simp [decode, encode, Instr.opcode, extractLsb'_buswr]
  | busrd addr => simp [decode, encode, Instr.opcode, extractLsb'_busrd]
  | lampset id dim on period => simp [decode, encode, Instr.opcode, extractLsb'_setWidth_self]
  | dispblank field mask => simp [decode, encode, Instr.opcode, extractLsb'_setWidth_self]
  | _ => simp [decode, encode, Instr.opcode]

/-! ## The operation code -/

/-- The top byte of a word is its operation code and nothing else (`30_encoding.md` R80). -/
theorem and_topByte (w : CmdWord) : w &&& (0xFF00000000000000 : CmdWord) = (fieldOp w).setWidth 64 <<< 56 := by
  have hmask : ∀ k < 64, (0xFF00000000000000 : CmdWord).getLsbD k = decide (56 ≤ k) := by decide
  apply BitVec.eq_of_getLsbD_eq
  intro k hk
  rw [BitVec.getLsbD_and, hmask k hk, fieldOp, BitVec.getLsbD_shiftLeft, BitVec.getLsbD_setWidth, BitVec.getLsbD_extractLsb']
  by_cases h : 56 ≤ k
  · simp [h, hk, show ¬ k < 56 by omega, show k - 56 < 64 by omega, show k - 56 < 8 by omega]
  · simp [h, show k < 56 by omega]

/-- Which command a word is, if any, depends on its operation code alone (`30_encoding.md` R85). -/
theorem map_opcode_decode {w w' : CmdWord} (h : fieldOp w' = fieldOp w) :
    (decode w').map Instr.opcode = (decode w).map Instr.opcode := by
  unfold decode
  rw [h]
  split <;> simp only [Except.map, Instr.opcode]

/-! ## The bits a command uses -/

/-- A mask that covers a field leaves the field as it is. -/
theorem extractLsb'_and_of_ones {v k n : Nat} {x m : BitVec v} (h : m.extractLsb' k n = BitVec.allOnes n) :
    (x &&& m).extractLsb' k n = x.extractLsb' k n := by
  rw [BitVec.extractLsb'_and, h, BitVec.and_allOnes]

section
variable {w m : CmdWord}

theorem fieldOp_and (h : fieldOp m = BitVec.allOnes 8) : fieldOp (w &&& m) = fieldOp w := extractLsb'_and_of_ones h

theorem fieldA_and (h : fieldA m = BitVec.allOnes 8) : fieldA (w &&& m) = fieldA w := extractLsb'_and_of_ones h

theorem fieldB_and (h : fieldB m = BitVec.allOnes 8) : fieldB (w &&& m) = fieldB w := extractLsb'_and_of_ones h

theorem fieldW_and (h : fieldW m = BitVec.allOnes 32) : fieldW (w &&& m) = fieldW w := extractLsb'_and_of_ones h

theorem fieldF0_and (h : fieldF0 m = true) : fieldF0 (w &&& m) = fieldF0 w := by
  unfold fieldF0 at h ⊢
  rw [BitVec.getLsbD_and, h, Bool.and_true]

theorem fieldDim_and (h : fieldDim m = BitVec.allOnes 2) : fieldDim (w &&& m) = fieldDim w := by
  rw [fieldDim, fieldB, BitVec.extractLsb'_and]
  exact extractLsb'_and_of_ones h

theorem fieldAddr_and (h : fieldAddr m = BitVec.allOnes 16) : fieldAddr (w &&& m) = fieldAddr w := by
  rw [fieldAddr, fieldW, BitVec.extractLsb'_and]
  exact extractLsb'_and_of_ones h

theorem fieldPeriod_and (h : fieldPeriod m = BitVec.allOnes 16) : fieldPeriod (w &&& m) = fieldPeriod w := by
  rw [fieldPeriod, fieldW, BitVec.extractLsb'_and]
  exact extractLsb'_and_of_ones h

theorem fieldLow8_and (h : fieldLow8 m = BitVec.allOnes 8) : fieldLow8 (w &&& m) = fieldLow8 w := by
  rw [fieldLow8, fieldW, BitVec.extractLsb'_and]
  exact extractLsb'_and_of_ones h

end

/-- Every operation code uses the whole top byte. -/
theorem fieldOp_usedBits (op : BitVec 8) : fieldOp (Machine.usedBits op) = BitVec.allOnes 8 := by
  unfold Machine.usedBits
  split <;> rfl

theorem fieldOp_and_usedBits (w : CmdWord) (op : BitVec 8) : fieldOp (w &&& Machine.usedBits op) = fieldOp w :=
  fieldOp_and (fieldOp_usedBits op)

/-- A word decodes as it does with its ignored bits cleared: every field its row reads lies in the used bits
(`30_encoding.md` R85, R87). -/
theorem decode_and_usedBits (w : CmdWord) : decode (w &&& Machine.usedBits (fieldOp w)) = decode w := by
  unfold decode
  rw [fieldOp_and_usedBits]
  split
  all_goals
    rename_i hop
    simp (disch := decide) only [Machine.usedBits, hop, fieldA_and, fieldB_and, fieldF0_and, fieldW_and, fieldDim_and,
      fieldAddr_and, fieldPeriod_and, fieldLow8_and]

/-- Settles O2: the opcode of a decoded command is the word's top byte, so both clauses are about the field `op`. -/
theorem opcodeByteAloneSelects : Obligations.OpcodeByteAloneSelects := by
  intro w i hi
  refine ⟨fieldOp_of_decode hi ▸ and_topByte w, fun w' hw' => ?_⟩
  have hop : fieldOp w' = fieldOp w := by
    rw [← fieldOp_and (w := w') (m := 0xFF00000000000000) rfl, hw', fieldOp_and rfl]
  have hmap := map_opcode_decode hop
  rw [hi] at hmap
  cases hd : decode w' with
  | ok i' =>
    rw [hd] at hmap
    exact ⟨i', rfl, Except.ok.inj hmap⟩
  | error x =>
    rw [hd] at hmap
    cases hmap

/-- Settles O3: both words decode as their common used bits do. -/
theorem ignoredBitsHaveNoEffect : Obligations.IgnoredBitsHaveNoEffect := by
  intro w w' h
  have hop : fieldOp w = fieldOp w' := by
    rw [← fieldOp_and_usedBits w (fieldOp w), h, fieldOp_and_usedBits]
  calc decode w = decode (w &&& Machine.usedBits (fieldOp w)) := (decode_and_usedBits w).symm
    _ = decode (w' &&& Machine.usedBits (fieldOp w')) := by rw [h, hop]
    _ = decode w' := decode_and_usedBits w'

end Sys2Proof

/-! PROOFS. How a command is answered: before INIT, out of range, reserved, and in every case with one response word
(`30_encoding.md` R82 to R86, R93). -/

namespace Sys2Proof.Machine

/-! ## Refusals -/

/-- Every command but INIT is served, that is tested for UNINIT first (`30_encoding.md` R84). -/
theorem exec_eq_served {i : Instr} (hi : ∀ c, i ≠ .init c) (s : State) : ∃ r, exec i s = served s r := by
  cases i with
  | init credit => exact absurd rfl (hi credit)
  | _ => exact ⟨_, rfl⟩

/-- A response is the response word and nothing else. -/
theorem respond_eq_answered (st : Status) (d : BitVec 16) (s : State) :
    respond st d s = answered s (responseWord st d) := rfl

/-- Settles O13: every command but INIT stands behind the mode test. -/
theorem beforeInitOtherCommandsAreBadMode : Obligations.BeforeInitOtherCommandsAreBadMode := by
  intro i s hm hi
  obtain ⟨r, hr⟩ := exec_eq_served hi s
  rw [hr, served_of_uninit r hm, respond_eq_answered]
  rfl

/-- A reserved operation code, named or not, changes nothing (`30_encoding.md` R84, R86). -/
theorem answerReserved_eq (s : State) :
    answerReserved s = .next (answered s (if s.mode = .uninit then 0x60000000 else 0x50000000)) := by
  by_cases hm : s.mode = .uninit
  · rw [if_pos hm]
    exact served_of_uninit _ hm
  · rw [if_neg hm]
    exact served_of_ne _ hm

/-- Settles O50: the six rows share one answer. -/
theorem namedReservedCodesAreRefused : Obligations.NamedReservedCodesAreRefused := by
  intro s hm
  have h := answerReserved_eq s
  rw [if_neg hm] at h
  exact ⟨h, h, h, h, h, h⟩

/-- The range test stands before everything else a served command does (`30_encoding.md` R84, R93). -/
theorem served_invalidId {c : Prop} [Decidable c] {s : State} {r : Result} (hm : s.mode ≠ .uninit) (hc : c) :
    served s (if c then refuse .invalidId s else r) = .next (answered s 0x40000000) := by
  rw [served_of_ne _ hm, if_pos hc]
  rfl

/-- Outside its range `0` to `n` an identifier is above `n` as a number. -/
theorem lt_toNat_of_out_of_range {id n : BitVec 8} (h : decide (id ≤ n) = false) : n.toNat < id.toNat := by
  simpa [BitVec.le_def] using h

/-- Settles O14: the commands with an identifier are those of R93, and each tests it first. -/
theorem outOfRangeIdentifiersAreNoOps : Obligations.OutOfRangeIdentifiersAreNoOps := by
  intro i s hwf hm
  cases i with
  | swpeek | swisq | solpush | solpushf | solsched | solcont | lampset | dispval | dispblank | dispgetb =>
    refine served_invalidId hm ?_
    simp only [Stated.value_eq, Config.nFields_eq]
    exact lt_toNat_of_out_of_range hwf
  | _ => cases hwf

/-! ## The response -/

/-- How a command ends: done, with OK and data; refused, having done nothing; or in HALTED, by INIT's passthrough
(`30_encoding.md` R83). What it did before an OK or HALTED answer left the ports alone. -/
def CommandEnd (s t : State) : Prop :=
  (∃ d u, t = respond .ok d u ∧ u.port = s.port) ∨ (∃ st, t = respond st 0 s) ∨
    ∃ u, t = respond .halted 0 u ∧ u.port = s.port

theorem CommandEnd.done {s u : State} (d : BitVec 16) (hu : u.port = s.port) : CommandEnd s (respond .ok d u) :=
  .inl ⟨d, u, rfl, hu⟩

theorem CommandEnd.refused (s : State) (st : Status) : CommandEnd s (respond st 0 s) := .inr (.inl ⟨st, rfl⟩)

theorem CommandEnd.halted {s u : State} (hu : u.port = s.port) : CommandEnd s (respond .halted 0 u) :=
  .inr (.inr ⟨u, rfl, hu⟩)

/-- In every case the last thing done is one response, and its data is 0 unless the status is OK. -/
theorem CommandEnd.response {s t : State} (h : CommandEnd s t) :
    ∃ st d u, t = respond st d u ∧ (statusCode st ≠ 0 → d = 0) ∧ u.port = s.port := by
  obtain ⟨d, u, ht, hport⟩ | ⟨st, ht⟩ | ⟨u, ht, hport⟩ := h
  · exact ⟨.ok, d, u, ht, fun hne => absurd rfl hne, hport⟩
  · exact ⟨st, 0, s, ht, fun _ => rfl, rfl⟩
  · exact ⟨.halted, 0, u, ht, fun _ => rfl, hport⟩

/-- If the result `r` of a command begun in `s` is a state, the command ended in one of these ways. -/
def EndsAnswered (s : State) (r : Result) : Prop := ∀ t, r = .next t → CommandEnd s t

theorem EndsAnswered.done {s u : State} (d : BitVec 16) (hu : u.port = s.port) :
    EndsAnswered s (.next (respond .ok d u)) := by
  rintro t ⟨⟩
  exact .done d hu

theorem EndsAnswered.refuse (s : State) (st : Status) : EndsAnswered s (refuse st s) := by
  rintro t ⟨⟩
  exact .refused s st

theorem EndsAnswered.served {s : State} {r : Result} (h : EndsAnswered s r) : EndsAnswered s (served s r) := by
  intro t ht
  obtain ⟨-, rfl⟩ | ⟨-, hr⟩ := served_next ht
  · exact .refused s .badMode
  · exact h t hr

theorem EndsAnswered.tested {c : Prop} [Decidable c] {s : State} {st : Status} {r : Result} (h : EndsAnswered s r) :
    EndsAnswered s (if c then Machine.refuse st s else r) := by
  split
  · exact .refuse s st
  · exact h

/-- A command that runs bus cycles and then answers OK. -/
theorem EndsAnswered.chain_done {s : State} {r : Result} {d : State → BitVec 16}
    (hr : ∀ u, r = .next u → u.port = s.port) : EndsAnswered s (chain r fun u => .next (respond .ok (d u) u)) := by
  intro t ht
  obtain ⟨u, hu, ht⟩ := chain_eq_next.1 ht
  cases ht
  exact .done (d u) (hr u hu)

theorem execInit_endsAnswered (credit : BitVec 8) (s : State) : EndsAnswered s (execInit credit s) := by
  by_cases hm : s.mode = .uninit
  · cases hb : s.inp.bootOrigReq with
    | true =>
      rw [execInit_passthrough credit hm hb]
      rintro t ⟨⟩
      exact .halted rfl
    | false =>
      rw [execInit_configure credit hm hb]
      intro t ht
      obtain ⟨u, hu, ht⟩ := chain_eq_next.1 ht
      obtain ⟨e, rfl, -⟩ := writeAll_next hu
      cases ht
      exact .done _ rfl
  · rw [execInit_refused credit hm]
    exact .refuse s .badMode

/-- Every command that ends is answered: the tests refuse with data 0, what comes after them answers OK. -/
theorem exec_endsAnswered (i : Instr) (s : State) : EndsAnswered s (exec i s) := by
  cases i with
  | init credit => exact execInit_endsAnswered credit s
  | buswr addr data =>
    refine .served (.chain_done fun u hu => ?_)
    obtain ⟨e, rfl, -⟩ := busWrite_next hu
    rfl
  | busrd addr =>
    refine .served (.chain_done fun u hu => ?_)
    obtain ⟨e, rfl, -⟩ := busRead_next hu
    rfl
  | swpull =>
    refine .served ?_
    split
    · exact .refuse s _
    · exact .done _ rfl
  | swpeek | swisq | solcont | dispval | dispblank | dispgetb => exact .served (.tested (.done _ rfl))
  | solspace | sndspace | solen | soldis | lampoff => exact .served (.done _ rfl)
  | solpush | solpushf =>
    refine .served (.tested (.tested ?_))
    split
    · exact .refuse s _
    · exact .done _ rfl
  | solsched =>
    refine .served (.tested ?_)
    split
    · exact .refuse s _
    · exact .done _ rfl
  | sndpush | sndsched =>
    refine .served ?_
    split
    · exact .refuse s _
    · exact .done _ rfl
  | lampset =>
    refine .served (.tested ?_)
    split
    · exact .done _ rfl
    · exact .done _ rfl
  | update time => exact .served (.done _ (by simp))
  | diagq | diagclr | flipdis | sndrange | lampflashall | dispcycle => exact .served (.refuse s _)

theorem statusCode_toNat_le (st : Status) : (statusCode st).toNat ≤ 7 := by
  cases st <;> decide

theorem rspStatus_respond (st : Status) (d : BitVec 16) (s : State) : rspStatus (respond st d s) = statusCode st :=
  responseWord_status st d

theorem rspData_respond (st : Status) (d : BitVec 16) (s : State) : rspData (respond st d s) = d :=
  responseWord_data st d

/-- Settles O11: however the command ends, it ends in a response, whose data is 0 unless the status is OK. -/
theorem everyCommandAnswersOnce : Obligations.EveryCommandAnswersOnce := by
  intro i s t ht
  obtain ⟨st, d, u, rfl, hdata, hport⟩ := (exec_endsAnswered i s t ht).response
  rw [rspStatus_respond, rspData_respond]
  exact ⟨rfl, statusCode_toNat_le st, responseWord_zero st d, hdata, (respond_cmds st d u).trans (congrArg Port.cmds hport)⟩

end Sys2Proof.Machine

/-! PROOFS. The step that takes a command from the port (`30_encoding.md` R86, R88, `45_interrupt_scheduler.md` R220). -/

namespace Sys2Proof.Machine

theorem tickPulses_of_ne : ∀ (n : Nat) {s : State}, s.mode ≠ .run → tickPulses n s = s
  | 0, _, _ => rfl
  | n + 1, s, h => by rw [tickPulses, tickPulse_of_ne h, tickPulses_of_ne n h]

/-- With no pulse to latch before the choice, all that a step begins with is that `rsp_valid` goes down. -/
theorem beginStep_of_no_pulse {s : State} (h : s.mode = .run → (tickSample s).before = 0) :
    beginStep s = s.withPort { s.port with rspValid := false } := by
  unfold beginStep
  by_cases hm : s.mode = .run
  · rw [h hm]
    rfl
  · exact tickPulses_of_ne _ hm

/-- With no tick pending the arbiter takes the offered command, unless the block is HALTED (`30_encoding.md` R88). -/
theorem arbitrate_of_offered {s : State} {w : CmdWord} {rest : List CmdWord} (hm : s.mode ≠ .halted)
    (ht : s.sch.tickPend = false) (hc : s.port.cmds = w :: rest) : arbitrate s = .command w := by
  simp [arbitrate, tickReady, cmdReady, ht, hm, hc]

/-- A step with no tick in the way takes the offered word from the port and runs it. -/
theorem step_of_offered {s : State} {w : CmdWord} {rest : List CmdWord} (hl : s.cfg.legal = true) (hm : s.mode ≠ .halted)
    (ht : s.sch.tickPend = false) (hb : s.mode = .run → (tickSample s).before = 0) (hc : s.port.cmds = w :: rest) :
    step s = chain (runCommand w { s with port := { s.port with cmds := rest, rspValid := false } })
      fun t => .next (endStep s.mode (tickSample s).during t) := by
  have haccept : acceptCommand (s.withPort { s.port with rspValid := false }) =
      { s with port := { s.port with cmds := rest, rspValid := false } } := by
    simp [acceptCommand, hc, State.withPort]
  have harb : arbitrate (s.withPort { s.port with rspValid := false }) = .command w := arbitrate_of_offered hm ht hc
  rw [step, if_pos hl, beginStep_of_no_pulse hb, harb, perform, haccept]

/-- Settles O5: the offered word runs, and running it is `exec` of what it decodes to. -/
theorem stepRunsTheDecodedCommand : Obligations.StepRunsTheDecodedCommand := by
  intro s w rest i hl hm ht hb hc hd
  rw [step_of_offered hl hm ht hb hc, runCommand, hd]

/-- Settles O6: a word the decoder rejects is answered as a reserved operation code. -/
theorem reservedOpcodeIsAnswered : Obligations.ReservedOpcodeIsAnswered := by
  intro s w rest x hl hm ht hb hc hd
  rw [step_of_offered hl hm ht hb hc, runCommand, hd]
  dsimp only
  rw [answerReserved_eq]
  rfl

end Sys2Proof.Machine

/-! PROOFS. The commands BUSWR and BUSRD (`40_bus_engine.md` R104 to R106, R112, R113). -/

namespace Sys2Proof.Machine

/-- A command whose one bus cycle has ended answers OK with the data it took from the state the cycle left. -/
theorem served_cycle_eq_answered {s : State} {r : Result} {e : BusEngine} (d : State → BitVec 16) (hm : s.mode ≠ .uninit)
    (hr : r = .next (s.withBus e)) :
    served s (chain r fun u => .next (respond .ok (d u) u)) =
      .next (answered { s with bus := e } ((d (s.withBus e)).setWidth 32)) := by
  rw [served_of_ne _ hm, hr, chain_next, respond_eq_answered, responseWord_ok]
  rfl

/-- Settles O30: the clock runs, so the one write cycle ends, and a write samples nothing. -/
theorem buswrPerformsOneWriteCycle : Obligations.BuswrPerformsOneWriteCycle := by
  intro addr data s hm hr
  obtain ⟨e, hcycle, done⟩ := busWrite_completes addr data hr
  exact ⟨e, served_cycle_eq_answered (fun _ => 0) hm hcycle, done.performed, done.quiet, done.answers, done.rdata⟩

/-- Settles O31: the clock runs, so the one read cycle ends, and `bus.rdata` is the byte the environment drove in it. -/
theorem busrdReturnsTheSampledByte : Obligations.BusrdReturnsTheSampledByte := by
  intro addr s hm hr
  obtain ⟨e, hcycle, done⟩ := busRead_completes addr hr
  obtain ⟨e', he', performed, hbyte, hanswers⟩ := busRead_performed hcycle
  obtain rfl : e = e' := congrArg State.bus he'
  have hexec := served_cycle_eq_answered (fun u => u.bus.rdata.setWidth 16) hm hcycle
  rw [BitVec.setWidth_setWidth (by decide)] at hexec
  exact ⟨e, e.rdata, hexec, performed, done.quiet, hbyte, hanswers⟩

end Sys2Proof.Machine

/-! PROOFS. When a bus cycle ends, and when it never does (`40_bus_engine.md` R103, R104, R114). -/

namespace Sys2Proof.Machine

/-! ## One engine step, by the phase -/

theorem engineStep_of_idle {seq : List Bool} {e : BusEngine} (h : e.st = .idle) : engineStep seq none e = e := by
  simp [engineStep, h]

theorem engineStep_of_sync {seq : List Bool} {req : Option BusRequest} {e : BusEngine} (h : e.st = .sync) :
    engineStep seq req e = engineSync e := by
  simp [engineStep, h]

theorem engineStep_of_strobe {seq : List Bool} {req : Option BusRequest} {e : BusEngine} (h : e.st = .strobe) :
    engineStep seq req e = engineStrobe seq e := by
  simp [engineStep, h]

theorem engineStep_of_release {seq : List Bool} {req : Option BusRequest} {e : BusEngine} (h : e.st = .release) :
    engineStep seq req e = engineRelease e := by
  simp [engineStep, h]

/-! ## Many engine steps -/

theorem engineSteps_add (seq : List Bool) : ∀ (m n : Nat) (e : BusEngine),
    engineSteps seq (m + n) e = engineSteps seq n (engineSteps seq m e)
  | 0, n, e => by rw [Nat.zero_add, engineSteps]
  | m + 1, n, e => by rw [Nat.add_right_comm, engineSteps, engineSteps, engineSteps_add seq m n]

/-- With no request an engine in IDLE stays as it is. -/
theorem engineSteps_of_idle {seq : List Bool} {e : BusEngine} (h : e.st = .idle) : ∀ n, engineSteps seq n e = e
  | 0 => rfl
  | n + 1 => by rw [engineSteps, engineStep_of_idle h, engineSteps_of_idle h n]

/-- An engine that has reached IDLE is where it stays. -/
theorem engineSteps_idle_unique {seq : List Bool} {e : BusEngine} {m n : Nat} (hm : (engineSteps seq m e).st = .idle)
    (hn : (engineSteps seq n e).st = .idle) : engineSteps seq m e = engineSteps seq n e := by
  rw [← engineSteps_of_idle hm n, ← engineSteps_of_idle hn m, ← engineSteps_add, ← engineSteps_add, Nat.add_comm]

/-- The ADDR, DATA and WE rows sample no clock and leave `STB` alone: three steps after a request the engine is in SYNC. -/
theorem engineSteps_to_sync (seq : List Bool) (r : BusRequest) (e : BusEngine) :
    (engineSteps seq 3 (engineAccept r e)).st = .sync ∧ (engineSteps seq 3 (engineAccept r e)).clk = e.clk ∧
      ∀ n ≤ 3, (engineSteps seq n (engineAccept r e)).pin.stb = e.pin.stb := by
  refine ⟨?_, ?_, fun n hn => ?_⟩
  · cases hr : r.rw <;> simp [engineSteps, engineStep, engineAccept, engineData, hr]
  · cases hr : r.rw <;> simp [engineSteps, engineStep, engineAccept, engineData, hr]
  · interval_cases n <;> simp [engineSteps, engineStep, engineAccept, engineData_pin]

/-! ## The cycle that hangs -/

/-- The engine never reaches IDLE (`40_bus_engine.md` R114). -/
def NeverIdle (seq : List Bool) (e : BusEngine) : Prop := ∀ n, (engineSteps seq n e).st ≠ .idle

/-- IDLE is not left, so an engine that never reaches it from some step on never reached it before. -/
theorem NeverIdle.of_steps {seq : List Bool} {e : BusEngine} (m : Nat) (h : NeverIdle seq (engineSteps seq m e)) :
    NeverIdle seq e := by
  intro n hidle
  refine h n ?_
  rwa [← engineSteps_add, Nat.add_comm, engineSteps_add, engineSteps_of_idle hidle]

theorem NeverIdle.of_step {seq : List Bool} {e : BusEngine} (h : NeverIdle seq (engineStep seq none e)) :
    NeverIdle seq e := .of_steps 1 h

/-- A wait for a level that never comes changes nothing, so it never ends. -/
theorem Stuck.step_eq {seq : List Bool} {e : BusEngine} (h : Stuck seq e) : engineStep seq none e = e := by
  obtain ⟨hscript, hstopped, hwait⟩ := h
  have hsample : clockSample e.clk = (e.clk.level, e.clk) := by simp [clockSample, hscript, hstopped]
  obtain ⟨hst, hlevel⟩ | ⟨hst, hlevel⟩ := hwait
  · have hmiss : (clockSample e.clk).1 = true := by rw [hsample, hlevel]
    rw [engineStep_of_sync hst, engineSync_wait hmiss, hsample]
  · have hmiss : (clockSample e.clk).1 ≠ seq.getD e.k false := by rwa [hsample]
    rw [engineStep_of_strobe hst, engineStrobe_wait hmiss, hsample]

theorem Stuck.neverIdle {seq : List Bool} {e : BusEngine} (h : Stuck seq e) : NeverIdle seq e
  | 0 => by
    obtain ⟨-, -, ⟨hst, -⟩ | ⟨hst, -⟩⟩ := h <;> rw [engineSteps, hst] <;> decide
  | n + 1 => by
    rw [engineSteps, h.step_eq]
    exact h.neverIdle n

/-! ## The run of a cycle and its bound -/

/-- A run that ends has made some number of engine steps, and is in IDLE. -/
theorem engineRun_some {seq : List Bool} {e' : BusEngine} : ∀ {n : Nat} {e : BusEngine}, engineRun seq n e = some e' →
    ∃ m, engineSteps seq m e = e' ∧ e'.st = .idle
  | 0, _, h => by cases h
  | n + 1, e, h => by
    rw [engineRun] at h
    split at h
    · cases h
      exact ⟨1, rfl, ‹_›⟩
    · obtain ⟨m, hm⟩ := engineRun_some h
      exact ⟨m + 1, hm⟩

/-- A run that does not end within the bound on the steps left never does: on the way it has met a level that never comes. -/
theorem neverIdle_of_engineRun_none {seq : List Bool} : ∀ {n : Nat} {e : BusEngine}, kInRange seq e → e.st ≠ .idle →
    stepsLeft seq e ≤ n → engineRun seq n e = none → NeverIdle seq e
  | 0, e, _, hst, hn, _ => by
    have := waitCost_pos e.clk false
    cases h : e.st <;> simp [stepsLeft, h] at hn hst
  | n + 1, e, hk, hst, hn, h => by
    rw [engineRun] at h
    split at h
    · cases h
    · obtain ⟨hless, hk'⟩ | hstuck := stepsLeft_step hk hst
      · exact .of_step (neverIdle_of_engineRun_none hk' ‹_› (by omega) h)
      · exact hstuck.neverIdle

/-- The bound of a cycle cuts off no cycle that would end. -/
theorem busCycle_eq_none_iff {seq : List Bool} {r : BusRequest} {e : BusEngine} :
    busCycle seq r e = none ↔ NeverIdle seq (engineAccept r e) := by
  constructor
  · refine neverIdle_of_engineRun_none (fun h => ?_) ?_ ?_
    · simp [engineAccept] at h
    · simp [engineAccept]
    · have := waitCost_le e.clk false
      simp only [stepsLeft, engineAccept, cycleFuel]
      omega
  · intro hnever
    refine Option.eq_none_iff_forall_not_mem.2 fun e' he' => ?_
    obtain ⟨m, rfl, hidle⟩ := engineRun_some he'
    exact hnever m hidle

theorem runCycle_eq_fault_iff {r : BusRequest} {s : State} :
    runCycle r s = .fault .clockStopped ↔ busCycle s.cfg.strobeWaitSeq r s.bus = none := by
  unfold runCycle
  cases busCycle s.cfg.strobeWaitSeq r s.bus <;> simp

/-! ## The clock that stands still -/

/-- In SYNC a clock that stands still is a hang: at level 1 there, at level 0 in the first wait of the strobe window. -/
theorem neverIdle_of_sync {seq : List Bool} {e : BusEngine} (hseq : seq.getD 0 false = true) (hst : e.st = .sync)
    (hscript : e.clk.samples = []) (hstopped : e.clk.running = false) : NeverIdle seq e := by
  cases hlevel : e.clk.level with
  | true => exact Stuck.neverIdle ⟨hscript, hstopped, .inl ⟨hst, hlevel⟩⟩
  | false =>
    have hsample : clockSample e.clk = (false, e.clk) := by simp [clockSample, hscript, hstopped, hlevel]
    refine .of_step (Stuck.neverIdle ?_)
    rw [engineStep_of_sync hst, engineSync_raise (by rw [hsample]), hsample]
    exact ⟨hscript, hstopped, .inr ⟨rfl, by rw [hseq, hlevel]; decide⟩⟩

theorem neverIdle_of_clock_stopped {seq : List Bool} (hseq : seq.getD 0 false = true) (r : BusRequest) {e : BusEngine}
    (hscript : e.clk.samples = []) (hstopped : e.clk.running = false) : NeverIdle seq (engineAccept r e) := by
  obtain ⟨hsync, hclk, -⟩ := engineSteps_to_sync seq r e
  rw [← hclk] at hscript hstopped
  exact .of_steps 3 (neverIdle_of_sync hseq hsync hscript hstopped)

/-- A legal STROBE_WAIT_SEQ awaits level 1 first (U11). -/
theorem strobeLegal_first {c : Config} (h : c.strobeLegal = true) : c.strobeWaitSeq.getD 0 false = true := by
  simp only [Config.strobeLegal, Bool.or_eq_true, beq_iff_eq] at h
  obtain h | h := h <;> rw [h] <;> rfl

/-- Settles O60: the bound cuts no cycle off, and a clock that stands still never shows both levels a cycle awaits. -/
theorem faultExactlyWhenTheCycleHangs : Obligations.FaultExactlyWhenTheCycleHangs := by
  refine ⟨fun r s => runCycle_eq_fault_iff.trans busCycle_eq_none_iff, fun r s hlegal hscript hstopped => ?_⟩
  exact runCycle_eq_fault_iff.2 <| busCycle_eq_none_iff.2 <|
    neverIdle_of_clock_stopped (strobeLegal_first hlegal) r hscript hstopped

end Sys2Proof.Machine

/-! PROOFS. The strobe window of a bus cycle: the clock levels its waits sample, and when `STB` is 1 (`40_bus_engine.md` R104,
R107). -/

namespace Sys2Proof.Machine

/-! ## Stretches of a cycle -/

theorem clockLevels_append : ∀ {l l' : List Bool} {c c' c'' : Clock}, clockLevels l.length c = (l, c') →
    clockLevels l'.length c' = (l', c'') → clockLevels (l ++ l').length c = (l ++ l', c'')
  | [], _, _, _, _, h, h' => by
    cases h
    exact h'
  | v :: l, l', c, c', c'', h, h' => by
    simp only [List.length_cons, clockLevels, Prod.mk.injEq, List.cons.injEq] at h
    obtain ⟨⟨hv, hl⟩, hc⟩ := h
    have htail := clockLevels_append (Prod.ext hl hc) h'
    simp only [List.cons_append, List.length_cons, clockLevels, hv, htail]

/-- `n` engine steps lead from `e` to `f`; they sample the clock levels `levels`, and `STB` is `v` before each of them. -/
structure Stretch (seq : List Bool) (v : Bool) (n : Nat) (levels : List Bool) (e f : BusEngine) : Prop where
  reached : engineSteps seq n e = f
  levels : clockLevels levels.length e.clk = (levels, f.clk)
  stb : ∀ i < n, (engineSteps seq i e).pin.stb = v

section
variable {seq : List Bool} {v : Bool} {m n : Nat} {l l' : List Bool} {e f g : BusEngine}

theorem Stretch.trans (h : Stretch seq v m l e f) (k : Stretch seq v n l' f g) : Stretch seq v (m + n) (l ++ l') e g where
  reached := by rw [engineSteps_add, h.reached, k.reached]
  levels := clockLevels_append h.levels k.levels
  stb i hi := by
    obtain him | ⟨j, rfl⟩ := (Nat.lt_or_ge i m).imp_right Nat.exists_eq_add_of_le
    · exact h.stb i him
    · rw [engineSteps_add, h.reached]
      exact k.stb j (by omega)

/-- A step that samples the clock once. -/
theorem Stretch.sample (h : (engineStep seq none e).clk = (clockSample e.clk).2) :
    Stretch seq e.pin.stb 1 [(clockSample e.clk).1] e (engineStep seq none e) where
  reached := rfl
  levels := by rw [h]; rfl
  stb i hi := by
    obtain rfl : i = 0 := by omega
    rfl

/-- An engine that reaches IDLE still reaches it from anywhere on its way. -/
theorem Stretch.completes (h : Stretch seq v n l e f) (he : ¬ NeverIdle seq e) : ¬ NeverIdle seq f :=
  fun hf => he (.of_steps n (h.reached ▸ hf))

/-! ## The waits of a cycle -/

/-- The engine is in the wait for clock level `b` (the SYNC and STROBE rows of `40_bus_engine.md` R104). -/
def Awaits (seq : List Bool) (b : Bool) (e : BusEngine) : Prop :=
  (e.st = .sync ∧ b = false) ∨ (e.st = .strobe ∧ b = seq.getD e.k false)

/-- A sample of the other level is all that the step of a wait takes. -/
theorem Awaits.step_of_miss {b : Bool} (h : Awaits seq b e) (hmiss : (clockSample e.clk).1 = !b) :
    engineStep seq none e = { e with clk := (clockSample e.clk).2 } := by
  obtain ⟨hst, rfl⟩ | ⟨hst, rfl⟩ := h
  · rw [engineStep_of_sync hst, engineSync_wait hmiss]
  · rw [engineStep_of_strobe hst, engineStrobe_wait (by rw [hmiss]; exact Bool.not_ne_self _)]

theorem engineSync_clk (e : BusEngine) : (engineSync e).clk = (clockSample e.clk).2 := by
  unfold engineSync
  dsimp only
  split <;> rfl

theorem engineStrobeEnd_clk (e : BusEngine) : (engineStrobeEnd e).clk = e.clk := by
  unfold engineStrobeEnd
  dsimp only
  split <;> rfl

theorem engineStrobe_clk (seq : List Bool) (e : BusEngine) : (engineStrobe seq e).clk = (clockSample e.clk).2 := by
  unfold engineStrobe
  dsimp only
  split
  · rfl
  · split
    · rfl
    · exact engineStrobeEnd_clk _

/-- The step of a wait samples the clock once. -/
theorem Awaits.step_clk {b : Bool} (h : Awaits seq b e) : (engineStep seq none e).clk = (clockSample e.clk).2 := by
  obtain ⟨hst, -⟩ | ⟨hst, -⟩ := h
  · rw [engineStep_of_sync hst, engineSync_clk]
  · rw [engineStep_of_strobe hst, engineStrobe_clk]

theorem Awaits.not_idle {b : Bool} (h : Awaits seq b e) : e.st ≠ .idle := by
  obtain ⟨hst, -⟩ | ⟨hst, -⟩ := h <;> rw [hst] <;> decide

/-- A wait that ends within `n` steps samples the other level some number of times, and then its level. -/
theorem Awaits.ends_within {b : Bool} : ∀ (n : Nat) {e : BusEngine}, Awaits seq b e → (engineSteps seq n e).st = .idle →
    ∃ a f, Stretch seq e.pin.stb (a + 1) (List.replicate a (!b) ++ [b]) e (engineStep seq none f) ∧
      f.st = e.st ∧ f.k = e.k ∧ f.pin = e.pin ∧ (clockSample f.clk).1 = b
  | 0, _, h, hidle => absurd hidle h.not_idle
  | n + 1, e, h, hidle => by
    have hone := Stretch.sample h.step_clk
    by_cases hlevel : (clockSample e.clk).1 = b
    · rw [hlevel] at hone
      exact ⟨0, e, hone, rfl, rfl, rfl, hlevel⟩
    · have hmiss : (clockSample e.clk).1 = !b := Bool.eq_not_of_ne hlevel
      have hstep := h.step_of_miss hmiss
      rw [hstep, hmiss] at hone
      rw [engineSteps, hstep] at hidle
      obtain ⟨a, f, hrest, hkept⟩ := Awaits.ends_within n (e := { e with clk := (clockSample e.clk).2 }) h hidle
      refine ⟨a + 1, f, ?_, hkept⟩
      rw [Nat.add_comm (a + 1)]
      exact hone.trans hrest

theorem Awaits.ends {b : Bool} (h : Awaits seq b e) (he : ¬ NeverIdle seq e) :
    ∃ a f, Stretch seq e.pin.stb (a + 1) (List.replicate a (!b) ++ [b]) e (engineStep seq none f) ∧
      f.st = e.st ∧ f.k = e.k ∧ f.pin = e.pin ∧ (clockSample f.clk).1 = b := by
  simp only [NeverIdle, ne_eq, not_forall, not_not] at he
  obtain ⟨n, hn⟩ := he
  exact h.ends_within n hn

/-- In a cycle that completes, the engine is in wait `k` of the strobe window. -/
structure InWindow (seq : List Bool) (k : Nat) (e : BusEngine) : Prop where
  st : e.st = .strobe
  k : e.k = k
  stb : e.pin.stb = true
  completes : ¬ NeverIdle seq e

/-- The wait in SYNC ends with the rise of `STB`. -/
theorem sync_ends (he : ¬ NeverIdle seq e) (hst : e.st = .sync) :
    ∃ a f, Stretch seq e.pin.stb (a + 1) (List.replicate a true ++ [false]) e f ∧ InWindow seq 0 f := by
  obtain ⟨a, f, h, hf, -, -, hlevel⟩ := Awaits.ends (.inl ⟨hst, rfl⟩) he
  rw [engineStep_of_sync (hf.trans hst), engineSync_raise hlevel] at h
  exact ⟨a, _, h, rfl, rfl, rfl, h.completes he⟩

/-- Wait `k` of the window samples the other level some number of times, then its own, on which a STROBE row goes on. -/
theorem InWindow.sampled {k : Nat} (h : InWindow seq k e) :
    ∃ a f, Stretch seq true (a + 1) (List.replicate a (!seq.getD k false) ++ [seq.getD k false]) e (engineStrobe seq f) ∧
      f.st = .strobe ∧ f.k = k ∧ f.pin.stb = true ∧ (clockSample f.clk).1 = seq.getD f.k false := by
  obtain ⟨hst, rfl, hstb, he⟩ := h
  obtain ⟨a, f, h, hf, hk, hpin, hlevel⟩ := Awaits.ends (.inr ⟨hst, rfl⟩) he
  rw [hstb, engineStep_of_strobe (hf.trans hst)] at h
  exact ⟨a, f, h, hf.trans hst, hk, (congrArg Pins.stb hpin).trans hstb, by rwa [hk]⟩

/-- A wait in STROBE that is not the last ends with the step to the next. -/
theorem InWindow.advances {k : Nat} (hin : InWindow seq k e) (hk : k < seq.length - 1) :
    ∃ a f, Stretch seq true (a + 1) (List.replicate a (!seq.getD k false) ++ [seq.getD k false]) e f ∧
      InWindow seq (k + 1) f := by
  obtain ⟨a, f, h, hst, rfl, hstb, hlevel⟩ := hin.sampled
  rw [engineStrobe_advance hlevel hk] at h
  exact ⟨a, _, h, hst, rfl, hstb, h.completes hin.completes⟩

/-- The last wait in STROBE ends with the fall of `STB`. -/
theorem InWindow.ends {k : Nat} (hin : InWindow seq k e) (hk : ¬ k < seq.length - 1) :
    ∃ a f, Stretch seq true (a + 1) (List.replicate a (!seq.getD k false) ++ [seq.getD k false]) e f ∧
      f.st = .release ∧ f.pin.stb = false := by
  obtain ⟨a, f, h, -, rfl, -, hlevel⟩ := hin.sampled
  rw [engineStrobe_last hlevel hk] at h
  obtain ⟨hfall, hrelease⟩ := engineStrobeEnd_pin { f with clk := (clockSample f.clk).2 }
  exact ⟨a, _, h, hrelease, by rw [hfall]⟩

/-! ## The window -/

theorem stretch_to_sync (seq : List Bool) (r : BusRequest) (h : e.pin.stb = false) :
    ∃ f, Stretch seq false 3 [] (engineAccept r e) f ∧ f.st = .sync ∧ f.pin.stb = false := by
  obtain ⟨hst, hclk, hstb⟩ := engineSteps_to_sync seq r e
  refine ⟨_, ⟨rfl, ?_, fun i hi => (hstb i hi.le).trans h⟩, hst, (hstb 3 le_rfl).trans h⟩
  rw [hclk]
  rfl

/-- After the fall of `STB` the cycle takes one step to IDLE, and `STB` stays 0. -/
theorem stb_low_of_release (hst : e.st = .release) (hstb : e.pin.stb = false) : ∀ n, (engineSteps seq n e).pin.stb = false
  | 0 => hstb
  | n + 1 => by
    rw [engineSteps, engineStep_of_release hst, engineSteps_of_idle rfl]
    exact hstb

/-- A stretch with `STB` at 0 and one with `STB` at 1, up to RELEASE, are the cycle: its levels, and its window. -/
theorem window_of_stretches {r : BusRequest} {e' : BusEngine} (hlow : Stretch seq false m l (engineAccept r e) f)
    (hhigh : Stretch seq true n l' f g) (hst : g.st = .release) (hstb : g.pin.stb = false)
    (hcycle : busCycle seq r e = some e') :
    clockLevels (l ++ l').length e.clk = (l ++ l', e'.clk) ∧
      ∀ i, (engineSteps seq i (engineAccept r e)).pin.stb = true ↔ m ≤ i ∧ i < m + n := by
  have hreached : engineSteps seq (m + n) (engineAccept r e) = g := by rw [engineSteps_add, hlow.reached, hhigh.reached]
  constructor
  · obtain ⟨k, rfl, hidle⟩ := engineRun_some hcycle
    have hlast : engineSteps seq (m + n + 1) (engineAccept r e) = engineRelease g := by
      rw [engineSteps_add, hreached, engineSteps, engineSteps, engineStep_of_release hst]
    have hend := engineSteps_idle_unique hidle (n := m + n + 1) (by rw [hlast]; rfl)
    rw [hend, hlast]
    exact clockLevels_append hlow.levels hhigh.levels
  · intro i
    obtain hi | ⟨j, rfl⟩ := (Nat.lt_or_ge i m).imp_right Nat.exists_eq_add_of_le
    · simp [hlow.stb i hi, hi]
    · rw [engineSteps_add, hlow.reached]
      obtain hj | ⟨k, rfl⟩ := (Nat.lt_or_ge j n).imp_right Nat.exists_eq_add_of_le
      · simp [hhigh.stb j hj, hj]
      · simp [engineSteps_add, hhigh.reached, stb_low_of_release hst hstb k]

/-- A cycle that completes, up to the rise of `STB`. -/
theorem stretch_to_window {r : BusRequest} {e' : BusEngine} (h : e.pin.stb = false) (hcycle : busCycle seq r e = some e') :
    ∃ a f, Stretch seq false (a + 4) (List.replicate a true ++ [false]) (engineAccept r e) f ∧ InWindow seq 0 f := by
  have he : ¬ NeverIdle seq (engineAccept r e) := fun hnever => by
    rw [busCycle_eq_none_iff.2 hnever] at hcycle
    cases hcycle
  obtain ⟨f, hsetup, hf, hfstb⟩ := stretch_to_sync seq r h
  obtain ⟨a, g, hsync, hg⟩ := sync_ends (hsetup.completes he) hf
  rw [hfstb] at hsync
  have hlow := hsetup.trans hsync
  rw [show 3 + (a + 1) = a + 4 by omega] at hlow
  exact ⟨a, g, hlow, hg⟩

end

/-- With `[1, 0, 1]` the window is three waits: a whole clock period, from rising edge to rising edge. -/
theorem window_of_default {r : BusRequest} {e e' : BusEngine} (h : e.pin.stb = false)
    (hcycle : busCycle [true, false, true] r e = some e') :
    ∃ a b c d : Nat,
      clockLevels (a + b + c + d + 4) e.clk =
        (List.replicate a true ++ [false] ++ List.replicate b false ++ [true] ++ List.replicate c true ++ [false] ++
          List.replicate d false ++ [true], e'.clk) ∧
      ∀ n, (engineSteps [true, false, true] n (engineAccept r e)).pin.stb = true ↔ (a + 4 ≤ n ∧ n < a + b + c + d + 7) := by
  obtain ⟨a, f, hlow, hf⟩ := stretch_to_window h hcycle
  obtain ⟨b, f1, hrise, hf1⟩ := hf.advances (by decide)
  obtain ⟨c, f2, hfall, hf2⟩ := hf1.advances (by decide)
  obtain ⟨d, f3, hlast, hst, hstb⟩ := hf2.ends (by decide)
  obtain ⟨hlevels, hwindow⟩ := window_of_stretches hlow ((hrise.trans hfall).trans hlast) hst hstb hcycle
  refine ⟨a, b, c, d, ?_, fun n => (hwindow n).trans ?_⟩
  · convert hlevels using 2
    · simp
      omega
    · simp
  · omega

/-- With `[1, 0]` the window is two waits: it ends with the falling edge. -/
theorem window_of_alternative {r : BusRequest} {e e' : BusEngine} (h : e.pin.stb = false)
    (hcycle : busCycle [true, false] r e = some e') :
    ∃ a b c : Nat,
      clockLevels (a + b + c + 3) e.clk =
        (List.replicate a true ++ [false] ++ List.replicate b false ++ [true] ++ List.replicate c true ++ [false], e'.clk) ∧
      ∀ n, (engineSteps [true, false] n (engineAccept r e)).pin.stb = true ↔ (a + 4 ≤ n ∧ n < a + b + c + 6) := by
  obtain ⟨a, f, hlow, hf⟩ := stretch_to_window h hcycle
  obtain ⟨b, f1, hrise, hf1⟩ := hf.advances (by decide)
  obtain ⟨c, f2, hfall, hst, hstb⟩ := hf1.ends (by decide)
  obtain ⟨hlevels, hwindow⟩ := window_of_stretches hlow (hrise.trans hfall) hst hstb hcycle
  refine ⟨a, b, c, ?_, fun n => (hwindow n).trans ?_⟩
  · convert hlevels using 2
    · simp
      omega
    · simp
  · omega

/-- Settles O59: the waits of the two sequences, one after the other. -/
theorem strobeWindowSpansOneClockPeriod : Obligations.StrobeWindowSpansOneClockPeriod :=
  ⟨fun _ _ _ h hcycle => window_of_default h hcycle, fun _ _ _ h hcycle => window_of_alternative h hcycle⟩

end Sys2Proof.Machine

/-! PROOFS. The two hardware revisions (`40_bus_engine.md` R110): every operation is a simulation of itself on the other revision,
because nothing it reads of the configuration is HW_REV. -/

namespace Sys2Proof.Machine

/-! ## The state on another revision -/

@[simp] theorem onRevision_mode (r : HwRev) (s : State) : (onRevision r s).mode = s.mode := rfl
@[simp] theorem onRevision_bus (r : HwRev) (s : State) : (onRevision r s).bus = s.bus := rfl
@[simp] theorem onRevision_sw (r : HwRev) (s : State) : (onRevision r s).sw = s.sw := rfl
@[simp] theorem onRevision_sol (r : HwRev) (s : State) : (onRevision r s).sol = s.sol := rfl
@[simp] theorem onRevision_snd (r : HwRev) (s : State) : (onRevision r s).snd = s.snd := rfl
@[simp] theorem onRevision_lamp (r : HwRev) (s : State) : (onRevision r s).lamp = s.lamp := rfl

@[simp] theorem onRevision_strobeWaitSeq (r : HwRev) (s : State) :
    (onRevision r s).cfg.strobeWaitSeq = s.cfg.strobeWaitSeq := rfl
@[simp] theorem onRevision_solQCap (r : HwRev) (s : State) : (onRevision r s).cfg.solQCap = s.cfg.solQCap := rfl
@[simp] theorem onRevision_sndQCap (r : HwRev) (s : State) : (onRevision r s).cfg.sndQCap = s.cfg.sndQCap := rfl

theorem withLamp_onRevision (r : HwRev) (s : State) (l : Lamps) :
    (onRevision r s).withLamp l = onRevision r (s.withLamp l) := rfl

/-! ## Outcomes -/

/-- `x` is the outcome `y`, on the other revision. -/
def SameOn (r : HwRev) (x y : Result) : Prop := x = outcomeOnRevision r y

section
variable {r : HwRev} {s : State} {x y : Result}

theorem SameOn.next (r : HwRev) (s : State) : SameOn r (.next (onRevision r s)) (.next s) := rfl

/-- A refusal changes nothing that depends on the revision. -/
theorem SameOn.refuse (st : Status) : SameOn r (refuse st (onRevision r s)) (refuse st s) := rfl

/-- A rule of two steps, if each takes the same step on the other revision. -/
theorem SameOn.chain {f g : State → Result} (h : SameOn r x y) (k : ∀ u, SameOn r (f (onRevision r u)) (g u)) :
    SameOn r (chain x f) (chain y g) := by
  cases h
  cases y with
  | next u => exact k u
  | fault => rfl
  | refused => rfl

theorem SameOn.forEach {α : Type} {f : α → State → Result} (h : ∀ a u, SameOn r (f a (onRevision r u)) (f a u)) :
    ∀ (l : List α) (s : State), SameOn r (forEach f l (onRevision r s)) (forEach f l s)
  | [], s => .next r s
  | a :: l, s => .chain (h a s) (SameOn.forEach h l)

theorem SameOn.ite {c : Prop} [Decidable c] {x' y' : Result} (h : SameOn r x y) (h' : SameOn r x' y') :
    SameOn r (if c then x else x') (if c then y else y') := by
  split
  · exact h
  · exact h'

theorem SameOn.served (h : SameOn r x y) : SameOn r (served (onRevision r s) x) (served s y) :=
  .ite (.refuse _) h

/-- A test that refuses when it fails. -/
theorem SameOn.tested {c : Prop} [Decidable c] {st : Status} (h : SameOn r x y) :
    SameOn r (if c then Machine.refuse st (onRevision r s) else x) (if c then Machine.refuse st s else y) :=
  .ite (.refuse _) h

/-! ## Bus cycles -/

theorem SameOn.runCycle (q : BusRequest) (s : State) : SameOn r (runCycle q (onRevision r s)) (runCycle q s) := by
  unfold SameOn Machine.runCycle
  rw [onRevision_bus, onRevision_strobeWaitSeq]
  cases busCycle s.cfg.strobeWaitSeq q s.bus <;> rfl

theorem SameOn.busWrite (a : Addr) (v : Byte) (s : State) : SameOn r (busWrite a v (onRevision r s)) (busWrite a v s) :=
  .runCycle _ s

theorem SameOn.busRead (a : Addr) (s : State) : SameOn r (busRead a (onRevision r s)) (busRead a s) := .runCycle _ s

theorem SameOn.writeAll (l : List (Addr × Byte)) (s : State) : SameOn r (writeAll l (onRevision r s)) (writeAll l s) :=
  .forEach (fun a u => .busWrite a.1 a.2 u) l s

/-! ## The tick handler -/

theorem diagSample_onRevision (r : HwRev) (v : Byte) (s : State) :
    diagSample v (onRevision r s) = onRevision r (diagSample v s) := by
  rw [diagSample_eq, diagSample_eq]
  rfl

theorem SameOn.diagStep (s : State) : SameOn r (diagStep (onRevision r s)) (diagStep s) :=
  .chain (.busRead _ s) fun u => congrArg Host.Outcome.next (diagSample_onRevision r u.bus.rdata u)

theorem SameOn.displayStep (s : State) : SameOn r (displayStep (onRevision r s)) (displayStep s) := by
  refine .chain (.busWrite _ _ (s.withDisp { s.disp with slot := nextSlot s.cfg s.disp.slot })) fun u => ?_
  exact .chain (.busWrite _ _ u) fun u => .busWrite _ _ u

theorem SameOn.lampStep (s : State) : SameOn r (lampStep (onRevision r s)) (lampStep s) :=
  .chain (.busWrite _ _ (s.withLamp (lampAdvance s.cfg s.lamp))) fun u => .busWrite _ _ u

theorem SameOn.scanColumn (c : Fin 8) (s : State) : SameOn r (scanColumn c (onRevision r s)) (scanColumn c s) :=
  .chain (.busWrite _ _ s) fun u => .chain (.busRead _ u) fun _ => rfl

theorem SameOn.switchScan (s : State) : SameOn r (switchScan (onRevision r s)) (switchScan s) :=
  .chain (.forEach .scanColumn _ s) fun _ => rfl

theorem SameOn.inputPhase (s : State) : SameOn r (inputPhase (onRevision r s)) (inputPhase s) :=
  .chain (.diagStep s) fun u => .chain (.displayStep u) fun u => .chain (.lampStep u) fun u => .switchScan u

theorem SameOn.writeSolenoidPair (out : BitVec 16) (s : State) :
    SameOn r (writeSolenoidPair out (onRevision r s)) (writeSolenoidPair out s) :=
  .chain (.busWrite _ _ s) fun u => .busWrite _ _ u

theorem SameOn.outputPhase (s : State) : SameOn r (outputPhase (onRevision r s)) (outputPhase s) := by
  refine .chain (.writeAll _ (s.withSol { s.sol with q := (pull s.sol.q).2 })) fun u => ?_
  refine .chain (.writeSolenoidPair _ (u.withSnd { u.snd with q := (pull u.snd.q).2 })) fun u => ?_
  exact .chain (.writeAll _ u) fun _ => rfl

theorem SameOn.tickHandler (s : State) : SameOn r (tickHandler (onRevision r s)) (tickHandler s) :=
  .chain (.ite (.outputPhase s) (.inputPhase s)) fun _ => rfl

/-! ## The commands -/

theorem SameOn.execInit (credit : BitVec 8) (s : State) :
    SameOn r (execInit credit (onRevision r s)) (execInit credit s) :=
  .ite (.refuse _) <| .ite rfl <| .chain (.writeAll _ (ownBus (clearAllState (setHaltLegacy true s)))) fun _ => rfl

theorem flashRecompute_onRevision (r : HwRev) (t : Time) (s : State) :
    flashRecompute t (onRevision r s) = onRevision r (flashRecompute t s) := by
  have hflash : flashOne (onRevision r s).cfg t = flashOne s.cfg t := rfl
  rw [flashRecompute, flashRecompute, hflash, onRevision_lamp, withLamp_onRevision]

/-- The three operations of UPDATE. -/
theorem updates_onRevision (r : HwRev) (t : Time) (s : State) :
    timedTickSnd t (timedTickSol t (flashRecompute t (onRevision r s))) =
      onRevision r (timedTickSnd t (timedTickSol t (flashRecompute t s))) := by
  rw [flashRecompute_onRevision]
  rfl

theorem SameOn.exec (i : Instr) (s : State) : SameOn r (exec i (onRevision r s)) (exec i s) := by
  cases i with
  | init credit => exact .execInit credit s
  | buswr addr data => exact .served (.chain (.busWrite _ _ s) fun _ => rfl)
  | busrd addr => exact .served (.chain (.busRead _ s) fun _ => rfl)
  | swpull =>
    refine .served ?_
    rw [onRevision_sw]
    cases s.sw.q <;> rfl
  | swpeek | swisq | solcont | dispval | dispblank | dispgetb => exact .served (.tested rfl)
  | solspace | sndspace | solen | soldis | lampoff => exact .served rfl
  | solpush id rep allow =>
    refine .served (.tested (.tested ?_))
    rw [onRevision_solQCap, onRevision_sol]
    cases push s.cfg.solQCap s.sol.q (solenoidOf id) rep <;> rfl
  | solpushf id rep =>
    refine .served (.tested (.tested ?_))
    rw [onRevision_solQCap, onRevision_sol]
    cases pushFront s.cfg.solQCap s.sol.q (solenoidOf id) rep <;> rfl
  | solsched id rep ovr time =>
    refine .served (.tested ?_)
    rw [onRevision_sol]
    cases schedule { used := true, id := solenoidOf id, rep := rep, fire := time, ovr := ovr } s.sol.t <;> rfl
  | sndpush id rep =>
    refine .served ?_
    rw [onRevision_sndQCap, onRevision_snd]
    cases push s.cfg.sndQCap s.snd.q id rep <;> rfl
  | sndsched id rep ovr time =>
    refine .served ?_
    rw [onRevision_snd]
    cases schedule { used := true, id := id, rep := rep, fire := time, ovr := ovr } s.snd.t <;> rfl
  | update time => exact .served (congrArg (fun u => Host.Outcome.next (respond .ok 0 u)) (updates_onRevision r time s))
  | lampset => exact .served (.tested (.ite rfl rfl))
  | diagq | diagclr | flipdis | sndrange | lampflashall | dispcycle => exact .served (.refuse _)

theorem SameOn.runCommand (w : CmdWord) (s : State) : SameOn r (runCommand w (onRevision r s)) (runCommand w s) := by
  unfold Machine.runCommand
  split
  · exact .exec _ s
  · exact .served (.refuse _)

theorem SameOn.perform (c : Choice) (s : State) : SameOn r (perform c (onRevision r s)) (perform c s) := by
  cases c with
  | tick => exact .tickHandler (takeTick s)
  | command w => exact .runCommand w (acceptCommand s)
  | idle => exact .next r s

end

/-! ## The step -/

theorem tickPulse_onRevision (r : HwRev) (s : State) : tickPulse (onRevision r s) = onRevision r (tickPulse s) := by
  unfold tickPulse
  rw [onRevision_mode]
  split <;> rfl

theorem tickPulses_onRevision (r : HwRev) : ∀ (n : Nat) (s : State),
    tickPulses n (onRevision r s) = onRevision r (tickPulses n s)
  | 0, _ => rfl
  | n + 1, s => by rw [tickPulses, tickPulses, tickPulse_onRevision, tickPulses_onRevision r n]

theorem beginStep_onRevision (r : HwRev) (s : State) : beginStep (onRevision r s) = onRevision r (beginStep s) :=
  tickPulses_onRevision r _ (s.withPort { s.port with rspValid := false })

theorem endStep_onRevision (r : HwRev) (m : Mode) (n : Nat) (s : State) :
    endStep m n (onRevision r s) = onRevision r (endStep m n s) := by
  unfold endStep
  rw [tickPulses_onRevision]
  split <;> rfl

/-- Settles O21: what stands before and after the arbiter's choice, the choice, and what it runs are the same. -/
theorem revisionsAreIndistinguishable : Obligations.RevisionsAreIndistinguishable := by
  intro r s
  refine SameOn.ite (SameOn.chain ?_ fun t => congrArg Host.Outcome.next (endStep_onRevision r _ _ t)) rfl
  rw [beginStep_onRevision]
  exact .perform (arbitrate (beginStep s)) (beginStep s)

end Sys2Proof.Machine

/-! PROOFS. The command INIT: passthrough, the second INIT, and the configured block (`41_peripheral_config.md` R130 to R136,
`10_state.md` R42). -/

namespace Sys2Proof.Machine

theorem exec_init (credit : BitVec 8) (s : State) : exec (.init credit) s = execInit credit s := rfl

/-- Settles O29: the two ends of INIT that issue no bus cycle. -/
theorem initPassthroughHaltsAndSecondInitIsRefused : Obligations.InitPassthroughHaltsAndSecondInitIsRefused := by
  intro credit s
  rw [exec_init]
  constructor
  · intro hm hb
    rw [execInit_passthrough credit hm hb, respond_eq_answered]
    rfl
  · intro hm
    rw [execInit_refused credit hm, respond_eq_answered]
    rfl

/-- INIT without passthrough ends while the clock runs: its only cycles are the writes of INIT_SEQ (`41_peripheral_config.md`
R130, R132). -/
theorem execInit_configure_completes (credit : BitVec 8) {s : State} (hm : s.mode = .uninit)
    (hb : s.inp.bootOrigReq = false) (hr : s.bus.clk.running = true) :
    ∃ u, writeAll s.cfg.initSeq (ownBus (clearAllState (setHaltLegacy true s))) = .next u ∧
      execInit credit s = .next (respond .ok 0 (u.withMode .run)) := by
  obtain ⟨e, hwrites, -⟩ :=
    writeAll_completes s.cfg.initSeq (s := ownBus (clearAllState (setHaltLegacy true s))) hr
  exact ⟨_, hwrites, by rw [execInit_configure credit hm hb, hwrites, chain_next]⟩

/-- Settles O28: the writes end, they leave the cleared state but for the bus, and clearing keeps the history they add to. -/
theorem initClearsConfiguresAndRuns : Obligations.InitClearsConfiguresAndRuns := by
  intro credit s hm hb hr
  obtain ⟨u, hwrites, hexec⟩ := execInit_configure_completes credit hm hb hr
  have hdone := execInit_configure_next hm hb hexec
  exact ⟨_, hexec, afterInit_of_periphInit hwrites, hdone.hist, rfl, responseWord_ok 0⟩

end Sys2Proof.Machine

/-! PROOFS. The steps that hold the state: every step in HALTED, and the idle step (`41_peripheral_config.md` R133,
`60_exceptions.md` R257, `45_interrupt_scheduler.md` R220). -/

namespace Sys2Proof.Machine

/-! ## The arbiter chooses nothing -/

/-- In HALTED neither a tick nor a command is ever taken (`30_encoding.md` R88, `60_exceptions.md` R246). -/
theorem arbitrate_of_halted {s : State} (hm : s.mode = .halted) : arbitrate s = .idle := by
  simp [arbitrate, tickReady, cmdReady, hm]

theorem arbitrate_of_empty {s : State} (ht : s.sch.tickPend = false) (hc : s.port.cmds = []) : arbitrate s = .idle := by
  simp [arbitrate, tickReady, cmdReady, ht, hc]

/-- When the arbiter chooses nothing, a step is what it begins with and what it ends with. -/
theorem step_of_idle {s : State} (hl : s.cfg.legal = true) (hb : s.mode = .run → (tickSample s).before = 0)
    (hidle : arbitrate (s.withPort { s.port with rspValid := false }) = .idle) :
    step s = .next (endStep s.mode (tickSample s).during (s.withPort { s.port with rspValid := false })) := by
  rw [step, if_pos hl, beginStep_of_no_pulse hb, hidle, perform, chain_next]

/-! ## The end of a step -/

theorem tickPulses_of_run : ∀ (n : Nat) {s : State}, s.mode = .run →
    tickPulses n s = s.withSch { s.sch with tickPend := s.sch.tickPend || decide (0 < n) }
  | 0, s, _ => by
    rw [decide_eq_false (Nat.lt_irrefl 0), Bool.or_false]
    rfl
  | n + 1, s, h => by
    have hrun : (s.withSch { s.sch with tickPend := true }).mode = .run := h
    rw [tickPulses, tickPulse_of_run h, tickPulses_of_run n hrun]
    simp

/-- A pulse during an operation meets the mode the operation began in: only in RUN is it latched (`45_interrupt_scheduler.md`
R220). -/
theorem endStep_of_same_mode (n : Nat) (s : State) :
    endStep s.mode n s =
      { s with
        sch := { s.sch with tickPend := s.sch.tickPend || decide (s.mode = .run ∧ 0 < n) }
        inp := { s.inp with ticks := s.inp.ticks.tail } } := by
  unfold endStep
  by_cases hm : s.mode = .run
  · rw [if_pos hm, tickPulses_of_run n hm]
    simp [hm, State.withSch, State.withInp]
  · rw [if_neg hm]
    simp [hm, State.withInp]

/-! ## Many steps in HALTED -/

/-- `s` once `n` steps have held it: the answer has been up for its one step, and `n` tick samples are past. -/
def heldFor (n : Nat) (s : State) : State :=
  { s with port := { s.port with rspValid := false }, inp := { s.inp with ticks := s.inp.ticks.drop n } }

theorem heldFor_heldFor (m n : Nat) (s : State) : heldFor n (heldFor m s) = heldFor (n + m) s := by
  simp [heldFor, List.drop_drop, Nat.add_comm]

theorem step_of_halted {s : State} (hl : s.cfg.legal = true) (hm : s.mode = .halted) :
    step s = .next (heldFor 1 s) := by
  rw [step_of_idle hl (by simp [hm]) (arbitrate_of_halted hm), endStep, hm, if_neg (by decide)]
  simp [heldFor, State.withPort, State.withInp]

theorem run_succ_of_step {M : Host.Core} (n : Nat) {s t : M.State} (h : M.step s = .next t) :
    M.run (n + 1) s = M.run n t := by
  rw [Host.Core.run, h]

/-- HALTED leads to HALTED, so each step is again such a step; only the tick samples wear away. -/
theorem run_of_halted : ∀ (n : Nat) {s : State}, s.cfg.legal = true → s.mode = .halted →
    Host.Core.run core (n + 1) s = .next (heldFor (n + 1) s)
  | 0, _, hl, hm => run_succ_of_step (M := core) 0 (step_of_halted hl hm)
  | n + 1, s, hl, hm =>
    calc Host.Core.run core (n + 1 + 1) s
      _ = Host.Core.run core (n + 1) (heldFor 1 s) := run_succ_of_step (M := core) (n + 1) (step_of_halted hl hm)
      _ = .next (heldFor (n + 1) (heldFor 1 s)) := run_of_halted n hl hm
      _ = .next (heldFor (n + 1 + 1) s) := congrArg Host.Outcome.next (heldFor_heldFor 1 (n + 1) s)

/-- Settles O9: HALTED by induction on the number of steps, the idle step by its beginning and its end. -/
theorem haltedOrIdleBlockHoldsItsState : Obligations.HaltedOrIdleBlockHoldsItsState := by
  refine ⟨fun n _ => run_of_halted n, fun s hl _ ht hc hb => ?_⟩
  have hidle : arbitrate (s.withPort { s.port with rspValid := false }) = .idle := arbitrate_of_empty ht hc
  have hend := endStep_of_same_mode (tickSample s).during (s.withPort { s.port with rspValid := false })
  simp only [State.withPort_mode, State.withPort_sch, State.withPort_inp, ht, Bool.false_or] at hend
  rw [step_of_idle hl hb hidle, hend]
  rfl

end Sys2Proof.Machine

/-! PROOFS. The switch matrix and the diagnostic line: the closures of a scan pass, the diagnostic press, and the commands SWPULL,
SWPEEK and SWISQ (`42_switch_matrix.md` R141 to R152). -/

namespace Sys2Proof.Machine

/-! ## The closures of a scan pass -/

theorem switchId_toNat (c : Fin 8) {r : Nat} (hr : r < 8) : (switchId c r).toNat = c.val * 8 + r := by
  rw [switchId, BitVec.toNat_ofNat, Nat.mod_eq_of_lt (by omega)]

/-- An identifier names one column and one row (`42_switch_matrix.md` R141). -/
theorem switchId_inj {c d : Fin 8} {r k : Nat} (hr : r < 8) (hk : k < 8) (h : switchId c r = switchId d k) :
    c = d ∧ r = k := by
  have hn := congrArg BitVec.toNat h
  rw [switchId_toNat c hr, switchId_toNat d hk] at hn
  omega

/-- A closure is the samples open, closed, closed, oldest first (`42_switch_matrix.md` R144). -/
theorem getLsbD_closureByte (w : Switches) (c : Fin 8) {r : Nat} (hr : r < 8) :
    (closureByte w c).getLsbD r = true ↔
      w.ago[c].getLsbD r = false ∧ w.prev[c].getLsbD r = true ∧ w.now[c].getLsbD r = true := by
  simp only [closureByte, BitVec.getLsbD_and, BitVec.getLsbD_not, hr, decide_true, Bool.true_and, Bool.and_eq_true,
    Bool.not_eq_true']
  tauto

theorem mem_closures {cfg : Config} {w : Switches} {x : SwitchId} :
    x ∈ closures cfg w ↔ ∃ (c : Fin 8) (r : Nat), r < 8 ∧ (closureByte w c).getLsbD r = true ∧ switchId c r = x := by
  simp [closures, and_assoc]

theorem switchId_mem_closures {cfg : Config} {w : Switches} {c : Fin 8} {r : Nat} (hr : r < 8) :
    switchId c r ∈ closures cfg w ↔ (closureByte w c).getLsbD r = true := by
  rw [mem_closures]
  constructor
  · rintro ⟨d, k, hk, hbit, hid⟩
    obtain ⟨rfl, rfl⟩ := switchId_inj hk hr hid
    exact hbit
  · exact fun hbit => ⟨c, r, hr, hbit, rfl⟩

/-- A scan pass finds matrix switches only, never the diagnostic one (`42_switch_matrix.md` R141). -/
theorem toNat_lt_of_mem_closures {cfg : Config} {w : Switches} {x : SwitchId} (h : x ∈ closures cfg w) : x.toNat < 64 := by
  obtain ⟨c, r, hr, -, rfl⟩ := mem_closures.1 h
  rw [switchId_toNat c hr]
  omega

/-- The closures stand in ascending order: the rows ascend within a column, and every identifier of a column is below those of
the next (`42_switch_matrix.md` R146). -/
theorem closures_ascending (cfg : Config) (w : Switches) :
    (closures cfg w).Pairwise fun a b => a.toNat < b.toNat := by
  rw [closures, columns_eq, rows_eq, List.pairwise_flatMap]
  constructor
  · intro c _
    refine List.pairwise_map.2 (List.Pairwise.imp_of_mem ?_ (List.pairwise_lt_range.filter _))
    intro r k hr hk hrk
    rw [switchId_toNat c (List.mem_range.1 (List.mem_of_mem_filter hr)),
      switchId_toNat c (List.mem_range.1 (List.mem_of_mem_filter hk))]
    omega
  · refine (List.pairwise_lt_finRange 8).imp fun {c d} hcd x hx y hy => ?_
    obtain ⟨r, hr, rfl⟩ := List.mem_map.1 hx
    obtain ⟨k, hk, rfl⟩ := List.mem_map.1 hy
    have hr8 := List.mem_range.1 (List.mem_of_mem_filter hr)
    rw [switchId_toNat c hr8, switchId_toNat d (List.mem_range.1 (List.mem_of_mem_filter hk))]
    omega

/-- Every column is scanned, so every column is shifted (`42_switch_matrix.md` R142, R143). -/
theorem shiftColumns_all_get (v : Fin 8 → Byte) (w : Switches) (c : Fin 8) :
    (shiftColumns v (List.finRange 8) w).now[c] = v c ∧ (shiftColumns v (List.finRange 8) w).prev[c] = w.now[c] ∧
      (shiftColumns v (List.finRange 8) w).ago[c] = w.prev[c] := by
  simpa using shiftColumns_get v (List.finRange 8) w c (List.nodup_finRange 8)

/-- Settles O54: the list is the closures of the shifted generations. -/
theorem closureIffOpenClosedClosed : Obligations.ClosureIffOpenClosedClosed := by
  intro s hr
  obtain ⟨t, ht⟩ := switchScan_ends hr
  obtain ⟨v, e, rfl, -⟩ := switchScan_next ht
  refine ⟨_, v, closures s.cfg (shiftColumns v (List.finRange 8) s.sw), ht, shiftColumns_all_get v s.sw, ?_,
    closures_ascending _ _, fun _ => toNat_lt_of_mem_closures, fun c r hr8 => ?_⟩
  · simp only [enqueueClosures, State.withSw_sw, State.withSw_cfg, State.withBus_cfg, foldl_enqueueInto,
      (shiftColumns_rest v _ s.sw).1]
  · obtain ⟨hnow, hprev, hago⟩ := shiftColumns_all_get v s.sw c
    have hfound := (switchId_mem_closures (cfg := s.cfg) hr8).trans
      (getLsbD_closureByte (shiftColumns v (List.finRange 8) s.sw) c hr8)
    rwa [hnow, hprev, hago] at hfound

/-! ## The diagnostic identifier -/

/-- Settles O55: the status byte is read, and then the diagnostic sample is all there is. -/
theorem diagnosticPressFromReleasedIsQueued : Obligations.DiagnosticPressFromReleasedIsQueued := by
  intro s hr
  obtain ⟨t, ht⟩ := diagStep_ends hr
  obtain ⟨e, rfl, performed, hbyte, -⟩ := diagStep_next ht
  have hsample := diagSample_eq e.rdata (s.withBus e)
  simp only [State.withBus_sw, State.withBus_cfg, diagSwitchId] at hsample
  rw [hsample] at ht
  refine ⟨_, e.rdata, ht, performed, hbyte, rfl, ?reload, ?queued, ?dropped, ?released⟩ <;> dsimp only [State.withSw_sw]
  case reload => exact fun hactive => if_pos hactive
  case queued => exact fun hactive hhold hnew hroom => if_pos ⟨hactive, hhold, hnew, hroom⟩
  case dropped =>
    refine fun _ hblocked => if_neg ?_
    rintro ⟨-, hhold, hnew, hroom⟩
    obtain h | h | h := hblocked
    · exact h hhold
    · exact hnew h
    · omega
  case released => exact fun hidle => ⟨if_neg fun ⟨hactive, _⟩ => hactive hidle, if_neg fun hactive => hactive hidle⟩

/-- The switch queue only loses entries at its head to a command: SWPULL takes one, no other command touches it. -/
theorem CommandUpdate.swQueue_suffix {s u : State} (hu : CommandUpdate s u) : u.sw.q <:+ s.sw.q := by
  cases hu with
  | swPull => exact List.tail_suffix _
  | update now => simp
  | _ => exact List.suffix_rfl

/-- Losing entries keeps the diagnostic identifier queued at most once. -/
theorem DiagOnce.of_sublist {s t : State} (h : DiagOnce s) (hq : t.sw.q.Sublist s.sw.q) : DiagOnce t where
  once := (hq.count_le _).trans h.once
  range id hid := h.range id (hq.subset hid)

/-- Gaining matrix switches, whose identifiers are below the diagnostic one, keeps it queued at most once. -/
theorem DiagOnce.of_append {s t : State} {l : List SwitchId} (h : DiagOnce s) (hq : t.sw.q = s.sw.q ++ l)
    (hl : ∀ id ∈ l, id.toNat < 64) : DiagOnce t where
  once := by
    have hnone : l.count diagSwitchId = 0 := List.count_eq_zero.2 fun hmem => absurd (hl _ hmem) (by decide)
    rw [hq, List.count_append, hnone]
    exact h.once
  range id hid := by
    rw [hq] at hid
    obtain hold | hnew := List.mem_append.1 hid
    · exact h.range id hold
    · exact (hl id hnew).le

/-- The diagnostic sample queues its identifier only where it is not queued yet (`42_switch_matrix.md` R148). -/
theorem diagSample_queue_cases (v : Byte) (s : State) :
    (diagSample v s).sw.q = s.sw.q ∨
      (diagSwitchId ∉ s.sw.q ∧ (diagSample v s).sw.q = s.sw.q ++ [diagSwitchId]) := by
  rw [diagSample_eq]
  dsimp only [State.withSw_sw]
  split
  · rename_i h
    obtain ⟨-, -, hnew, -⟩ := h
    exact .inr ⟨hnew, rfl⟩
  · exact .inl rfl

theorem DiagOnce.diagSample (v : Byte) {s : State} (h : DiagOnce s) : DiagOnce (diagSample v s) := by
  obtain hsame | ⟨hnew, hgrown⟩ := diagSample_queue_cases v s
  · exact h.of_sublist (hsame ▸ List.Sublist.refl _)
  · constructor
    case once => rw [hgrown, List.count_append, List.count_eq_zero.2 hnew, List.count_singleton_self]
    case range =>
      intro id hid
      rw [hgrown] at hid
      obtain hold | hdiag := List.mem_append.1 hid
      · exact h.range id hold
      · rw [List.mem_singleton.1 hdiag]
        decide

theorem DiagOnce.storeInvariant : StoreInvariant DiagOnce where
  rest _ _ _ _ _ _ h := h.of_sublist (List.Sublist.refl _)
  command _ _ hu h := h.of_sublist hu.swQueue_suffix.sublist
  init s t hi h := h.of_sublist (by simp [hi.sw])
  input s v w h := (h.diagSample v).of_append (switchesAfterInput_q v w s)
    fun _ hid => toNat_lt_of_mem_closures (List.mem_of_mem_take hid)
  output _ h := h.of_sublist (List.Sublist.refl _)

/-- Settles O25: commands only remove, the scan adds matrix switches only, and the diagnostic sample looks before it adds. -/
theorem stepKeepsDiagnosticQueuedOnce : Obligations.StepKeepsDiagnosticQueuedOnce :=
  fun _ _ hs h => DiagOnce.storeInvariant.step h hs

/-! ## The switch commands -/

/-- The column of an identifier is its bits 5 to 3, the row its bits 2 to 0 (`42_switch_matrix.md` R141). -/
theorem switchColumn_ofNat (c : Fin 8) {r : Nat} (hr : r < 8) : switchColumn (BitVec.ofNat 8 (c.val * 8 + r)) = c := by
  apply Fin.ext
  simp only [switchColumn, Fin.val_ofNat, BitVec.extractLsb'_toNat, BitVec.toNat_ofNat, Nat.shiftRight_eq_div_pow]
  omega

theorem switchRow_ofNat (c : Fin 8) {r : Nat} (hr : r < 8) : switchRow (BitVec.ofNat 8 (c.val * 8 + r)) = r := by
  simp only [switchRow, BitVec.extractLsb'_toNat, BitVec.toNat_ofNat, Nat.shiftRight_eq_div_pow]
  omega

theorem queuedId_ofNat (n : Nat) : queuedId (BitVec.ofNat 8 n) = BitVec.ofNat 7 n := by
  apply BitVec.eq_of_toNat_eq
  simp only [queuedId, BitVec.extractLsb'_toNat, BitVec.toNat_ofNat, Nat.shiftRight_eq_div_pow]
  omega

/-- The response word of a boolean query is the answer in bit 0 (`30_encoding.md` R83). -/
theorem responseWord_boolData (b : Bool) : responseWord .ok (boolData b) = if b then 1 else 0 := by
  cases b <;> rfl

/-- A query in its range answers OK and the truth of what it asks, and changes nothing. -/
theorem served_query {c : Prop} [Decidable c] {s : State} {b : Bool} (hm : s.mode ≠ .uninit) (hc : ¬ c) :
    served s (if c then refuse .invalidId s else .next (respond .ok (boolData b) s)) =
      .next (answered s (if b then 1 else 0)) := by
  rw [served_of_ne _ hm, if_neg hc, respond_eq_answered, responseWord_boolData]

theorem exec_swpeek (id : BitVec 8) (s : State) : exec (.swpeek id) s = execSwpeek id s := rfl

theorem exec_swisq (id : BitVec 8) (s : State) : exec (.swisq id) s = execSwisq id s := rfl

theorem exec_swpull (s : State) : exec .swpull s = execSwpull s := rfl

/-- Settles O33: both commands are queries, of the newest sample and of the queue. -/
theorem switchQueriesAnswerFromState : Obligations.SwitchQueriesAnswerFromState := by
  intro s hm
  constructor
  · intro c r hr
    rw [exec_swpeek, execSwpeek, served_query hm]
    · simp only [switchColumn_ofNat c hr, switchRow_ofNat c hr]
    · rw [Stated.value_eq, BitVec.toNat_ofNat]
      omega
  · intro n hn
    rw [exec_swisq, execSwisq, served_query hm, queuedId_ofNat]
    · simp only [decide_eq_true_eq]
    · rw [Stated.value_eq, BitVec.toNat_ofNat]
      omega

/-- Settles O32, by the queue's two forms. -/
theorem swpullTakesTheOldestEvent : Obligations.SwpullTakesTheOldestEvent := by
  intro s hm
  rw [exec_swpull, execSwpull, served_of_ne _ hm]
  constructor
  · intro hq
    rw [hq, pull, refuse, respond_eq_answered]
    rfl
  · intro id q hq
    rw [hq, pull]
    dsimp only
    rw [respond_eq_answered, responseWord_ok, BitVec.setWidth_setWidth (by decide)]
    rfl

end Sys2Proof.Machine

/-! PROOFS. The output queues and their timed tables: the pushes, the schedules, the enable, the continuous mask and UPDATE
(`43_output_queues.md` R160 to R178); and the words the spec writes out. -/

namespace Sys2Proof.Machine

/-! ## The answers of a queue command -/

/-- What a served command whose one test passes does. -/
theorem served_of_not {c : Prop} [Decidable c] {s : State} {st : Status} (r : Result) (hm : s.mode ≠ .uninit) (hc : ¬ c) :
    served s (if c then refuse st s else r) = r := by
  rw [served_of_ne _ hm, if_neg hc]

/-- A served command that writes and answers OK with data 0. -/
theorem served_respond_ok {s : State} (u : State) (hm : s.mode ≠ .uninit) :
    served s (.next (respond .ok 0 u)) = .next (answered u 0) := served_of_ne _ hm

/-- How the commands that fill a queue or a table end: what fits is written, and what does not is answered REJECT_FULL. -/
def writeOrReject {α : Type} (s : State) (write : α → State) : Option α → Result
  | none => refuse .rejectFull s
  | some x => .next (respond .ok 0 (write x))

@[simp] theorem writeOrReject_none {α : Type} (s : State) (write : α → State) :
    writeOrReject s write none = .next (answered s 0x20000000) := rfl

@[simp] theorem writeOrReject_some {α : Type} (s : State) (write : α → State) (x : α) :
    writeOrReject s write (some x) = .next (answered (write x) 0) := rfl

theorem solenoidOf_eq_ofNat (id : BitVec 8) : solenoidOf id = BitVec.ofNat 4 id.toNat := by
  apply BitVec.eq_of_toNat_eq
  simp only [solenoidOf, BitVec.extractLsb'_toNat, BitVec.toNat_ofNat, Nat.shiftRight_zero]

/-- The solenoids 0 to 15 pass the range test of their commands (`30_encoding.md` R93). -/
theorem not_contW_le (c : Config) {id : BitVec 8} (h : id.toNat ≤ 15) : ¬ c.contW.value ≤ id.toNat := by
  rw [Stated.value_eq]
  omega

/-! ## What each queue command does once it is served, in the range of its identifier -/

theorem exec_solpush {id : BitVec 8} (rep : BitVec 8) (allow : Bool) {s : State} (hm : s.mode ≠ .uninit)
    (hid : id.toNat ≤ 15) :
    exec (.solpush id rep allow) s =
      if !s.sol.en && !allow then refuse .rejectDisabled s
      else writeOrReject s (fun q => s.withSol { s.sol with q := q })
        (push s.cfg.solQCap s.sol.q (BitVec.ofNat 4 id.toNat) rep) := by
  rw [← solenoidOf_eq_ofNat]
  refine (served_of_not _ hm (not_contW_le s.cfg hid)).trans ?_
  cases push s.cfg.solQCap s.sol.q (solenoidOf id) rep <;> rfl

theorem exec_solpushf {id : BitVec 8} (rep : BitVec 8) {s : State} (hm : s.mode ≠ .uninit) (hid : id.toNat ≤ 15) :
    exec (.solpushf id rep) s =
      if !s.sol.en then refuse .rejectDisabled s
      else writeOrReject s (fun q => s.withSol { s.sol with q := q })
        (pushFront s.cfg.solQCap s.sol.q (BitVec.ofNat 4 id.toNat) rep) := by
  rw [← solenoidOf_eq_ofNat]
  refine (served_of_not _ hm (not_contW_le s.cfg hid)).trans ?_
  cases pushFront s.cfg.solQCap s.sol.q (solenoidOf id) rep <;> rfl

theorem exec_solsched {id : BitVec 8} (rep : BitVec 8) (ovr : Bool) (time : Time) {s : State} (hm : s.mode ≠ .uninit)
    (hid : id.toNat ≤ 15) :
    exec (.solsched id rep ovr time) s =
      writeOrReject s (fun t => s.withSol { s.sol with t := t })
        (schedule { used := true, id := BitVec.ofNat 4 id.toNat, rep := rep, fire := time, ovr := ovr } s.sol.t) := by
  rw [← solenoidOf_eq_ofNat]
  refine (served_of_not _ hm (not_contW_le s.cfg hid)).trans ?_
  cases schedule { used := true, id := solenoidOf id, rep := rep, fire := time, ovr := ovr } s.sol.t <;> rfl

theorem exec_solcont {id : BitVec 8} (on : Bool) {s : State} (hm : s.mode ≠ .uninit) (hid : id.toNat ≤ 15) :
    exec (.solcont id on) s =
      .next (answered (s.withSol { s.sol with cont := setBit s.sol.cont (solenoidOf id).toNat on }) 0) :=
  served_of_not _ hm (not_contW_le s.cfg hid)

theorem exec_sndpush (id rep : BitVec 8) {s : State} (hm : s.mode ≠ .uninit) :
    exec (.sndpush id rep) s =
      writeOrReject s (fun q => s.withSnd { s.snd with q := q }) (push s.cfg.sndQCap s.snd.q id rep) := by
  refine (served_of_ne _ hm).trans ?_
  cases push s.cfg.sndQCap s.snd.q id rep <;> rfl

theorem exec_sndsched (id rep : BitVec 8) (ovr : Bool) (time : Time) {s : State} (hm : s.mode ≠ .uninit) :
    exec (.sndsched id rep ovr time) s =
      writeOrReject s (fun t => s.withSnd { s.snd with t := t })
        (schedule { used := true, id := id, rep := rep, fire := time, ovr := ovr } s.snd.t) := by
  refine (served_of_ne _ hm).trans ?_
  cases schedule { used := true, id := id, rep := rep, fire := time, ovr := ovr } s.snd.t <;> rfl

theorem exec_update (now : Time) (s : State) : exec (.update now) s = execUpdate now s := rfl

/-! ## The timed tables -/

/-- The entry takes the lowest free slot (`43_output_queues.md` R170). -/
theorem schedule_lowest_free {w : Nat} (e : TimedEntry w) {x : TimedEntry w} (post : List (TimedEntry w))
    (hx : x.used = false) : ∀ {pre : List (TimedEntry w)}, (∀ y ∈ pre, y.used = true) →
      schedule e (pre ++ x :: post) = some (pre ++ e :: post)
  | [], _ => by simp [schedule, hx]
  | y :: pre, h => by
    obtain ⟨hy, hpre⟩ := List.forall_mem_cons.1 h
    simp [schedule, hy, schedule_lowest_free e post hx hpre]

/-- A full table takes no entry (`43_output_queues.md` R170). -/
theorem schedule_full {w : Nat} (e : TimedEntry w) : ∀ {t : List (TimedEntry w)}, (∀ x ∈ t, x.used = true) →
    schedule e t = none
  | [], _ => rfl
  | x :: t, h => by
    obtain ⟨hx, ht⟩ := List.forall_mem_cons.1 h
    simp [schedule, hx, schedule_full e ht]

/-- A scheduling command writes the table with the lowest free slot taken, or rejects (`43_output_queues.md` R170). -/
theorem writeOrReject_schedule {w : Nat} (s : State) (write : List (TimedEntry w) → State) (e : TimedEntry w)
    (t : List (TimedEntry w)) :
    (∀ pre x post, t = pre ++ x :: post → (∀ y ∈ pre, y.used = true) → x.used = false →
        writeOrReject s write (schedule e t) = .next (answered (write (pre ++ e :: post)) 0)) ∧
      ((∀ x ∈ t, x.used = true) → writeOrReject s write (schedule e t) = .next (answered s 0x20000000)) := by
  constructor
  · intro pre x post ht hpre hx
    rw [ht, schedule_lowest_free e post hx hpre, writeOrReject_some]
  · intro hfull
    rw [schedule_full e hfull, writeOrReject_none]

/-- Settles O38: the enable is not looked at, the table decides. -/
theorem solschedTakesTheLowestFreeSlot : Obligations.SolschedTakesTheLowestFreeSlot := by
  intro id rep ovr time s hm hid
  rw [exec_solsched rep ovr time hm hid]
  exact writeOrReject_schedule s (fun t => s.withSol { s.sol with t := t }) _ s.sol.t

/-- Settles O39: the override bit is part of the entry. -/
theorem sndschedTakesTheLowestFreeSlot : Obligations.SndschedTakesTheLowestFreeSlot := by
  intro id rep ovr time s hm
  rw [exec_sndsched id rep ovr time hm]
  exact writeOrReject_schedule s (fun t => s.withSnd { s.snd with t := t }) _ s.snd.t

/-! ## The continuous mask -/

/-- Settles O41: the bit written is the one the identifier names. -/
theorem solcontWritesOneBit : Obligations.SolcontWritesOneBit := by
  intro id on s hm hid
  have hbit : (solenoidOf id).toNat = id.toNat := by
    rw [solenoidOf_eq_ofNat, BitVec.toNat_ofNat, Nat.mod_eq_of_lt (by omega)]
  refine ⟨_, exec_solcont on hm hid, fun j hj => ?_⟩
  rw [hbit, getLsbD_setBit _ on hj]

/-! ## UPDATE -/

theorem due_iff {w : Nat} (now : Time) (e : TimedEntry w) :
    due now e = true ↔ e.used = true ∧ e.fire.toNat ≤ now.toNat := by
  simp [due, BitVec.le_def]

theorem due_eq_false_iff {w : Nat} (now : Time) (e : TimedEntry w) :
    due now e = false ↔ ¬ (e.used = true ∧ e.fire.toNat ≤ now.toNat) := by
  rw [← due_iff, Bool.not_eq_true]

/-- A push whose rejection is ignored. -/
theorem push_getD {α : Type} (cap : Nat) (q : List α) (id : α) (n : BitVec 8) :
    (push cap q id n).getD q = if n.toNat ≤ cap - q.length then q ++ List.replicate n.toNat id else q := by
  by_cases h : n.toNat ≤ cap - q.length
  · rw [push_of_le id h, if_pos h, Option.getD_some]
  · rw [push_of_lt id (Nat.lt_of_not_le h), if_neg h, Option.getD_none]

/-- The table after a timed tick, with the due slots by their numbers (`43_output_queues.md` R171, R182). -/
theorem timedTick_frees_due {w : Nat} (cap : Nat) (now : Time) (adm : TimedEntry w → Bool) (t : List (TimedEntry w))
    (q : List (BitVec w)) :
    (timedTick cap now adm t q).1 =
      t.map fun e => if e.used ∧ e.fire.toNat ≤ now.toNat then { e with used := false } else e := by
  simp only [timedTick_fst, due_iff]

/-- The queue after a timed tick, with the due slots and the room by their numbers (`43_output_queues.md` R162, R171). -/
theorem timedTick_queue {w : Nat} {cap : Nat} {now : Time} {adm : TimedEntry w → Bool} {t t' : List (TimedEntry w)}
    {q q' : List (BitVec w)} (htick : timedTick cap now adm t q = (t', q')) :
    q' = t.foldl (fun q e =>
      if (e.used = true ∧ e.fire.toNat ≤ now.toNat) ∧ adm e = true ∧ e.rep.toNat ≤ cap - q.length then
        q ++ List.replicate e.rep.toNat e.id else q) q := by
  have hq : q' = (timedTick cap now adm t q).2 := (congrArg Prod.snd htick).symm
  simp only [hq, timedTick_snd, due_iff, push_getD, ite_and]

theorem timedTick_queue_grows {w : Nat} (cap : Nat) (now : Time) (adm : TimedEntry w → Bool) :
    ∀ (t : List (TimedEntry w)) (q : List (BitVec w)), q <+: (timedTick cap now adm t q).2
  | [], q => ⟨[], List.append_nil q⟩
  | e :: t, q => by
    cases h : due now e
    · rw [timedTick_not_due t q h]
      exact timedTick_queue_grows cap now adm t q
    · rw [timedTick_due t q h]
      refine List.IsPrefix.trans ?_ (timedTick_queue_grows cap now adm t _)
      obtain hsame | ⟨-, hgrown⟩ := promoted_cases cap (adm e) q e.id e.rep
      · rw [hsame]
      · rw [hgrown]
        exact ⟨_, rfl⟩

/-- One due entry among slots that are not. -/
theorem timedTick_one_due {w : Nat} (cap : Nat) (now : Time) (adm : TimedEntry w → Bool) {pre post : List (TimedEntry w)}
    {e : TimedEntry w} (q : List (BitVec w)) (hrest : ∀ x ∈ pre ++ post, due now x = false) (he : due now e = true) :
    timedTick cap now adm (pre ++ e :: post) q =
      (pre ++ { e with used := false } :: post, if adm e then (push cap q e.id e.rep).getD q else q) := by
  obtain ⟨hpre, hpost⟩ := List.forall_mem_append.1 hrest
  rw [timedTick_append, timedTick_none_due cap now adm pre q hpre, timedTick_due post q he,
    timedTick_none_due cap now adm post _ hpost]

/-- One pending entry among slots that are not due: at or after its fire time it goes to the queue, or is dropped, and its slot is
free; before, nothing changes (`43_output_queues.md` R171, R174). -/
theorem timedTick_one_pending {w : Nat} {cap : Nat} {now : Time} {adm : TimedEntry w → Bool}
    {t t' pre post : List (TimedEntry w)} {e : TimedEntry w} {q q' : List (BitVec w)}
    (htick : timedTick cap now adm t q = (t', q')) (ht : t = pre ++ e :: post) (hused : e.used = true)
    (hrest : ∀ x ∈ pre ++ post, ¬ (x.used = true ∧ x.fire.toNat ≤ now.toNat)) :
    (e.fire.toNat ≤ now.toNat → adm e = true → e.rep.toNat ≤ cap - q.length →
        q' = q ++ List.replicate e.rep.toNat e.id ∧ t' = pre ++ { e with used := false } :: post) ∧
      (e.fire.toNat ≤ now.toNat → adm e = false ∨ cap - q.length < e.rep.toNat →
        q' = q ∧ t' = pre ++ { e with used := false } :: post) ∧
      (now.toNat < e.fire.toNat → q' = q ∧ t' = t) := by
  have hrest' : ∀ x ∈ pre ++ post, due now x = false := fun x hx => (due_eq_false_iff now x).2 (hrest x hx)
  have hdue : e.fire.toNat ≤ now.toNat →
      (t', q') = (pre ++ { e with used := false } :: post, if adm e then (push cap q e.id e.rep).getD q else q) :=
    fun hf => by rw [← htick, ht, timedTick_one_due cap now adm q hrest' ((due_iff now e).2 ⟨hused, hf⟩)]
  refine ⟨fun hf hadm hroom => ?_, fun hf hno => ?_, fun hf => ?_⟩
  · obtain ⟨rfl, rfl⟩ := Prod.mk.inj (hdue hf)
    simp [hadm, push_getD, hroom]
  · obtain ⟨rfl, rfl⟩ := Prod.mk.inj (hdue hf)
    obtain hadm | hfull := hno
    · simp [hadm]
    · simp [push_getD, Nat.not_le.2 hfull]
  · have hnone : ∀ x ∈ t, due now x = false := by
      intro x hx
      rw [ht, List.mem_append, List.mem_cons] at hx
      obtain hx | rfl | hx := hx
      · exact hrest' x (List.mem_append_left post hx)
      · exact (due_eq_false_iff now x).2 fun h => Nat.not_le.2 hf h.2
      · exact hrest' x (List.mem_append_right pre hx)
    rw [timedTick_none_due cap now adm t q hnone] at htick
    obtain ⟨rfl, rfl⟩ := Prod.mk.inj htick
    exact ⟨rfl, rfl⟩

/-- What UPDATE leaves in the tables and the queues is the timed tick of each, on the state it began in. -/
theorem exec_update_ticks {now : Time} {s t : State} (hm : s.mode ≠ .uninit) (h : exec (.update now) s = .next t) :
    timedTick s.cfg.solQCap now (fun e => s.sol.en || e.ovr) s.sol.t s.sol.q = (t.sol.t, t.sol.q) ∧
      timedTick s.cfg.sndQCap now (fun _ => true) s.snd.t s.snd.q = (t.snd.t, t.snd.q) := by
  rw [exec_update, execUpdate_eq now hm] at h
  cases h
  exact ⟨rfl, rfl⟩

/-- The flash recomputation writes on bits of lamps and nothing else (`44_lamp_display.md` R194). -/
theorem flashRecompute_frame (now : Time) (s : State) :
    ∃ on, flashRecompute now s = s.withLamp { s.lamp with on := on } :=
  ⟨_, congrArg s.withLamp (flashFold_frame s.cfg now lampIds s.lamp)⟩

/-- Settles O42: the flash recomputation writes on bits of lamps, the timed ticks the tables and the queues. -/
theorem updateFreesExactlyTheDueSlots : Obligations.UpdateFreesExactlyTheDueSlots := by
  intro now s hm
  refine ⟨_, execUpdate_eq now hm, timedTick_frees_due _ _ _ _ _, timedTick_frees_due _ _ _ _ _,
    timedTick_queue_grows _ _ _ _ _, timedTick_queue_grows _ _ _ _ _, ?_⟩
  obtain ⟨on, hflash⟩ := flashRecompute_frame now s
  rw [hflash]
  rfl

/-- Settles O43: the queue after a timed tick is the fold over the slots, and with one entry pending the fold has one case to
decide. -/
theorem dueEntryReachesItsQueueExactly : Obligations.DueEntryReachesItsQueueExactly := by
  intro now s t hm h
  obtain ⟨hsol, hsnd⟩ := exec_update_ticks hm h
  refine ⟨?_, ?_, fun pre e post ht hused hrest => ?_, fun pre e post ht hused hrest => ?_⟩
  · simpa only [Bool.or_eq_true] using timedTick_queue hsol
  · simpa only [true_and] using timedTick_queue hsnd
  · simpa only [Bool.or_eq_true, Bool.or_eq_false_iff] using timedTick_one_pending hsol ht hused hrest
  · obtain ⟨hpushed, hdropped, hearly⟩ := timedTick_one_pending hsnd ht hused hrest
    exact ⟨fun hf => hpushed hf rfl, fun hf hfull => hdropped hf (.inr hfull), hearly⟩

/-! ## Pushes and pulls -/

theorem runQueue_in_order {α : Type} (cap : Nat) : ∀ (ops : List (QueueOp α)) (q : List α),
    (runQueue cap ops q).1 ++ (runQueue cap ops q).2.2 = q ++ (runQueue cap ops q).2.1
  | [], q => by simp [runQueue]
  | .push id n :: ops, q => by
    unfold runQueue
    split
    · rename_i q' hpush
      obtain ⟨rfl, -⟩ := push_eq_some hpush
      dsimp only
      rw [runQueue_in_order cap ops, List.append_assoc]
    · exact runQueue_in_order cap ops q
  | .pull :: ops, [] => runQueue_in_order cap ops []
  | .pull :: ops, id :: q => congrArg (id :: ·) (runQueue_in_order cap ops q)

theorem runQueue_length_le {α : Type} {cap : Nat} : ∀ (ops : List (QueueOp α)) {q : List α}, q.length ≤ cap →
    (runQueue cap ops q).2.2.length ≤ cap
  | [], _, hq => hq
  | .push id n :: ops, q, hq => by
    unfold runQueue
    split
    · rename_i q' hpush
      exact runQueue_length_le ops (push_length_le hpush hq)
    · exact runQueue_length_le ops hq
  | .pull :: ops, [], hq => runQueue_length_le ops hq
  | .pull :: ops, _ :: _, hq => runQueue_length_le ops (tail_length_le hq)

/-- Settles O45, by induction on the operations. -/
theorem queuesAreFirstInFirstOut : Obligations.QueuesAreFirstInFirstOut :=
  fun _ cap ops q => ⟨runQueue_in_order cap ops q, runQueue_length_le ops⟩

/-! ## The words the spec writes out -/

/-- Settles O4: three of the words are what the encoder writes, the fourth is but for the bits its code ignores, and the fifth has
a reserved code. -/
theorem specWordsDecodeAsWritten : Obligations.SpecWordsDecodeAsWritten :=
  ⟨decodeOfEncodeIsIdentity (.solpush 5 3 false), decodeOfEncodeIsIdentity (.buswr 0x2001 0xFF),
    decodeOfEncodeIsIdentity (.dispval 0 2 true 1234),
    (ignoredBitsHaveNoEffect _ (encode (.lampset 10 1 true 0)) (by decide)).trans (decodeOfEncodeIsIdentity _), rfl⟩

/-! ## Free slots -/

/-- U13 keeps the capacities of the two output queues within a response's 16 data bits. -/
theorem outputQueueCaps_le {c : Config} (h : c.legal = true) : c.solQCap ≤ 65535 ∧ c.sndQCap ≤ 65535 := by
  simp only [Config.legal, Config.capsLegal, Config.capLegal, Bool.and_eq_true, decide_eq_true_eq] at h
  omega

/-- A served query of the free slots of a queue answers their number. -/
theorem served_space {α : Type} {s : State} {cap : Nat} (q : List α) (hm : s.mode ≠ .uninit) (hcap : cap ≤ 65535) :
    ∃ w, served s (.next (respond .ok (BitVec.ofNat 16 (space cap q)) s)) = .next (answered s w) ∧
      w.toNat = cap - q.length := by
  refine ⟨_, served_of_ne _ hm, ?_⟩
  rw [responseWord_ok, BitVec.toNat_setWidth, BitVec.toNat_ofNat, space]
  omega

/-- Settles O34: both commands are such queries, and a legal capacity fits the response. -/
theorem spaceQueriesCountFreeSlots : Obligations.SpaceQueriesCountFreeSlots := by
  intro s hm hl
  obtain ⟨hsol, hsnd⟩ := outputQueueCaps_le hl
  exact ⟨served_space s.sol.q hm hsol, served_space s.snd.q hm hsnd⟩

/-! ## The pushes -/

/-- The enable test of the solenoid pushes fails exactly when neither the enable nor the override is set. -/
theorem not_disabled {en allow : Bool} (h : en = true ∨ allow = true) : ¬ (!en && !allow) = true := by
  obtain rfl | rfl := h <;> simp

/-- Settles O35: the tests in the rule's order, then the push. -/
theorem solpushAppendsOrRejects : Obligations.SolpushAppendsOrRejects := by
  intro id rep allow s hm hid
  rw [exec_solpush rep allow hm hid]
  refine ⟨fun hen hallow => ?_, fun hen hfull => ?_, fun hen hroom => ?_⟩
  · rw [hen, hallow]
    rfl
  · rw [if_neg (not_disabled hen), push_of_lt _ hfull, writeOrReject_none]
  · rw [if_neg (not_disabled hen), push_of_le _ hroom]
    rfl

/-- Settles O36: the tests in the rule's order, then the insertion. -/
theorem solpushfInsertsAtTheHeadOrRejects : Obligations.SolpushfInsertsAtTheHeadOrRejects := by
  intro id rep s hm hid
  rw [exec_solpushf rep hm hid]
  refine ⟨fun hen => ?_, fun hen hfull => ?_, fun hen hroom => ?_⟩
  · rw [hen]
    rfl
  · rw [hen, pushFront_of_lt _ hfull]
    rfl
  · rw [pushFront_of_le _ hroom, hen]
    rfl

/-- Settles O37: the push alone decides. -/
theorem sndpushAppendsOrRejects : Obligations.SndpushAppendsOrRejects := by
  intro id rep s hm
  rw [exec_sndpush id rep hm]
  constructor
  · intro hfull
    rw [push_of_lt _ hfull, writeOrReject_none]
  · intro hroom
    rw [push_of_le _ hroom]
    rfl

/-! ## The enable -/

/-- Settles O40: each is one write and the answer OK. -/
theorem solenSetsAndSoldisClearsTheEnable : Obligations.SolenSetsAndSoldisClearsTheEnable :=
  fun _ hm => ⟨served_respond_ok _ hm, served_respond_ok _ hm⟩

end Sys2Proof.Machine

/-! PROOFS. The lamps and the display fields: LAMPSET, LAMPOFF, the flash recomputation, the dim counters, DISPVAL, DISPBLANK and
DISPGETB (`44_lamp_display.md` R191 to R206). -/

namespace Sys2Proof.Machine

/-! ## The dim counters over the passes of a bank -/

/-- Eight advances bring any bank back and pass the wrap once, where both counters advance (`44_lamp_display.md` R199). -/
theorem lampAdvance_iterate_eight (c : Config) (l : Lamps) :
    (lampAdvance c)^[8] l =
      { l with dimc1 := (l.dimc1 + 1) % c.dimDiv1, dimc2 := (l.dimc2 + 1) % c.dimDiv2 } := by
  obtain ⟨on, dim1, dim2, fp, bank, dimc1, dimc2⟩ := l
  fin_cases bank <;> simp [lampAdvance]

/-- Rounds of eight advances leave the host's arrays as they are. -/
theorem lampAdvance_rounds_keep (c : Config) (n : Nat) (l : Lamps) :
    ((lampAdvance c)^[8 * n] l).on = l.on ∧ ((lampAdvance c)^[8 * n] l).dim1 = l.dim1 ∧
      ((lampAdvance c)^[8 * n] l).dim2 = l.dim2 := by
  rw [Function.iterate_mul]
  induction n with
  | zero => exact ⟨rfl, rfl, rfl⟩
  | succ n ih =>
    rw [Function.iterate_succ_apply', lampAdvance_iterate_eight]
    exact ih

/-- What a counter below its divisor comes to when it advances modulo it. -/
theorem iterate_succ_mod (d D n : Nat) : (fun x => (x + 1) % D)^[n] (d % D) = (d + n) % D := by
  induction n with
  | zero => rfl
  | succ n ih => rw [Function.iterate_succ_apply', ih, Nat.mod_add_mod, Nat.add_assoc]

/-- Among as many consecutive numbers as the divisor, exactly one is a multiple of it. -/
theorem countP_add_mod_eq_zero (d : Nat) {D : Nat} (hD : 0 < D) :
    (List.range D).countP (fun n => decide ((d + n) % D = 0)) = 1 := by
  have hlt : d % D < D := Nat.mod_lt d hD
  obtain ⟨k, hk, hkD⟩ : ∃ k, (k = if d % D = 0 then 0 else D - d % D) ∧ k < D := ⟨_, rfl, by split <;> omega⟩
  have hone : ∀ n ∈ List.range D, decide ((d + n) % D = 0) = true ↔ (n == k) = true := by
    intro n hn
    have hn : n < D := List.mem_range.1 hn
    rw [decide_eq_true_eq, beq_iff_eq, Nat.add_mod_eq_ite, Nat.mod_eq_of_lt hn, hk]
    split <;> split <;> omega
  rw [List.countP_congr hone]
  exact List.count_eq_one_of_mem List.nodup_range (List.mem_range.2 hkD)

/-- What is driven in exactly the rounds in which a counter stands at 0 is driven once in as many rounds as its divisor. -/
theorem countP_driven_rounds {c : Config} {counter : Lamps → Nat} {D : Nat} (hD : 0 < D)
    (hround : ∀ l, counter ((lampAdvance c)^[8] l) = (counter l + 1) % D) (d : Nat) {l : Lamps} (hd : counter l = d % D)
    {driven : Lamps → Bool}
    (hdriven : ∀ n, driven ((lampAdvance c)^[8 * n] l) = decide (counter ((lampAdvance c)^[8 * n] l) = 0)) :
    (List.range D).countP (fun n => driven ((lampAdvance c)^[8 * n] l)) = 1 := by
  have hcounter : ∀ n, counter ((lampAdvance c)^[8 * n] l) = (d + n) % D := by
    intro n
    have hsemi : Function.Semiconj counter (lampAdvance c)^[8] fun x => (x + 1) % D := hround
    rw [Function.iterate_mul, (hsemi.iterate_right n).eq, hd, iterate_succ_mod]
  simp only [hdriven, hcounter]
  exact countP_add_mod_eq_zero d hD

/-! ## The lamp byte -/

/-- Bit by bit, LampByte drives a lamp that is on and undimmed, or dimmed by a counter at 0 (`44_lamp_display.md` R195). -/
theorem getLsbD_lampByte (l : Lamps) (b : Fin 8) {j : Nat} (hj : j < 8) :
    (lampByte l b).getLsbD j = (l.on[b].getLsbD j &&
      ((!l.dim1[b].getLsbD j && !l.dim2[b].getLsbD j) || (l.dim1[b].getLsbD j && decide (l.dimc1 = 0)) ||
        (l.dim2[b].getLsbD j && decide (l.dimc2 = 0)))) := by
  have hgate : ∀ (n : Nat) (x : Byte), (if n = 0 then x else 0).getLsbD j = (x.getLsbD j && decide (n = 0)) := by
    intro n x
    by_cases hn : n = 0 <;> simp [hn]
  simp only [lampByte, BitVec.getLsbD_or, BitVec.getLsbD_and, BitVec.getLsbD_not, hj, decide_true, Bool.true_and, hgate,
    Bool.and_or_distrib_left, Bool.and_assoc]

/-- A lamp with dim bit 1 alone is driven in the rounds in which counter 1 stands at 0. -/
theorem getLsbD_lampByte_rounds_dim1 (c : Config) (n : Nat) {l : Lamps} {b : Fin 8} {j : Nat} (hj : j < 8)
    (hon : l.on[b].getLsbD j = true) (h1 : l.dim1[b].getLsbD j = true) (h2 : l.dim2[b].getLsbD j = false) :
    (lampByte ((lampAdvance c)^[8 * n] l) b).getLsbD j = decide (((lampAdvance c)^[8 * n] l).dimc1 = 0) := by
  obtain ⟨hkon, hk1, hk2⟩ := lampAdvance_rounds_keep c n l
  rw [getLsbD_lampByte _ b hj, hkon, hk1, hk2, hon, h1, h2]
  simp

/-- A lamp with dim bit 2 alone is driven in the rounds in which counter 2 stands at 0. -/
theorem getLsbD_lampByte_rounds_dim2 (c : Config) (n : Nat) {l : Lamps} {b : Fin 8} {j : Nat} (hj : j < 8)
    (hon : l.on[b].getLsbD j = true) (h1 : l.dim1[b].getLsbD j = false) (h2 : l.dim2[b].getLsbD j = true) :
    (lampByte ((lampAdvance c)^[8 * n] l) b).getLsbD j = decide (((lampAdvance c)^[8 * n] l).dimc2 = 0) := by
  obtain ⟨hkon, hk1, hk2⟩ := lampAdvance_rounds_keep c n l
  rw [getLsbD_lampByte _ b hj, hkon, hk1, hk2, hon, h1, h2]
  simp

/-- Settles O56: in the passes of a bank the counter takes consecutive values modulo its divisor, and the lamp is driven at 0. -/
theorem dimLampIsDrivenOncePerDivisor : Obligations.DimLampIsDrivenOncePerDivisor := by
  intro c l b j hj
  refine ⟨getLsbD_lampByte l b hj, fun hon h1 h2 hD => ?_, fun hon h1 h2 hD => ?_⟩
  · exact countP_driven_rounds (counter := Lamps.dimc1) (driven := fun l => (lampByte l b).getLsbD j) hD
      (fun l => by rw [lampAdvance_iterate_eight]) l.dimc1 rfl
      fun n => getLsbD_lampByte_rounds_dim1 c n hj hon h1 h2
  · exact countP_driven_rounds (counter := Lamps.dimc2) (driven := fun l => (lampByte l b).getLsbD j) hD
      (fun l => by rw [lampAdvance_iterate_eight]) l.dimc2 rfl
      fun n => getLsbD_lampByte_rounds_dim2 c n hj hon h1 h2

/-! ## The flash recomputation -/

/-- The recomputation of some lamps: those of them that flash are lit by the time, every other lamp is as it was
(`44_lamp_display.md` R194). -/
theorem flashFold_on (c : Config) (now : Time) (j : Fin 64) : ∀ (ids : List (Fin 64)) (l : Lamps),
    lampGet (ids.foldl (flashOne c now) l).on j =
      if j ∈ ids ∧ l.fp[j] ≠ 0 then flashLit c l.fp[j] now else lampGet l.on j
  | [], _ => by simp
  | i :: ids, l => by
    rw [List.foldl_cons, flashFold_on c now j ids, flashOne_fp, flashOne_on]
    by_cases hji : j = i
    · subst hji
      by_cases hfp : l.fp[j] = 0
      · simp only [hfp, ne_eq, not_true_eq_false, and_false, if_false]
      · simp only [hfp, ne_eq, not_false_eq_true, and_self, and_true, List.mem_cons_self, if_true, ite_self]
    · simp only [hji, false_and, if_false, List.mem_cons, false_or]

/-- Settles O44: the timed ticks leave the lamps, and the recomputation goes over all of them. -/
theorem updateRecomputesFlashingLamps : Obligations.UpdateRecomputesFlashingLamps := by
  intro now s hm
  refine ⟨_, execUpdate_eq now hm, fun i => ?_⟩
  simp only [respond_lamp, timedTickSnd_lamp, timedTickSol_lamp, flashRecompute_lamp, flashFold_on, lampIds,
    List.mem_finRange, true_and, ite_not]
  rfl

/-! ## LAMPSET and LAMPOFF -/

/-- The lamps 0 to 63 pass the range test of LAMPSET (`30_encoding.md` R93). -/
theorem exec_lampset {id : BitVec 8} (dim : BitVec 2) (on : Bool) (period : BitVec 16) {s : State} (hm : s.mode ≠ .uninit)
    (hid : id.toNat ≤ 63) :
    exec (.lampset id dim on period) s =
      .next (answered
        { s with lamp := if on then lampLight s.cfg (lampOf id) dim period s.lamp else lampClear (lampOf id) s.lamp } 0) := by
  have hrange : ¬ s.cfg.nLamps.value ≤ id.toNat := by
    rw [Stated.value_eq]
    omega
  refine (served_of_not _ hm hrange).trans ?_
  cases on <;> rfl

/-- The lamps after LAMPOFF (`44_lamp_display.md` R192). -/
def lampsOff (l : Lamps) : Lamps :=
  { l with
    on := Vector.replicate 8 0, dim1 := Vector.replicate 8 0, dim2 := Vector.replicate 8 0, fp := Vector.replicate 64 0 }

theorem exec_lampoff {s : State} (hm : s.mode ≠ .uninit) :
    exec .lampoff s = .next (answered { s with lamp := lampsOff s.lamp } 0) := served_respond_ok _ hm

/-- The lamp an operand in range names has the operand's number. -/
theorem eq_lampOf_iff {id : BitVec 8} (hid : id.toNat ≤ 63) (j : Fin 64) : j = lampOf id ↔ j.val = id.toNat := by
  rw [Fin.ext_iff, lampOf, Fin.val_ofNat, Nat.mod_eq_of_lt (by omega)]

theorem getElem_set_fin {α : Type} {n : Nat} (v : Vector α n) (i j : Fin n) (x : α) :
    (v.set i x)[j] = if j = i then x else v[j] := by
  simp only [Fin.getElem_fin, Vector.getElem_set, Fin.ext_iff, eq_comm]

/-- The quantised period of a flashing lamp fits its byte in a legal configuration (`44_lamp_display.md` R193, U14). -/
theorem flashQuant_toNat {c : Config} (hl : c.legal = true) (period : BitVec 16) :
    (flashQuant c period).toNat =
      if period = 0 then 0 else max 1 (min period.toNat c.flashMaxMs / c.flashGranMs) := by
  have hquot : min period.toNat c.flashMaxMs / c.flashGranMs ≤ 255 := by
    simp only [Config.legal, Config.flashLegal, Bool.and_eq_true, decide_eq_true_eq] at hl
    exact Nat.div_le_of_le_mul ((Nat.min_le_right _ _).trans (by rw [Nat.mul_comm]; omega))
  unfold flashQuant
  generalize min period.toNat c.flashMaxMs / c.flashGranMs = q at hquot ⊢
  by_cases hp : period = 0
  · rw [if_pos hp, if_pos hp]
    rfl
  · rw [if_neg hp, if_neg hp]
    by_cases hq : q = 0
    · rw [hq]
      rfl
    · rw [if_neg hq, BitVec.toNat_ofNat]
      omega

/-- Turning one lamp off leaves every other lamp (`44_lamp_display.md` R191). -/
theorem lampClear_other {i j : Fin 64} (l : Lamps) (hj : j ≠ i) :
    lampGet (lampClear i l).on j = lampGet l.on j ∧ lampGet (lampClear i l).dim1 j = lampGet l.dim1 j ∧
      lampGet (lampClear i l).dim2 j = lampGet l.dim2 j ∧ (lampClear i l).fp[j] = l.fp[j] := by
  simp only [lampClear, lampGet_lampPut, getElem_set_fin, hj, if_false, and_self]

theorem lampClear_self (i : Fin 64) (l : Lamps) :
    lampGet (lampClear i l).on i = false ∧ lampGet (lampClear i l).dim1 i = false ∧
      lampGet (lampClear i l).dim2 i = false ∧ (lampClear i l).fp[i] = 0 := by
  simp only [lampClear, lampGet_lampPut, getElem_set_fin, if_true, and_self]

/-- The on bit is written only by a period of 0 (`44_lamp_display.md` R191). -/
theorem lampLight_on (c : Config) (i j : Fin 64) (dim : BitVec 2) (period : BitVec 16) (l : Lamps) :
    lampGet (lampLight c i dim period l).on j =
      if j = i then decide (period = 0) || lampGet l.on j else lampGet l.on j := by
  by_cases hp : period = 0
  · simp only [lampLight, hp, if_true, lampGet_lampPut, decide_true, Bool.true_or]
  · simp only [lampLight, hp, if_false, decide_false, Bool.false_or, ite_self]

/-- Turning one lamp on leaves every other lamp (`44_lamp_display.md` R191). -/
theorem lampLight_other (c : Config) {i j : Fin 64} (dim : BitVec 2) (period : BitVec 16) (l : Lamps) (hj : j ≠ i) :
    lampGet (lampLight c i dim period l).on j = lampGet l.on j ∧
      lampGet (lampLight c i dim period l).dim1 j = lampGet l.dim1 j ∧
      lampGet (lampLight c i dim period l).dim2 j = lampGet l.dim2 j ∧ (lampLight c i dim period l).fp[j] = l.fp[j] := by
  rw [lampLight_on]
  simp only [lampLight, lampGet_lampPut, getElem_set_fin, hj, if_false, and_self]

theorem lampLight_self (c : Config) (i : Fin 64) (dim : BitVec 2) (period : BitVec 16) (l : Lamps) :
    lampGet (lampLight c i dim period l).on i = (decide (period = 0) || lampGet l.on i) ∧
      lampGet (lampLight c i dim period l).dim1 i = dim.getLsbD 0 ∧
      lampGet (lampLight c i dim period l).dim2 i = dim.getLsbD 1 ∧
      (lampLight c i dim period l).fp[i] = flashQuant c period := by
  rw [lampLight_on]
  simp only [lampLight, lampGet_lampPut, getElem_set_fin, if_true, and_self]

/-- Settles O46: the lamp is cleared or lit by the operand's on bit, and no other lamp is written. -/
theorem lampsetWritesOneLamp : Obligations.LampsetWritesOneLamp := by
  intro id dim on period s hm hid hl
  refine ⟨_, exec_lampset dim on period hm hid, by cases on <;> rfl, fun j => ?_⟩
  rw [ne_eq, ← eq_lampOf_iff hid j]
  cases on with
  | false => exact ⟨lampClear_other s.lamp, fun hj _ => hj ▸ lampClear_self j s.lamp, fun _ hon => Bool.noConfusion hon⟩
  | true =>
    refine ⟨lampLight_other s.cfg dim period s.lamp, fun _ hon => Bool.noConfusion hon, fun hj _ => ?_⟩
    obtain ⟨hon, hdim1, hdim2, hfp⟩ := lampLight_self s.cfg j dim period s.lamp
    rw [if_pos rfl, ← hj, hfp]
    exact ⟨hon, hdim1, hdim2, flashQuant_toNat hl period⟩

theorem lampGet_replicate_zero (j : Fin 64) : lampGet (Vector.replicate 8 0) j = false := by
  simp only [lampGet, Fin.getElem_fin, Vector.getElem_replicate]
  exact BitVec.getLsbD_zero

theorem lampsOff_dark (l : Lamps) (j : Fin 64) :
    lampGet (lampsOff l).on j = false ∧ lampGet (lampsOff l).dim1 j = false ∧ lampGet (lampsOff l).dim2 j = false ∧
      (lampsOff l).fp[j] = 0 :=
  ⟨lampGet_replicate_zero j, lampGet_replicate_zero j, lampGet_replicate_zero j, Vector.getElem_replicate j.isLt⟩

/-- A steady lamp lit among dark ones is the one that is on. -/
theorem lampLight_on_of_dark (c : Config) (i : Fin 64) (dim : BitVec 2) {l : Lamps}
    (hdark : ∀ j, lampGet l.on j = false) (j : Fin 64) :
    lampGet (lampLight c i dim 0 l).on j = decide (j = i) := by
  rw [lampLight_on, hdark]
  by_cases hj : j = i
  · simp only [hj, if_true, decide_true, Bool.true_or]
  · simp only [hj, if_false, decide_false]

theorem setBit_setBit {w : Nat} (x : BitVec w) (i : Nat) (v : Bool) : setBit (setBit x i v) i v = setBit x i v := by
  apply BitVec.eq_of_getLsbD_eq
  intro j hj
  simp only [getLsbD_setBit _ _ hj]
  split <;> rfl

theorem lampPut_lampPut (v : Vector Byte 8) (i : Fin 64) (b : Bool) : lampPut (lampPut v i b) i b = lampPut v i b := by
  simp [lampPut, setBit_setBit]

/-- Turning a lamp off a second time changes nothing (`44_lamp_display.md` R191). -/
theorem lampClear_lampClear (i : Fin 64) (l : Lamps) : lampClear i (lampClear i l) = lampClear i l := by
  simp [lampClear, lampPut_lampPut]

/-- Settles O47: LAMPOFF writes constant arrays, and LAMPSET off is a clear that is idempotent. -/
theorem lampoffThenOneLampset : Obligations.LampoffThenOneLampset := by
  intro s hm
  refine ⟨⟨lampsOff s.lamp, exec_lampoff hm, rfl, lampsOff_dark s.lamp,
    fun id dim hid => ⟨_, exec_lampset dim true 0 hm hid, fun j => ?_⟩⟩,
    fun id dim period dim' period' a b hid ha hb => ?_⟩
  · rw [← decide_eq_decide.2 (eq_lampOf_iff hid j)]
    exact lampLight_on_of_dark s.cfg (lampOf id) dim (fun j => (lampsOff_dark s.lamp j).1) j
  · rw [exec_lampset dim false period hm hid] at ha
    cases ha
    rw [exec_lampset dim' false period' (by exact hm) hid] at hb
    cases hb
    simp [answered, lampClear_lampClear]

/-! ## The display fields -/

/-- The fields 0 to 5 pass the range test of the display commands (`30_encoding.md` R93). -/
theorem not_nFields_le (c : Config) (f : Fin 6) : ¬ c.nFields ≤ (BitVec.ofNat 8 f.val).toNat := by
  rw [Config.nFields_eq, BitVec.toNat_ofNat]
  omega

theorem exec_dispval (f : Fin 6) (min' : BitVec 8) (blz : Bool) (value : BitVec 32) {s : State} (hm : s.mode ≠ .uninit) :
    exec (.dispval (BitVec.ofNat 8 f.val) min' blz value) s =
      .next (answered
        { s with
          disp :=
            { s.disp with
              digit := s.disp.digit.set f (digitCodes value.toNat (s.cfg.fieldWidth f.val))
              blank := s.disp.blank.set f (blankMask value.toNat (s.cfg.fieldWidth f.val) blz min'.toNat) } } 0) := by
  refine (served_of_not _ hm (not_nFields_le s.cfg f)).trans ?_
  simp only [fieldOf_ofNat]
  rfl

theorem exec_dispblank (f : Fin 6) (mask : BitVec 8) {s : State} (hm : s.mode ≠ .uninit) :
    exec (.dispblank (BitVec.ofNat 8 f.val) mask) s =
      .next (answered
        { s with
          disp :=
            { s.disp with blank := s.disp.blank.set f (mask &&& BitVec.ofNat 8 (2 ^ s.cfg.fieldWidth f.val - 1)) } } 0) := by
  refine (served_of_not _ hm (not_nFields_le s.cfg f)).trans ?_
  simp only [fieldOf_ofNat]
  rfl

theorem exec_dispgetb (f : Fin 6) {s : State} (hm : s.mode ≠ .uninit) :
    exec (.dispgetb (BitVec.ofNat 8 f.val)) s = .next (answered s ((s.disp.blank[f]).setWidth 32)) := by
  refine (served_of_not _ hm (not_nFields_le s.cfg f)).trans ?_
  simp only [fieldOf_ofNat]
  rw [respond_eq_answered, responseWord_ok, BitVec.setWidth_setWidth (by decide)]

/-- U15 keeps every field within its mask's eight bits. -/
theorem fieldWidth_le_eight {c : Config} (hl : c.legal = true) (f : Nat) : c.fieldWidth f ≤ 8 := by
  simp only [Config.legal, Config.digitsLegal, Bool.and_eq_true, decide_eq_true_eq] at hl
  rw [Config.fieldWidth_eq]
  split <;> omega

/-- The digit codes, read as a decimal numeral, are the value without the digits that do not fit (`44_lamp_display.md` R203). -/
theorem digitCodes_foldl (W : Nat) : ∀ value : Nat,
    (digitCodes value W).foldl (fun n d => 10 * n + d.toNat) 0 = value % 10 ^ W := by
  induction W with
  | zero => exact fun value => (Nat.mod_one value).symm
  | succ W ih =>
    intro value
    rw [digitCodes_succ, List.foldl_append, ih, List.foldl_cons, List.foldl_nil, BitVec.toNat_ofNat, pow_succ' 10 W,
      Nat.mod_mul (a := 10)]
    omega

theorem countP_range_lt (m W : Nat) : (List.range W).countP (fun k => decide (k < m)) = min m W := by
  induction W with
  | zero => exact (Nat.min_zero m).symm
  | succ W ih =>
    rw [List.range_succ, List.countP_append, ih, List.countP_singleton]
    simp only [decide_eq_true_eq]
    split <;> omega

/-- `sig` counts the decimal digits of the value that fit (`44_lamp_display.md` R204). -/
theorem sigDigits_eq (value W : Nat) : sigDigits value W = min (Nat.digits 10 value).length W := by
  simp only [sigDigits, ← Nat.lt_digits_length_iff (by decide : 1 < 10), countP_range_lt]

/-- Settles O48: the digits by induction on the width, the mask by its number of active positions. -/
theorem dispvalShowsTheDecimalDigits : Obligations.DispvalShowsTheDecimalDigits := by
  intro f min' blz value s hm hl
  refine ⟨_, _, exec_dispval f min' blz value hm, digitCodes_length _ _, digitCodes_le_nine,
    digitCodes_foldl _ _, fun p => ?_⟩
  rw [blankMask, getLsbD_rightMask (fieldWidth_le_eight hl f.val) (activeDigits_le _ _ _ _), activeDigits, sigDigits_eq]

/-- Masking with the width of a field keeps the bits below it (`44_lamp_display.md` R205). -/
theorem getLsbD_fieldMask (mask : Byte) (W p : Nat) :
    (mask &&& BitVec.ofNat 8 (2 ^ W - 1)).getLsbD p = (mask.getLsbD p && decide (p < W)) := by
  rw [BitVec.getLsbD_and, BitVec.getLsbD_ofNat, Nat.testBit_two_pow_sub_one]
  by_cases hp : p < 8
  · simp [hp]
  · simp [BitVec.getLsbD_of_ge mask p (Nat.le_of_not_lt hp)]

/-- Settles O49: the mask written is the operand's bits below the width, and the mask is the data answered. -/
theorem dispblankWritesAndDispgetbReadsTheMask : Obligations.DispblankWritesAndDispgetbReadsTheMask :=
  fun f mask _ hm _ => ⟨⟨_, exec_dispblank f mask hm, getLsbD_fieldMask mask _⟩, exec_dispgetb f hm⟩

end Sys2Proof.Machine

/-! PROOFS. The tick latch and the arbiter (`45_interrupt_scheduler.md` R220, `60_exceptions.md` R246, R247). -/

namespace Sys2Proof.Machine

/-- Settles O8: the latch is one bit, so all pulses after the first are lost; and outside RUN every one is. -/
theorem tickLatchIsOneDeep : Obligations.TickLatchIsOneDeep := by
  intro n s
  by_cases hm : s.mode = .run
  · rw [tickPulses_of_run n hm]
    cases n with
    | zero => simp [State.withSch]
    | succ n => simp [hm, State.withSch]
  · rw [tickPulses_of_ne n hm, if_neg fun h => hm h.1]

/-- In RUN a pulse that comes in before the choice is pending when the arbiter chooses. -/
theorem beginStep_of_run {s : State} (hm : s.mode = .run) :
    beginStep s =
      (s.withPort { s.port with rspValid := false }).withSch
        { s.sch with tickPend := s.sch.tickPend || decide (0 < (tickSample s).before) } :=
  tickPulses_of_run _ hm

/-- A pending tick goes before a waiting command (`60_exceptions.md` R247). -/
theorem arbitrate_of_pending {s : State} (hm : s.mode = .run) (ht : s.sch.tickPend = true) : arbitrate s = .tick := by
  simp [arbitrate, tickReady, hm, ht]

/-- A step in RUN with a tick pending, or arriving first, is a handler invocation with the tick taken. -/
theorem step_of_tick {s : State} (hl : s.cfg.legal = true) (hm : s.mode = .run)
    (ht : s.sch.tickPend = true ∨ 0 < (tickSample s).before) :
    step s = chain (tickHandler
        { s with sch := { s.sch with tickPend := false }, port := { s.port with rspValid := false } })
      fun t => .next (endStep .run (tickSample s).during t) := by
  have hpend : (beginStep s).sch.tickPend = true := by simpa [beginStep_of_run hm] using ht
  have hrun : (beginStep s).mode = .run := by simpa [beginStep_of_run hm] using hm
  have htaken : takeTick (beginStep s) =
      { s with sch := { s.sch with tickPend := false }, port := { s.port with rspValid := false } } := by
    rw [beginStep_of_run hm]
    rfl
  rw [step, if_pos hl, arbitrate_of_pending hrun hpend, perform, htaken, hm]

theorem endStep_port (began : Mode) (n : Nat) (s : State) : (endStep began n s).port = s.port := by
  obtain ⟨b, hb⟩ := endStep_keeps began n s
  rw [hb]
  rfl

/-- Settles O7: the arbiter chooses the handler, and a handler invocation does not touch the port. -/
theorem pendingTickRunsBeforeWaitingCommand : Obligations.PendingTickRunsBeforeWaitingCommand := by
  intro s hl hm ht
  refine ⟨step_of_tick hl hm ht, fun t h => ?_⟩
  rw [step_of_tick hl hm ht, chain_eq_next] at h
  obtain ⟨u, hu, h⟩ := h
  cases h
  rw [endStep_port, (tickHandler_handlerWrites hu).port]

end Sys2Proof.Machine

/-! PROOFS. The input phase: its 22 bus cycles, what they read, and what it writes (`45_interrupt_scheduler.md` R222,
`42_switch_matrix.md` R142 to R147, `44_lamp_display.md` R199, R200, R208, R209). -/

namespace Sys2Proof.Machine

/-! ## The cycles -/

/-- The cycles of an input phase before its scan pass: the read of the status byte `v`, the three writes of the display slot, the
two of the lamp bank. -/
def eventsBeforeScan (v : Byte) (s : State) : List BusEvent :=
  [.read s.cfg.addrMap.aDiagStatus v,
    .write s.cfg.addrMap.aDispStrobe (BitVec.ofNat 8 (s.disp.slot + 1).val),
    .write s.cfg.addrMap.aDispDataA
      (nibble s.cfg s.disp (s.disp.slot + 1).val 1 ++ nibble s.cfg s.disp (s.disp.slot + 1).val 0),
    .write s.cfg.addrMap.aDispDataB
      (nibble s.cfg s.disp (s.disp.slot + 1).val 3 ++ nibble s.cfg s.disp (s.disp.slot + 1).val 2),
    .write s.cfg.addrMap.aLampStrobe (1#8 <<< (lampAdvance s.cfg s.lamp).bank.val),
    .write s.cfg.addrMap.aLampData (lampByte (lampAdvance s.cfg s.lamp) (lampAdvance s.cfg s.lamp).bank)]

/-- The cycles of an input phase from `s` that reads the status byte `v` and the column samples `w`. -/
def inputEvents (v : Byte) (w : Fin 8 → Byte) (s : State) : List BusEvent :=
  eventsBeforeScan v s ++ scanEvents s.cfg w (List.finRange 8)

/-- The bound of R227 on an input phase. -/
theorem inputEvents_length (v : Byte) (w : Fin 8 → Byte) (s : State) : (inputEvents v w s).length = 22 := by
  simp [inputEvents, eventsBeforeScan, scanEvents]

theorem inputEvents_take (v : Byte) (w : Fin 8 → Byte) (s : State) (n : Nat) :
    (inputEvents v w s).take (n + 6) = eventsBeforeScan v s ++ (scanEvents s.cfg w (List.finRange 8)).take n := by
  rw [inputEvents, Nat.add_comm]
  exact List.take_length_add_append (l₁ := eventsBeforeScan v s) n

theorem diagSample_cfg (v : Byte) (s : State) : (diagSample v s).cfg = s.cfg := by rw [diagSample_frame]; rfl

theorem diagSample_disp (v : Byte) (s : State) : (diagSample v s).disp = s.disp := by rw [diagSample_frame]; rfl

theorem diagSample_lamp (v : Byte) (s : State) : (diagSample v s).lamp = s.lamp := by rw [diagSample_frame]; rfl

theorem inputPhase_ends {s : State} (hr : s.bus.clk.running = true) : ∃ t, inputPhase s = .next t := by
  refine chain_ends (diagStep_ends hr) fun s1 h1 => ?_
  obtain ⟨e1, rfl, p1, -⟩ := diagStep_next h1
  have r1 : (diagSample e1.rdata (s.withBus e1)).bus.clk.running = true := by
    rw [diagSample_bus]
    exact p1.running.trans hr
  refine chain_ends (displayStep_ends r1) fun s2 h2 => ?_
  obtain ⟨e2, rfl, p2, -⟩ := displayStep_next h2
  refine chain_ends (lampStep_ends (p2.running.trans r1)) fun s3 h3 => ?_
  obtain ⟨e3, rfl, p3, -⟩ := lampStep_next h3
  exact switchScan_ends (p3.running.trans (p2.running.trans r1))

/-- Everything an input phase has done when it ends: what it stored, its cycles, and the bytes it took from the environment, the
status byte first and then a byte for each column. -/
theorem inputPhase_cycles {s t : State} (h : inputPhase s = .next t) :
    ∃ v w e, t = (afterInput v w s).withBus e ∧ Performed (inputEvents v w s) s.bus e ∧
      v = s.bus.answers.headD (Config.oracle s.bus.hist s.cfg.addrMap.aDiagStatus) ∧
      (∀ c : Fin 8, w c = (s.bus.answers.drop (c.val + 1)).headD
        (Config.oracle (s.bus.hist ++ (inputEvents v w s).take (2 * c.val + 7)) s.cfg.addrMap.aSwReturn)) ∧
      e.answers = s.bus.answers.drop 9 := by
  simp only [inputPhase, chain_eq_next] at h
  obtain ⟨s1, h1, s2, h2, s3, h3, h4⟩ := h
  obtain ⟨e1, rfl, diag, hstatus, hans1⟩ := diagStep_next h1
  obtain ⟨e2, rfl, display, hans2⟩ := displayStep_next h2
  obtain ⟨e3, rfl, lamp, hans3⟩ := lampStep_next h3
  obtain ⟨w, e4, rfl, scan, hcolumns, hans4⟩ := switchScan_next h4
  simp only [diagSample_bus, diagSample_cfg, diagSample_disp, diagSample_lamp, State.withBus_bus, State.withBus_cfg,
    State.withBus_disp, State.withBus_lamp, State.withDisp_cfg, State.withDisp_lamp, State.withLamp_cfg]
    at display lamp scan hans2 hans3 hans4 hcolumns
  have done : Performed (inputEvents e1.rdata w s) s.bus e4 := ((diag.trans display).trans lamp).trans scan
  have hans : e3.answers = s.bus.answers.tail := hans3.trans (hans2.trans hans1)
  have hhist : e3.hist = s.bus.hist ++ eventsBeforeScan e1.rdata s := ((diag.trans display).trans lamp).hist
  refine ⟨e1.rdata, w, e4, ?stored, done, hstatus, fun c => ?column, ?answers⟩
  case stored =>
    simp only [afterInput, switchesAfterInput, enqueueClosures, diagSample_eq]
    rfl
  case column => rw [hcolumns c, hans, hhist, List.drop_tail, List.append_assoc, ← inputEvents_take]
  case answers => rw [hans4, hans, List.drop_tail]

/-! ## The switches -/

/-- The diagnostic sample leaves the samples of the matrix. -/
theorem diagSample_history (v : Byte) (s : State) :
    (diagSample v s).sw.now = s.sw.now ∧ (diagSample v s).sw.prev = s.sw.prev := by
  rw [diagSample_frame]
  exact ⟨rfl, rfl⟩

theorem switchesAfterInput_get (v : Byte) (w : Fin 8 → Byte) (s : State) (c : Fin 8) :
    (switchesAfterInput v w s).now[c] = w c ∧ (switchesAfterInput v w s).prev[c] = s.sw.now[c] ∧
      (switchesAfterInput v w s).ago[c] = s.sw.prev[c] := by
  have h := shiftColumns_all_get w (diagSample v s).sw c
  obtain ⟨hnow, hprev⟩ := diagSample_history v s
  rwa [hnow, hprev] at h

/-- The closures of a pass that samples `v`, read off the history before it: closed now, closed one pass before, not closed two
passes before (`42_switch_matrix.md` R144). -/
theorem closures_shiftColumns (cfg : Config) (v : Fin 8 → Byte) (w : Switches) :
    closures cfg (shiftColumns v (List.finRange 8) w) =
      (List.finRange 8).flatMap fun c =>
        ((List.range 8).filter fun r => (v c).getLsbD r && w.now[c].getLsbD r && !w.prev[c].getLsbD r).map
          fun r => BitVec.ofNat 7 (c.val * 8 + r) := by
  rw [closures, columns_eq, rows_eq]
  refine List.flatMap_congr fun c _ => ?_
  obtain ⟨hnow, hprev, hago⟩ := shiftColumns_all_get v w c
  have hbits : ∀ r ∈ List.range 8, (closureByte (shiftColumns v (List.finRange 8) w) c).getLsbD r =
      ((v c).getLsbD r && w.now[c].getLsbD r && !w.prev[c].getLsbD r) := by
    intro r hr
    simp [closureByte, hnow, hprev, hago, List.mem_range.1 hr]
  rw [List.filter_congr hbits]
  rfl

/-! ## The code of a lane -/

/-- A lane that SLOT_TABLE leaves empty shows the blank code (`44_lamp_display.md` R209). -/
theorem nibble_of_empty {c : Config} {slot lane : Nat} {row : List (Option (Nat × Nat))} (d : Displays)
    (hrow : c.slotTable[slot]? = some row) (hlane : row[lane]? = some none) : nibble c d slot lane = 0xF := by
  simp [nibble, List.getD_eq_getElem?_getD, hrow, hlane]

/-- A lane with a position shows its digit code where the mask bit is 1, else the blank code (`44_lamp_display.md` R209). -/
theorem nibble_of_position {c : Config} {d : Displays} {slot lane p : Nat} {row : List (Option (Nat × Nat))} {f : Fin 6}
    {v : Byte} (hrow : c.slotTable[slot]? = some row) (hlane : row[lane]? = some (some (f.val, p)))
    (hdigit : d.digit[f][p]? = some v) :
    nibble c d slot lane = if d.blank[f].getLsbD p then v.extractLsb' 0 4 else 0xF := by
  have hfield : d.digit.getD f.val [] = d.digit[f] := by simp [Vector.getD]
  have hmask : d.blank.getD f.val 0 = d.blank[f] := by simp [Vector.getD]
  simp only [nibble, List.getD_eq_getElem?_getD, hrow, hlane, Option.getD_some, hfield, hmask, hdigit]

/-! ## The obligation -/

/-- Settles O51: the cycles and the bytes read are `inputPhase_cycles`, the switches those of the diagnostic sample and then of the
scan pass. -/
theorem inputPhaseIssuesItsTwentyTwoCycles : Obligations.InputPhaseIssuesItsTwentyTwoCycles := by
  refine ⟨fun s hr => ?_, fun c d slot lane row hrow =>
    ⟨nibble_of_empty d hrow, fun f p v => nibble_of_position hrow⟩⟩
  obtain ⟨t, ht⟩ := inputPhase_ends hr
  obtain ⟨v, w, e, rfl, done, hstatus, hcolumns, hans⟩ := inputPhase_cycles ht
  have hsample := diagSample_eq v s
  refine ⟨_, v, w, inputEvents v w s, (diagSample v s).sw.q, ht, rfl, rfl, rfl, lampAdvance_eq s.cfg s.lamp,
    switchesAfterInput_get v w s, ?hold, ?diag, ?queue, rfl, done, hstatus, hcolumns, hans⟩
  case hold => exact (switchesAfterInput_diagHold v w s).trans (by rw [hsample]; rfl)
  case diag => rw [hsample]; rfl
  case queue =>
    obtain ⟨hnow, hprev⟩ := diagSample_history v s
    refine (switchesAfterInput_q v w s).trans ?_
    rw [closures_shiftColumns, hnow, hprev]

end Sys2Proof.Machine

/-! PROOFS. The output phase, the continuous mask in its word, and the handler's bounds (`45_interrupt_scheduler.md` R221, R223 to
R229). -/

namespace Sys2Proof.Machine

/-! ## The output phase samples nothing -/

theorem busWrite_keeps_reads {a : Addr} {v : Byte} {s t : State} (h : busWrite a v s = .next t) :
    t.bus.answers = s.bus.answers ∧ t.bus.rdata = s.bus.rdata := by
  obtain ⟨e, rfl, done⟩ := busWrite_next h
  exact ⟨done.answers, done.rdata⟩

theorem writeSolenoidPair_keeps_reads {out : BitVec 16} {s t : State} (h : writeSolenoidPair out s = .next t) :
    t.bus.answers = s.bus.answers ∧ t.bus.rdata = s.bus.rdata := by
  rw [writeSolenoidPair, chain_eq_next] at h
  obtain ⟨u, hlow, hhigh⟩ := h
  obtain ⟨hans, hdata⟩ := busWrite_keeps_reads hlow
  obtain ⟨hans', hdata'⟩ := busWrite_keeps_reads hhigh
  exact ⟨hans'.trans hans, hdata'.trans hdata⟩

theorem outputPhase_keeps_reads {s t : State} (h : outputPhase s = .next t) :
    t.bus.answers = s.bus.answers ∧ t.bus.rdata = s.bus.rdata := by
  simp only [outputPhase, chain_eq_next] at h
  obtain ⟨s1, henter, s2, hpair, s3, hexit, h⟩ := h
  cases h
  obtain ⟨hans1, hdata1⟩ := writeAll_keeps_reads henter
  obtain ⟨hans2, hdata2⟩ := writeSolenoidPair_keeps_reads hpair
  obtain ⟨hans3, hdata3⟩ := writeAll_keeps_reads hexit
  exact ⟨hans3.trans (hans2.trans hans1), hdata3.trans (hdata2.trans hdata1)⟩

/-! ## The output word -/

/-- The bit of the slot at the head of the queue, if it is driven (`45_interrupt_scheduler.md` R223 step 5, R225). -/
theorem solenoidWord_head (c : Config) (en : Bool) (q : List SolId) :
    solenoidWord c en q.head? =
      match q with
      | [] => 0
      | e :: _ => if en = true ∨ c.disableSuppressesOutput = false then BitVec.ofNat 16 (2 ^ e.toNat) else 0 := by
  cases q with
  | nil => rfl
  | cons e q =>
    have hbit : 1#16 <<< e.toNat = BitVec.ofNat 16 (2 ^ e.toNat) := by
      apply BitVec.eq_of_toNat_eq
      simp [Nat.shiftLeft_eq]
    simp [solenoidWord, hbit]

theorem soundPart_head (c : Config) (q : List SoundCode) :
    soundPart c q.head? =
      match q with
      | [] => 0
      | code :: _ => soundWord c code := by
  cases q <;> rfl

/-- A code the configuration does not list (`45_interrupt_scheduler.md` R226). -/
theorem soundWord_of_unlisted {c : Config} {code : SoundCode} (h : ∀ x ∈ c.soundBits, x.1 ≠ code) :
    soundWord c code = code.setWidth 16 <<< 8 := by
  have hnone : c.soundBits.find? (fun x => x.1 == code) = none := by simpa using h
  rw [soundWord, hnone]

/-- A code the configuration lists: its first entry counts (`45_interrupt_scheduler.md` R226). -/
theorem soundWord_of_listed {c : Config} {code : SoundCode} {pre post : List (SoundCode × BitVec 16)} {w : BitVec 16}
    (hlist : c.soundBits = pre ++ (code, w) :: post) (hpre : ∀ x ∈ pre, x.1 ≠ code) : soundWord c code = w := by
  have hnone : pre.find? (fun x => x.1 == code) = none := by simpa using hpre
  have hfound : c.soundBits.find? (fun x => x.1 == code) = some (code, w) := by
    simp [hlist, List.find?_append, hnone]
  rw [soundWord, hfound]

theorem isSome_head?_eq_not_isEmpty {α : Type} (q : List α) : q.head?.isSome = !q.isEmpty := by cases q <;> rfl

/-- Settles O52: one slot of each queue is pulled, and the word is what `outputWord` makes of the two. -/
theorem outputPhaseWritesTheOutputWord : Obligations.OutputPhaseWritesTheOutputWord := by
  refine ⟨fun s hr => ?_, fun c code => ⟨soundWord_of_unlisted, fun pre w post => soundWord_of_listed⟩⟩
  obtain ⟨t, ht⟩ := outputPhase_ends hr
  obtain ⟨e, rfl, done⟩ := outputPhase_next ht
  have hreads := outputPhase_keeps_reads ht
  rw [outputWord, solenoidWord_head, soundPart_head] at done
  rw [isSome_head?_eq_not_isEmpty] at ht done
  exact ⟨e, ht, done, hreads⟩

/-! ## The continuous mask -/

theorem toNat_solenoidOf {id : BitVec 8} (hid : id.toNat ≤ 15) : (solenoidOf id).toNat = id.toNat := by
  rw [solenoidOf_eq_ofNat, BitVec.toNat_ofNat, Nat.mod_eq_of_lt (by omega)]

/-- A clear bit set and cleared again leaves the register as it was. -/
theorem setBit_false_setBit_true {w : Nat} {x : BitVec w} {i : Nat} (h : x.getLsbD i = false) :
    setBit (setBit x i true) i false = x := by
  apply BitVec.eq_of_getLsbD_eq
  intro j hj
  rw [getLsbD_setBit _ false hj, getLsbD_setBit _ true hj]
  by_cases hji : j = i
  · rw [if_pos hji, hji, h]
  · rw [if_neg hji, if_neg hji]

/-- The two bytes written are the word. -/
theorem high_append_low (out : BitVec 16) : (out.extractLsb' 8 8 ++ out.extractLsb' 0 8 : BitVec 16) = out :=
  (BitVec.extractLsb'_append_extractLsb'_eq_extractLsb' (start₁ := 0) (len₁ := 8) rfl).trans BitVec.extractLsb'_eq_self

/-- No slot and no sound code clears a bit of the continuous mask (`45_interrupt_scheduler.md` R229). -/
theorem outputWord_and_cont (s : State) (e : Option SolId) (c : Option SoundCode) :
    outputWord s e c &&& s.sol.cont = s.sol.cont := by
  apply BitVec.eq_of_getLsbD_eq
  intro j _
  simp only [outputWord, BitVec.getLsbD_and, BitVec.getLsbD_or]
  cases s.sol.cont.getLsbD j <;> simp

/-- With no slot and no sound pulled the word is the continuous mask (`45_interrupt_scheduler.md` R229). -/
theorem outputWord_none (s : State) : outputWord s none none = s.sol.cont := by
  simp [outputWord, solenoidWord, soundPart]

/-- Settles O57: the mask is restored bit by bit, and it is a part of every output word. -/
theorem continuousMaskIsAlwaysDriven : Obligations.ContinuousMaskIsAlwaysDriven := by
  constructor
  · intro id s a b hm hid hclear ha hb
    rw [exec_solcont true hm hid, toNat_solenoidOf hid] at ha
    cases ha
    rw [exec_solcont false (by exact hm) hid, toNat_solenoidOf hid] at hb
    cases hb
    exact setBit_false_setBit_true hclear
  · intro s hr
    obtain ⟨t, ht⟩ := outputPhase_ends hr
    obtain ⟨e, rfl, done⟩ := outputPhase_next ht
    refine ⟨_, _, _, _, _, ht, by simpa only [List.append_assoc] using done.hist, ?contains, ?alone⟩
    all_goals rw [high_append_low]
    case contains => exact outputWord_and_cont s _ _
    case alone =>
      intro hsol hsnd
      rw [hsol, hsnd]
      exact outputWord_none s

/-! ## The handler -/

theorem tickHandler_of_input {s : State} (h : s.sch.phase = false) :
    tickHandler s = chain (inputPhase s) fun t => .next (returnFromTick t) := by
  rw [tickHandler, if_neg (by simp [h])]

theorem tickHandler_of_output {s : State} (h : s.sch.phase = true) :
    tickHandler s = chain (outputPhase s) fun t => .next (returnFromTick t) := by
  rw [tickHandler, if_pos h]

theorem tickHandler_ends {s : State} (hr : s.bus.clk.running = true) : ∃ t, tickHandler s = .next t := by
  refine chain_ends ?_ fun _ _ => ⟨_, rfl⟩
  split
  · exact outputPhase_ends hr
  · exact inputPhase_ends hr

theorem Performed.hist_length {evs : List BusEvent} {e e' : BusEngine} (h : Performed evs e e') :
    e'.hist.length = e.hist.length + evs.length := by
  rw [h.hist, List.length_append]

/-- The bound of R227 on an input phase of the handler. -/
theorem tickHandler_input_hist_length {s t : State} (hp : s.sch.phase = false) (h : tickHandler s = .next t) :
    t.bus.hist.length = s.bus.hist.length + 22 := by
  rw [tickHandler_of_input hp, chain_eq_next] at h
  obtain ⟨u, hu, h⟩ := h
  cases h
  obtain ⟨v, w, e, rfl, done, -⟩ := inputPhase_cycles hu
  exact done.hist_length.trans (by rw [inputEvents_length])

/-- The bound of R227 on an output phase of the handler: the pair of writes, and the sequences that run. -/
theorem tickHandler_output_hist_length {s t : State} (hp : s.sch.phase = true) (h : tickHandler s = .next t) :
    t.bus.hist.length = s.bus.hist.length + 2 +
      (if s.sol.q ≠ [] ∧ s.sol.firing = false then s.cfg.interlockEnterSeq.length else 0) +
      (if s.sol.q = [] ∧ s.sol.firing = true then s.cfg.interlockExitSeq.length else 0) := by
  rw [tickHandler_of_output hp, chain_eq_next] at h
  obtain ⟨u, hu, h⟩ := h
  cases h
  obtain ⟨e, rfl, done⟩ := outputPhase_next hu
  refine done.hist_length.trans ?_
  rw [isSome_head?_eq_not_isEmpty]
  by_cases hq : s.sol.q = []
  · cases s.sol.firing <;> simp [hq, writesOf]
    omega
  · cases s.sol.firing <;> simp [hq, writesOf]
    omega

/-- Settles O53: the phase named is the one that runs, and its cycles are counted by its events. -/
theorem handlerAlternatesPhasesInBoundedWork : Obligations.HandlerAlternatesPhasesInBoundedWork := by
  refine ⟨fun s => ⟨tickHandler_of_input, tickHandler_of_output⟩, fun s hr => ?_⟩
  obtain ⟨t, ht⟩ := tickHandler_ends hr
  obtain ⟨evs, done⟩ := tickHandler_performed ht
  have hphase : t.sch.phase = !s.sch.phase := by rw [(tickHandler_handlerWrites ht).sch]
  refine ⟨t, ht, hphase, done.running.trans hr, fun hp => tickHandler_input_hist_length hp ht, ?begins, ?ends, ?steady⟩
  case begins =>
    intro hp hq hf
    simp [tickHandler_output_hist_length hp ht, hq, hf]
  case ends =>
    intro hp hq hf
    simp [tickHandler_output_hist_length hp ht, hq, hf]
  case steady =>
    intro hp hsame
    rw [tickHandler_output_hist_length hp ht]
    by_cases hq : s.sol.q = []
    · simp [hq, hsame.1 hq]
    · simp [hq, mt hsame.2 hq]

end Sys2Proof.Machine

/-! PROOFS. A refused command changes nothing, and a running clock stops nothing (`60_exceptions.md` R242, R249, R258,
`40_bus_engine.md` R114). -/

namespace Sys2Proof.Machine

/-! ## Refused commands -/

/-- Settles O12: of the three ends of a command those with OK and with HALTED are excluded, and a refusal is the response alone. -/
theorem refusalsChangeNothing : Obligations.RefusalsChangeNothing := by
  intro i s t h hok hhalted
  obtain ⟨d, u, rfl, -⟩ | ⟨st, rfl⟩ | ⟨u, rfl, -⟩ := exec_endsAnswered i s t h
  · exact absurd (rspStatus_respond .ok d u) hok
  · exact respond_eq_answered st 0 s
  · exact absurd (rspStatus_respond .halted 0 u) hhalted

/-! ## Every command ends while the clock runs -/

theorem served_ends {s : State} {r : Result} (h : ∃ t, r = .next t) : ∃ t, served s r = .next t := by
  by_cases hm : s.mode = .uninit
  · exact ⟨_, served_of_uninit r hm⟩
  · rwa [served_of_ne r hm]

/-- A test that refuses when it fails ends, where what stands behind it does. -/
theorem tested_ends {c : Prop} [Decidable c] {s : State} {st : Status} {r : Result} (h : ∃ t, r = .next t) :
    ∃ t, (if c then refuse st s else r) = .next t := by
  split
  · exact ⟨_, rfl⟩
  · exact h

theorem execInit_ends (credit : BitVec 8) {s : State} (hr : s.bus.clk.running = true) :
    ∃ t, execInit credit s = .next t := by
  by_cases hm : s.mode = .uninit
  · cases hb : s.inp.bootOrigReq with
    | true => exact ⟨_, execInit_passthrough credit hm hb⟩
    | false =>
      obtain ⟨u, -, hexec⟩ := execInit_configure_completes credit hm hb hr
      exact ⟨_, hexec⟩
  · exact ⟨_, execInit_refused credit hm⟩

/-- Only bus cycles wait for the clock: the three commands that run some end because it runs, and every other command ends in a
response on each of its branches (`20_memory.md` R73). -/
theorem exec_ends (i : Instr) {s : State} (hr : s.bus.clk.running = true) : ∃ t, exec i s = .next t := by
  cases i with
  | init credit => exact execInit_ends credit hr
  | buswr addr data => exact served_ends (chain_ends (busWrite_ends addr data hr) fun _ _ => ⟨_, rfl⟩)
  | busrd addr => exact served_ends (chain_ends (busRead_ends addr hr) fun _ _ => ⟨_, rfl⟩)
  | solspace | sndspace | solen | soldis | lampoff | update => exact served_ends ⟨_, rfl⟩
  | swpeek | swisq | solcont | dispval | dispblank | dispgetb => exact served_ends (tested_ends ⟨_, rfl⟩)
  | swpull | sndpush | sndsched => exact served_ends (by split <;> exact ⟨_, rfl⟩)
  | solsched | lampset => exact served_ends (tested_ends (by split <;> exact ⟨_, rfl⟩))
  | solpush | solpushf => exact served_ends (tested_ends (tested_ends (by split <;> exact ⟨_, rfl⟩)))
  | diagq | diagclr | flipdis | sndrange | lampflashall | dispcycle => exact ⟨_, answerReserved_eq s⟩

theorem perform_ends (c : Choice) {s : State} (hr : s.bus.clk.running = true) : ∃ t, perform c s = .next t := by
  cases c with
  | tick => exact tickHandler_ends (s := takeTick s) hr
  | idle => exact ⟨s, rfl⟩
  | command w =>
    unfold perform runCommand
    dsimp only
    split
    · exact exec_ends _ (s := acceptCommand s) hr
    · exact ⟨_, answerReserved_eq _⟩

/-! ## The clock goes on running -/

theorem execInit_running {credit : BitVec 8} {s t : State} (h : execInit credit s = .next t) :
    t.bus.clk.running = s.bus.clk.running := by
  by_cases hm : s.mode = .uninit
  · cases hb : s.inp.bootOrigReq with
    | true =>
      cases (execInit_passthrough credit hm hb).symm.trans h
      rfl
    | false => exact (execInit_configure_next hm hb h).running
  · cases (execInit_refused credit hm).symm.trans h
    rfl

theorem perform_running {c : Choice} {s t : State} (h : perform c s = .next t) :
    t.bus.clk.running = s.bus.clk.running := by
  obtain ⟨-, -, -, evs, done⟩ | ⟨credit, hinit⟩ := perform_runsCycles h
  · exact done.running
  · exact execInit_running (s := acceptCommand s) hinit

theorem beginStep_bus (s : State) : (beginStep s).bus = s.bus := by
  obtain ⟨b, hb⟩ := beginStep_keeps s
  rw [hb]
  rfl

theorem endStep_bus (began : Mode) (n : Nat) (s : State) : (endStep began n s).bus = s.bus := by
  obtain ⟨b, hb⟩ := endStep_keeps began n s
  rw [hb]
  rfl

theorem step_running {s t : State} (h : step s = .next t) : t.bus.clk.running = s.bus.clk.running := by
  obtain ⟨-, u, hu, rfl⟩ := step_next h
  rw [endStep_bus, perform_running hu, beginStep_bus]

/-- Under a legal configuration nothing but a clock that stands still can stop a step. -/
theorem step_ends {s : State} (hl : s.cfg.legal = true) (hr : s.bus.clk.running = true) : ∃ t, step s = .next t := by
  rw [step, if_pos hl]
  refine chain_ends (perform_ends _ ?_) fun _ _ => ⟨_, rfl⟩
  rwa [beginStep_bus]

/-- Settles O20, by induction on the number of steps: a step ends, and leaves the configuration legal and the clock running. -/
theorem runNeverStopsWhileClockRuns : Obligations.RunNeverStopsWhileClockRuns := by
  intro n
  induction n with
  | zero => exact fun s _ _ => ⟨s, rfl⟩
  | succ n ih =>
    intro s hl hr
    obtain ⟨t, ht⟩ := step_ends hl hr
    have hcfg : t.cfg = s.cfg := (configurationAndHistoryPersist s t ht).1
    rw [run_succ_of_step (M := core) n ht]
    exact ih t (hcfg ▸ hl) ((step_running ht).trans hr)

end Sys2Proof.Machine

/-! PROOFS. The legal configurations, one lemma for each group of conditions (U6, U7, U11, U13, U14, U15 of
`93_implementation_defined.md`), and the step that refuses every other one (log 4). -/

namespace Sys2Proof

theorem Config.capLegal_iff {n : Nat} : Config.capLegal n = true ↔ 1 ≤ n ∧ n ≤ 65535 := by
  simp [Config.capLegal]

theorem Config.capsLegal_iff {c : Config} :
    c.capsLegal = true ↔ ∀ n ∈ [c.solQCap, c.swQCap, c.sndQCap, c.solTimedCap, c.sndTimedCap], 1 ≤ n ∧ n ≤ 65535 := by
  simp [Config.capsLegal, Config.capLegal_iff, and_assoc]

theorem Config.strobeLegal_iff {c : Config} :
    c.strobeLegal = true ↔ c.strobeWaitSeq = [true, false, true] ∨ c.strobeWaitSeq = [true, false] := by
  simp [Config.strobeLegal]

theorem Config.dimLegal_iff {c : Config} : c.dimLegal = true ↔ 1 ≤ c.dimDiv1 ∧ 1 ≤ c.dimDiv2 := by
  simp [Config.dimLegal]

/-- The two remainders of U14 are divisibilities. -/
theorem Config.flashLegal_iff {c : Config} :
    c.flashLegal = true ↔
      2 ≤ c.flashGranMs ∧ 2 ∣ c.flashGranMs ∧ c.flashGranMs ∣ c.flashMaxMs ∧ c.flashMaxMs ≤ 255 * c.flashGranMs := by
  simp [Config.flashLegal, Nat.dvd_iff_mod_eq_zero, and_assoc]

theorem Config.digitsLegal_iff {c : Config} : c.digitsLegal = true ↔ 1 ≤ c.displayDigits ∧ c.displayDigits ≤ 8 := by
  simp [Config.digitsLegal]

@[simp] theorem Config.slotRefLegal_none (c : Config) : c.slotRefLegal none = true := rfl

/-- A reference is into one of the four main displays or into one of the two auxiliary fields of two digits. -/
theorem Config.slotRefLegal_some_iff {c : Config} {f p : Nat} :
    c.slotRefLegal (some (f, p)) = true ↔ (f ≤ 3 ∧ p < c.displayDigits) ∨ ((f = 4 ∨ f = 5) ∧ p < 2) := by
  simp only [Config.slotRefLegal, Config.nFields_eq, Config.fieldWidth_eq, Bool.and_eq_true, decide_eq_true_eq]
  by_cases hmain : f < 4
  · rw [if_pos hmain]
    omega
  · rw [if_neg hmain]
    omega

/-- An empty lane refers to nothing, so only the references of a row count. -/
theorem Config.all_slotRefLegal_iff {c : Config} {row : List (Option (Nat × Nat))} :
    row.all c.slotRefLegal = true ↔
      ∀ f p, some (f, p) ∈ row → (f ≤ 3 ∧ p < c.displayDigits) ∨ ((f = 4 ∨ f = 5) ∧ p < 2) := by
  rw [List.all_eq_true]
  constructor
  · exact fun h f p hmem => Config.slotRefLegal_some_iff.1 (h _ hmem)
  · intro h lane hmem
    cases lane with
    | none => exact c.slotRefLegal_none
    | some ref => exact Config.slotRefLegal_some_iff.2 (h ref.1 ref.2 hmem)

theorem Config.slotsLegal_iff {c : Config} :
    c.slotsLegal = true ↔
      c.slotTable.length = 16 ∧
        ∀ row ∈ c.slotTable, row.length = 4 ∧ ∀ f p, some (f, p) ∈ row →
          (f ≤ 3 ∧ p < c.displayDigits) ∨ ((f = 4 ∨ f = 5) ∧ p < 2) := by
  rw [Config.slotsLegal, Stated.value_eq, Bool.and_eq_true, beq_iff_eq, List.all_eq_true]
  simp only [Bool.and_eq_true, beq_iff_eq, Config.all_slotRefLegal_iff]

theorem Config.encodingLegal_iff {c : Config} : c.encodingLegal = true ↔ c.displayEncoding = .bcd := by
  simp [Config.encodingLegal]

theorem Config.creditLegal_iff {c : Config} : c.creditLegal = true ↔ c.creditBootCheck = false := by
  simp [Config.creditLegal]

end Sys2Proof

namespace Sys2Proof.Machine

/-- Under a legal configuration a step may fault, but it is not refused. -/
theorem accepted_step {s : State} (hl : s.cfg.legal = true) : Accepted (step s) := by
  rw [step, if_pos hl]
  exact accepted_chain (accepted_perform _ _) fun _ => accepted_next _

theorem step_of_illegal {s : State} (hl : ¬ s.cfg.legal = true) : step s = .refused .illegalConfig := if_neg hl

theorem step_refused_iff {s : State} : step s = .refused .illegalConfig ↔ ¬ s.cfg.legal = true :=
  ⟨fun h hl => accepted_step hl _ h, step_of_illegal⟩

/-- Settles O10: a step is refused exactly when the configuration is not legal, and each group of conditions of a legal
configuration is the one the statement spells out. -/
theorem illegalConfigurationIsRefused : Obligations.IllegalConfigurationIsRefused := by
  intro s
  rw [step_refused_iff]
  simp only [Config.legal, Bool.and_eq_true, Config.capsLegal_iff, Config.strobeLegal_iff, Config.dimLegal_iff,
    Config.flashLegal_iff, Config.digitsLegal_iff, Config.slotsLegal_iff, Config.encodingLegal_iff, Config.creditLegal_iff,
    and_assoc]

end Sys2Proof.Machine
